-- ==== Sys2Proof/Word.lean ====
section
/-! DEFINITION. The bit-vector types of the engine: a byte, a bus word, a window offset, a register selector. -/

namespace Sys2Proof

/-- A byte, 0..255 (00_scope.md R12). -/
abbrev Byte := BitVec 8

/-- A bus word: the window is 32-bit words, and a command is one of them (20_memory.md R61, 30_encoding.md R90). -/
abbrev Word := BitVec 32

/-- A byte offset in the engine's 16-bit window (20_memory.md R60). -/
abbrev Addr := BitVec 16

/-- A 4-bit register-selector field of a command word (30_encoding.md R90, R92). -/
abbrev Selector := BitVec 4

/-- A buffer: a finite sequence of bytes, first byte first (00_scope.md R12). -/
abbrev Buffer := List Byte

end Sys2Proof
end

