-- ==== Sys2Proof/Syntax.lean ====
section
/-! DEFINITION. The twenty commands, one constructor per row of spec/opcode_table.json (30_encoding.md R94). -/

namespace Sys2Proof

/-- A command of the engine. Every operand other than the selectors is implicit (30_encoding.md R91). A selector is
kept as the 4-bit field the word holds; which ones name a register is WellFormed's business (R92). -/
inductive Instr where
  /-- NOP, R112 -/
  | nop
  /-- CLEAR, R113 -/
  | clear
  /-- XFER, R114 -/
  | xfer
  /-- MP_LOAD rd, R116 -/
  | mpLoad (rd : Selector)
  /-- MP_STORE rs, R117 -/
  | mpStore (rs : Selector)
  /-- MP_MOV rd, rs, R118 -/
  | mpMov (rd rs : Selector)
  /-- MONTMUL, R135 -/
  | montmul
  /-- MODEXP, R136 -/
  | modexp
  /-- RSA_ENC, R137 -/
  | rsaEnc
  /-- RSA_DEC, R138 -/
  | rsaDec
  /-- AES_KEYEXP, R174 -/
  | aesKeyexp
  /-- AES_ENC_BLK, R175 -/
  | aesEncBlk
  /-- AES_DEC_BLK, R176 -/
  | aesDecBlk
  /-- CBC_ENC, R202 -/
  | cbcEnc
  /-- CBC_DEC, R203 -/
  | cbcDec
  /-- PKCS7_PAD, R218 -/
  | pkcs7Pad
  /-- PKCS7_CHECK, R219 -/
  | pkcs7Check
  /-- PKCS7_UNPAD, R220 -/
  | pkcs7Unpad
  /-- HEX_ENC, R238 -/
  | hexEnc
  /-- HEX_DEC, R239 -/
  | hexDec
  deriving DecidableEq, Repr

end Sys2Proof
end

