-- ==== Sys2Proof/WellFormed.lean ====
section
/-! DEFINITION. Which instruction terms are commands: a selector that is used names a register (30_encoding.md R92). -/

namespace Sys2Proof

/-- A selector is legal when it is 0..4; 5..15 name no register (30_encoding.md R92, 10_state.md R24). -/
def Selector.legal (r : Selector) : Bool := r.toNat ≤ 4

/-- The commands that some legal word stands for (30_encoding.md R95). -/
def Instr.wellFormed : Instr → Bool
  | .mpLoad rd => Selector.legal rd
  | .mpStore rs => Selector.legal rs
  | .mpMov rd rs => Selector.legal rd && Selector.legal rs
  | .nop | .clear | .xfer | .montmul | .modexp | .rsaEnc | .rsaDec | .aesKeyexp | .aesEncBlk | .aesDecBlk
  | .cbcEnc | .cbcDec | .pkcs7Pad | .pkcs7Check | .pkcs7Unpad | .hexEnc | .hexDec => true

end Sys2Proof
end

