-- ==== Sys2Proof/Decode.lean ====
section
/-! DEFINITION. The command decoder and encoder (30_encoding.md R90 to R97): total on all words, every illegal word
refused under the name of what makes it illegal. -/

namespace Sys2Proof

/-- Why a word is illegal (30_encoding.md R95). Whatever the reason, the accepted word faults IllegalCommand. -/
inductive Illegal where
  /-- `zero`, bits 31:16, is not 0 (R93) -/
  | zeroFieldSet
  /-- `op` is none of the twenty (R94) -/
  | unassignedOpcode
  /-- `rd` must be 0 in this format and is not (R92) -/
  | rdFieldSet
  /-- `rs` must be 0 in this format and is not (R92) -/
  | rsFieldSet
  /-- `rd` is used and is 5..15 (R92) -/
  | rdNotARegister
  /-- `rs` is used and is 5..15 (R92) -/
  | rsNotARegister
  deriving DecidableEq, Repr

/-- `op`, bits 7:0 (30_encoding.md R90). -/
def opField (w : Word) : BitVec 8 := w.extractLsb' 0 8

/-- `rd`, bits 11:8 (30_encoding.md R90). -/
def rdField (w : Word) : Selector := w.extractLsb' 8 4

/-- `rs`, bits 15:12 (30_encoding.md R90). -/
def rsField (w : Word) : Selector := w.extractLsb' 12 4

/-- `zero`, bits 31:16 (30_encoding.md R90). -/
def zeroField (w : Word) : BitVec 16 := w.extractLsb' 16 16

/-- Format N: both selector fields must be 0 (30_encoding.md R90). -/
def formatN (w : Word) (i : Instr) : Except Illegal Instr :=
  if rdField w ≠ 0 then .error .rdFieldSet
  else if rsField w ≠ 0 then .error .rsFieldSet
  else .ok i

/-- Format D: `rd` selects the destination, `rs` must be 0 (30_encoding.md R90). -/
def formatD (w : Word) (mk : Selector → Instr) : Except Illegal Instr :=
  if rsField w ≠ 0 then .error .rsFieldSet
  else if Selector.legal (rdField w) then .ok (mk (rdField w))
  else .error .rdNotARegister

/-- Format S: `rs` selects the source, `rd` must be 0 (30_encoding.md R90). -/
def formatS (w : Word) (mk : Selector → Instr) : Except Illegal Instr :=
  if rdField w ≠ 0 then .error .rdFieldSet
  else if Selector.legal (rsField w) then .ok (mk (rsField w))
  else .error .rsNotARegister

/-- Format DS: `rd` selects the destination and `rs` the source (30_encoding.md R90). -/
def formatDS (w : Word) (mk : Selector → Selector → Instr) : Except Illegal Instr :=
  if Selector.legal (rdField w) then
    if Selector.legal (rsField w) then .ok (mk (rdField w) (rsField w)) else .error .rsNotARegister
  else .error .rdNotARegister

/-- The command a word stands for by its full `op` value, in the table's order (30_encoding.md R94). -/
def decodeOp (w : Word) : Except Illegal Instr :=
  match (opField w).toNat with
  | 0x00 => formatN w .nop
  | 0x01 => formatN w .clear
  | 0x02 => formatN w .xfer
  | 0x10 => formatD w .mpLoad
  | 0x11 => formatS w .mpStore
  | 0x12 => formatDS w .mpMov
  | 0x18 => formatN w .montmul
  | 0x19 => formatN w .modexp
  | 0x1A => formatN w .rsaEnc
  | 0x1B => formatN w .rsaDec
  | 0x20 => formatN w .aesKeyexp
  | 0x21 => formatN w .aesEncBlk
  | 0x22 => formatN w .aesDecBlk
  | 0x28 => formatN w .cbcEnc
  | 0x29 => formatN w .cbcDec
  | 0x30 => formatN w .pkcs7Pad
  | 0x31 => formatN w .pkcs7Check
  | 0x32 => formatN w .pkcs7Unpad
  | 0x38 => formatN w .hexEnc
  | 0x39 => formatN w .hexDec
  | _ => .error .unassignedOpcode

/-- Every word is one of the twenty commands or illegal (30_encoding.md R95). -/
def decode (w : Word) : Except Illegal Instr :=
  if zeroField w ≠ 0 then .error .zeroFieldSet else decodeOp w

/-- A word from its fields (30_encoding.md R90). -/
def packWord (op : BitVec 8) (rd rs : Selector) : Word := (0 : BitVec 16) ++ rs ++ rd ++ op

/-- The word of a command: the `match` value of its row with the selectors filled in (30_encoding.md R94, R98). -/
def encode : Instr → Word
  | .nop => packWord 0x00 0 0
  | .clear => packWord 0x01 0 0
  | .xfer => packWord 0x02 0 0
  | .mpLoad rd => packWord 0x10 rd 0
  | .mpStore rs => packWord 0x11 0 rs
  | .mpMov rd rs => packWord 0x12 rd rs
  | .montmul => packWord 0x18 0 0
  | .modexp => packWord 0x19 0 0
  | .rsaEnc => packWord 0x1A 0 0
  | .rsaDec => packWord 0x1B 0 0
  | .aesKeyexp => packWord 0x20 0 0
  | .aesEncBlk => packWord 0x21 0 0
  | .aesDecBlk => packWord 0x22 0 0
  | .cbcEnc => packWord 0x28 0 0
  | .cbcDec => packWord 0x29 0 0
  | .pkcs7Pad => packWord 0x30 0 0
  | .pkcs7Check => packWord 0x31 0 0
  | .pkcs7Unpad => packWord 0x32 0 0
  | .hexEnc => packWord 0x38 0 0
  | .hexDec => packWord 0x39 0 0

/-- The decoder's answer for an instruction given as a number: `nbits` low bits of `w`, the bits above them 0. -/
def decodeTableWord (nbits w : Nat) : Option Instr :=
  (decode (BitVec.ofNat 32 (w % 2 ^ nbits))).toOption

end Sys2Proof
end

