-- ==== Sys2Proof/Config.lean ====
section
/-! DEFINITION. What one instance of the engine fixes: its parameters (00_scope.md R7) and its constants (R6, R21).
The spec leaves no value of the engine open (93_implementation_defined.md, end of Part 1), so there is no free
value here; the OPEN parameter LATENCY is data of State (log entry 3), and BUS_PROTOCOL is met by a refusal (log entry 7). -/

namespace Sys2Proof

/-- The parameters of one instance (00_scope.md R7). `MONT_K` equals `MP_BITS`, so it is no field.
Held in State as constant data, so that a statement about every state speaks of every instance (log entry 1). -/
structure Params where
  /-- MP_BITS: the width in bits of each multiprecision register. -/
  mpBits : Nat
  /-- KEYBYTES_MAX: the largest AES key in bytes that KEY holds. -/
  keyBytesMax : Nat
  /-- BUF_MAX: the capacity in bytes of IBUF and of OBUF. -/
  bufMax : Nat
  deriving DecidableEq, Repr

/-- The spec's default parameter values (00_scope.md R7). -/
def Params.default : Params := { mpBits := 2048, keyBytesMax := 32, bufMax := 4096 }

/-- The constraints of 00_scope.md R7 on the parameters. -/
abbrev Params.Valid (p : Params) : Prop :=
  (p.mpBits % 32 = 0 ∧ 64 ≤ p.mpBits) ∧
  (p.keyBytesMax % 8 = 0 ∧ 16 ≤ p.keyBytesMax ∧ p.keyBytesMax ≤ 64) ∧
  (p.bufMax % 4 = 0 ∧ 2 * (p.mpBits / 8) ≤ p.bufMax ∧ 16 * (p.keyBytesMax / 4 + 7) ≤ p.bufMax ∧ p.bufMax ≤ 4096)

/-- MP_BYTES (00_scope.md R7). -/
def Params.mpBytes (p : Params) : Nat := p.mpBits / 8

/-- MONT_K, the exponent of the Montgomery radix (00_scope.md R7). -/
def Params.montK (p : Params) : Nat := p.mpBits

/-- The AES block size BLOCK (00_scope.md R6). -/
def Config.block : Nat := 16

/-- The identification word, ASCII "CORE" (00_scope.md R1, 10_state.md R21). -/
def Config.idWord : Word := 0x434F5245

/-- The spec version that CFG1 shows (10_state.md R21). -/
def Config.version : Byte := 1

/-- The reset value of PADBS (10_state.md R32, R45). -/
def Config.padbsReset : Byte := 16

/-- What a byte of KEY, IV, IBUF or OBUF reads as that the memory does not list: its reset value (10_state.md R45). -/
def Config.unlisted : Byte := 0

end Sys2Proof
end

