-- ==== Sys2Proof/Machine/State.lean ====
section
/-! DEFINITION. The state of one engine instance and of the host that drives it, as plain data, with the reasons a step
can stop and the state after reset. What State holds is listed in INVENTORY.md under State (10_state.md R20). -/

namespace Sys2Proof.Machine

/-- The multiprecision registers (10_state.md R24). -/
inductive MpReg where
  | mpn | mpe | mpa | mpb | mpr
  deriving DecidableEq, Repr

/-- The error kinds of 60_exceptions.md R280. A fault of the engine is no stop of the machine: a command that raises one
answers a next state whose ERRCODE holds the kind's code (R284). -/
inductive ErrorKind where
  /-- 0x01, PKCS7_UNPAD -/
  | invalidPadding
  /-- 0x02, the AES and CBC commands -/
  | invalidKeyLength
  /-- 0x03, RSA_ENC -/
  | plaintextTooLarge
  /-- 0x04, RSA_DEC -/
  | ciphertextTooLarge
  /-- 0x05, CBC and single-block commands -/
  | invalidLength
  /-- 0x06, host software only, never in ERRCODE -/
  | keyGenerationError
  /-- 0x07, host software only, never in ERRCODE -/
  | noInverse
  /-- 0x10, any accepted illegal word -/
  | illegalCommand
  /-- 0x11, every command that reads the input buffer -/
  | bufferRange
  /-- 0x12, PKCS7_PAD and HEX_ENC -/
  | outputOverflow
  /-- 0x13, MP_LOAD -/
  | operandTooLarge
  /-- 0x14, MODEXP -/
  | modulusZero
  /-- 0x15, MONTMUL -/
  | modulusNotOdd
  /-- 0x16, MONTMUL -/
  | operandRange
  /-- 0x17, HEX_DEC -/
  | badHexDigit
  /-- 0x18, the PKCS7 commands -/
  | invalidBlockSize
  deriving DecidableEq, Repr

/-- One operation of the environment on the engine (20_memory.md R61, 30_encoding.md R99, 70_reset_and_hazards.md R320). -/
inductive HostOp where
  /-- `RD addr`: an aligned 32-bit bus read (20_memory.md R63). -/
  | read (addr : Addr)
  /-- `WR addr, word`: an aligned 32-bit bus write (20_memory.md R64). -/
  | write (addr : Addr) (w : Word)
  /-- `WAIT`: read STATUS until BUSY reads 0 (30_encoding.md R99). -/
  | wait
  /-- `RDBUF`: read OLEN, then that many bytes' words of OBUF (30_encoding.md R100). How many reads follow depends on
  what OLEN reads as, so the operation stands for all of them. -/
  | rdbuf
  /-- Reset, delivered by the platform (70_reset_and_hazards.md R320). -/
  | reset
  /-- A bus access of `bytes` bytes that is not a 32-bit one: no part of the interface (20_memory.md R70). -/
  | odd (addr : Addr) (bytes : Nat)
  deriving DecidableEq, Repr

/-- A command that was accepted and has not completed (40_control_and_transfer.md R110). -/
structure Flight where
  /-- The accepted command word. -/
  word : Word
  /-- How many more steps pass before its engine step (the OPEN parameter LATENCY, log entry 3). -/
  wait : Nat
  deriving DecidableEq, Repr

/-- The bytes of KEY, IV, IBUF and OBUF, each under its window offset, in one canonical form (`Memory.wf` of
Machine/Ops.lean). An offset that is not listed reads `Config.unlisted`. -/
abbrev Memory := List Host.Cell

/-- Reasons for a step to stop with a fault. There is none: the spec leaves nothing stuck (93_implementation_defined.md,
end of Part 1), and a fault of the engine is a next state (60_exceptions.md R284). Log entry 8. -/
inductive Fault where
  deriving DecidableEq, Repr

/-- Reasons for a step to have no meaning. -/
inductive Refusal where
  /-- Raised by an arm of `exec` whose instruction has no meaning yet. Safe. No arm raises it. -/
  | notModelled (mnemonic : String)
  /-- Raised by the host's turn for a 32-bit access whose offset is not a multiple of 4: no part of the interface
  (20_memory.md R70, 93 U20). Safe: the model stops where a platform bus would go on in some way. -/
  | misalignedAccess (addr : Addr)
  /-- Raised by the host's turn for an access that is not 32 bits wide: no part of the interface (20_memory.md R70,
  93 U20). Safe, for the same reason. -/
  | accessWidth (addr : Addr) (bytes : Nat)
  deriving DecidableEq, Repr

/-- The engine's architectural state (10_state.md R20), the command in flight (R110), and the environment's operations. -/
structure State where
  /-- MP_BITS, KEYBYTES_MAX, BUF_MAX: what CFG0 and CFG1 show. Nothing writes it (10_state.md R21, log entry 1). -/
  params : Params
  /-- The command in flight; STATUS.BUSY is 1 exactly when there is one (R23, R110, log entry 2). -/
  inFlight : Option Flight
  /-- STATUS.DONE (R23). -/
  done : Bool
  /-- STATUS.ERR (R23). -/
  err : Bool
  /-- STATUS.PINV (R23). -/
  pinv : Bool
  /-- ERRCODE bits 7:0 (R28). -/
  errCode : Byte
  /-- ILEN (R29). -/
  ilen : Word
  /-- OLEN (R30). -/
  olen : Word
  /-- KLEN (R31). -/
  klen : Word
  /-- PADBS bits 7:0 (R32). -/
  padbs : Byte
  /-- MPN, the modulus (R24). A natural number; that it stays below 2^MP_BITS is an invariant. -/
  mpn : Nat
  /-- MPE, the exponent (R24). -/
  mpe : Nat
  /-- MPA, the first operand (R24). -/
  mpa : Nat
  /-- MPB, the second operand (R24). -/
  mpb : Nat
  /-- MPR, the result (R24). -/
  mpr : Nat
  /-- KEY, IV, IBUF and OBUF (R34 to R37). -/
  mem : Memory
  /-- The model's own: the environment's operations still to come, in the order issued (R44, 20_memory.md R74). -/
  host : List HostOp
  /-- The model's own: the latencies of the commands still to be accepted, oldest first (log entry 3). -/
  latency : List Nat
  /-- The model's own: the words the host's reads returned, newest first (log entry 5). -/
  observed : List Word
  deriving DecidableEq, Repr

/-- The machine right after reset (10_state.md R45), an instance with the default parameters, with no operation pending. -/
def State.reset : State where
  params := Params.default
  inFlight := none
  done := false
  err := false
  pinv := false
  errCode := 0
  ilen := 0
  olen := 0
  klen := 0
  padbs := Config.padbsReset
  mpn := 0
  mpe := 0
  mpa := 0
  mpb := 0
  mpr := 0
  mem := []
  host := []
  latency := []
  observed := []

/-- What a step or a meaning answers. -/
abbrev Result := Host.Outcome State Fault Refusal

end Sys2Proof.Machine
end

