-- ==== Sys2Proof/Machine/Ops.lean ====
section
/-! DEFINITION. The named operations over memory and registers, the completion of a command, and the taking of a fault,
each said once and used by every command. -/

namespace Sys2Proof.Machine

/-! ### Memory: the bytes of KEY, IV, IBUF and OBUF under their window offsets -/

/-- The byte at an offset; one that is not listed reads its reset value (10_state.md R45, R47). -/
def Memory.read : Memory → Nat → Byte
  | [], _ => Config.unlisted
  | (a, b) :: m, x => if a = x then b else Memory.read m x

/-- The memory without an entry for an offset. -/
def Memory.erase (m : Memory) (x : Nat) : Memory := m.filter fun c => c.1 != x

/-- The memory with one more entry, put before the first entry of a higher offset. -/
def Memory.insert : Memory → Nat → Byte → Memory
  | [], x, v => [(x, v)]
  | (a, b) :: m, x, v => if x < a then (x, v) :: (a, b) :: m else (a, b) :: Memory.insert m x v

/-- Write one byte and keep the canonical form: offsets strictly rising, no entry that reads as an unlisted byte does. -/
def Memory.write (m : Memory) (x : Nat) (v : Byte) : Memory :=
  if v = Config.unlisted then Memory.erase m x else Memory.insert (Memory.erase m x) x v

/-- Write a buffer at consecutive offsets. -/
def Memory.writeBytes (m : Memory) (base : Nat) : Buffer → Memory
  | [] => m
  | b :: bs => Memory.writeBytes (Memory.write m base b) (base + 1) bs

/-- The `n` bytes from an offset on, lowest first. -/
def Memory.readBytes (m : Memory) (base : Nat) : Nat → Buffer
  | 0 => []
  | n + 1 => Memory.read m base :: Memory.readBytes m (base + 1) n

/-- The canonical form: offsets strictly rising, and no entry equal to what an unlisted offset reads as. -/
abbrev Memory.wf (m : Memory) : Prop :=
  (m.map Prod.fst).Pairwise (· < ·) ∧ ∀ c ∈ m, c.2 ≠ Config.unlisted

/-! ### The windows of the four byte arrays (20_memory.md R62) -/

/-- Offset of IV[0] (10_state.md R35). -/
def ivBase : Nat := 0x0060

/-- Offset of KEY[0] (10_state.md R34). -/
def keyBase : Nat := 0x0080

/-- Offset of IBUF[0] (10_state.md R36). -/
def ibufBase : Nat := 0x1000

/-- Offset of OBUF[0] (10_state.md R37). -/
def obufBase : Nat := 0x2000

/-- IV[k] (10_state.md R35). -/
def State.iv (s : State) (k : Nat) : Byte := s.mem.read (ivBase + k)

/-- KEY[k] (10_state.md R34). -/
def State.key (s : State) (k : Nat) : Byte := s.mem.read (keyBase + k)

/-- IBUF[k] (10_state.md R36). -/
def State.ibuf (s : State) (k : Nat) : Byte := s.mem.read (ibufBase + k)

/-- OBUF[k] (10_state.md R37). -/
def State.obuf (s : State) (k : Nat) : Byte := s.mem.read (obufBase + k)

/-- `out <- b`: OBUF takes the bytes of `b` from index 0 on, OLEN its length (00_scope.md R13, 10_state.md R37). -/
def State.putOut (s : State) (b : Buffer) : State :=
  { s with mem := s.mem.writeBytes obufBase b, olen := BitVec.ofNat 32 b.length }

/-- The bytes `OBUF[0 .. OLEN-1]`, no index at or past BUF_MAX (10_state.md R30 has OLEN at most BUF_MAX, log entry 10). -/
def State.outBytes (s : State) : Buffer := s.mem.readBytes obufBase (min s.olen.toNat s.params.bufMax)

/-- XFER's copy: `IBUF[k] <- OBUF[k]` for `k < OLEN`, `ILEN <- OLEN` (40_control_and_transfer.md R114). -/
def State.copyOutToIn (s : State) : State :=
  { s with mem := s.mem.writeBytes ibufBase s.outBytes, ilen := s.olen }

/-! ### Multiprecision registers (10_state.md R24 to R26) -/

/-- `MP[i]`, read. -/
def State.mp (s : State) : MpReg → Nat
  | .mpn => s.mpn
  | .mpe => s.mpe
  | .mpa => s.mpa
  | .mpb => s.mpb
  | .mpr => s.mpr

/-- `MP[i] <- v`. -/
def State.setMp (s : State) (r : MpReg) (v : Nat) : State :=
  match r with
  | .mpn => { s with mpn := v }
  | .mpe => { s with mpe := v }
  | .mpa => { s with mpa := v }
  | .mpb => { s with mpb := v }
  | .mpr => { s with mpr := v }

/-! ### Faults, completion, clearing -/

/-- The number of an error kind (60_exceptions.md R280). -/
def ErrorKind.code : ErrorKind → Byte
  | .invalidPadding => 0x01
  | .invalidKeyLength => 0x02
  | .plaintextTooLarge => 0x03
  | .ciphertextTooLarge => 0x04
  | .invalidLength => 0x05
  | .keyGenerationError => 0x06
  | .noInverse => 0x07
  | .illegalCommand => 0x10
  | .bufferRange => 0x11
  | .outputOverflow => 0x12
  | .operandTooLarge => 0x13
  | .modulusZero => 0x14
  | .modulusNotOdd => 0x15
  | .operandRange => 0x16
  | .badHexDigit => 0x17
  | .invalidBlockSize => 0x18

/-- `raise E`: BUSY and DONE to 0, ERR to 1, ERRCODE to the kind's code, and nothing else (60_exceptions.md R284). -/
def State.raise (s : State) (e : ErrorKind) : State :=
  { s with inFlight := none, done := false, err := true, errCode := e.code }

/-- Completion without a fault: BUSY to 0, DONE to 1 (40_control_and_transfer.md R110). -/
def State.complete (s : State) : State := { s with inFlight := none, done := true }

/-- The engine step of a command that raises `e`. -/
def fails (e : ErrorKind) (s : State) : Result := .next (s.raise e)

/-- The engine step of a command that performed its writes, giving `s`. -/
def finish (s : State) : Result := .next s.complete

/-- Every storage at its reset value, the environment's operations and the parameters as they were: what reset does
(10_state.md R45, 70_reset_and_hazards.md R320). -/
def State.afterReset (s : State) : State :=
  { State.reset with params := s.params, host := s.host, latency := s.latency, observed := s.observed }

/-- What CLEAR's pseudocode writes: every storage to its reset value, BUSY and DONE left to the completion
(40_control_and_transfer.md R113). There is no return from a fault: this is the recovery (60_exceptions.md R290). -/
def State.cleared (s : State) : State := { s.afterReset with inFlight := s.inFlight, done := s.done }

/-- Acceptance: BUSY to 1 with the word in flight, DONE to 0 (40_control_and_transfer.md R110). -/
def State.accept (s : State) (w : Word) (wait : Nat) : State :=
  { s with inFlight := some { word := w, wait := wait }, done := false }

end Sys2Proof.Machine
end

