-- ==== Sys2Proof/Machine/Flags.lean ====
section
/-! DEFINITION. The flags: the four STATUS bits, how a bus read shows them, and the one flag a command computes
(10_state.md R23, R33). BUSY, DONE and ERR are written by `State.accept`, `State.complete` and `State.raise`. -/

namespace Sys2Proof.Machine

/-- STATUS.BUSY: a command has been accepted and has not completed (10_state.md R23). -/
def State.busy (s : State) : Bool := s.inFlight.isSome

/-- A flag as one bit. -/
def flagBit (b : Bool) : BitVec 1 := BitVec.ofBool b

/-- The STATUS word: BUSY bit 0, DONE bit 1, ERR bit 2, PINV bit 3, the rest 0 (10_state.md R23). -/
def State.statusWord (s : State) : Word :=
  (0 : BitVec 28) ++ flagBit s.pinv ++ flagBit s.err ++ flagBit s.done ++ flagBit s.busy

/-- `STATUS.PINV <- b` (44_pkcs7.md R219). -/
def State.setPinv (s : State) (b : Bool) : State := { s with pinv := b }

end Sys2Proof.Machine
end

