-- ==== Sys2Proof/Machine/Bus.lean ====
section
/-! DEFINITION. The bus window: the address map, BusRead, BusWrite, and the acceptance of a command
(20_memory.md R60 to R73, 40_control_and_transfer.md R110). -/

namespace Sys2Proof.Machine

/-- What an offset of the window is (20_memory.md R62). -/
inductive Region where
  | id | cfg0 | cfg1 | cmd | status | errcode | ilen | olen | klen | padbs
  | iv | key | ibuf | obuf
  | unmapped
  deriving DecidableEq, Repr

/-- Whether an offset lies in the `len` bytes from `base` on. -/
def inWindow (a base len : Nat) : Bool := base ≤ a && a < base + len

/-- The address map of an instance (20_memory.md R62). -/
def regionOf (p : Params) (a : Nat) : Region :=
  if a = 0x0000 then .id
  else if a = 0x0004 then .cfg0
  else if a = 0x0008 then .cfg1
  else if a = 0x0010 then .cmd
  else if a = 0x0014 then .status
  else if a = 0x0018 then .errcode
  else if a = 0x001C then .ilen
  else if a = 0x0020 then .olen
  else if a = 0x0024 then .klen
  else if a = 0x0028 then .padbs
  else if inWindow a ivBase Config.block then .iv
  else if inWindow a keyBase p.keyBytesMax then .key
  else if inWindow a ibufBase p.bufMax then .ibuf
  else if inWindow a obufBase p.bufMax then .obuf
  else .unmapped

/-- CFG0: BUF_MAX above MP_BITS (10_state.md R21). -/
def cfg0Word (p : Params) : Word := BitVec.ofNat 16 p.bufMax ++ BitVec.ofNat 16 p.mpBits

/-- CFG1: version, BLOCK, KEYBYTES_MAX (10_state.md R21). -/
def cfg1Word (p : Params) : Word :=
  (0 : BitVec 8) ++ Config.version ++ BitVec.ofNat 8 Config.block ++ BitVec.ofNat 8 p.keyBytesMax

/-- The word of a byte window at an offset: the byte of lowest index in the lowest lane (20_memory.md R67). -/
def Memory.readWord (m : Memory) (a : Nat) : Word :=
  m.read (a + 3) ++ m.read (a + 2) ++ m.read (a + 1) ++ m.read a

/-- The four byte lanes of a word, lane 0 first (20_memory.md R67). -/
def lanes (w : Word) : Buffer := [w.extractLsb' 0 8, w.extractLsb' 8 8, w.extractLsb' 16 8, w.extractLsb' 24 8]

/-- What a read of a region returns when no command runs (20_memory.md R63). -/
def idleRead (s : State) (a : Nat) : Word :=
  match regionOf s.params a with
  | .id => Config.idWord
  | .cfg0 => cfg0Word s.params
  | .cfg1 => cfg1Word s.params
  | .cmd => 0
  | .status => s.statusWord
  | .errcode => s.errCode.setWidth 32
  | .ilen => s.ilen
  | .olen => s.olen
  | .klen => s.klen
  | .padbs => s.padbs.setWidth 32
  | .iv | .key | .ibuf | .obuf => s.mem.readWord a
  | .unmapped => 0

/-- What a read returns while a command runs: only ID, CFG0, CFG1 and STATUS show (20_memory.md R63, 70_reset_and_hazards.md R326). -/
def busyRead (s : State) (a : Nat) : Word :=
  match regionOf s.params a with
  | .id | .cfg0 | .cfg1 | .status => idleRead s a
  | .cmd | .errcode | .ilen | .olen | .klen | .padbs | .iv | .key | .ibuf | .obuf | .unmapped => 0

/-- `BusRead(addr)` (20_memory.md R63). -/
def busRead (s : State) (a : Nat) : Word := if s.busy then busyRead s a else idleRead s a

/-- A write of `w` to CMD when BUSY = 0: dropped while ERR = 1 unless it is CLEAR's word, otherwise accepted
(40_control_and_transfer.md R110, 60_exceptions.md R286). The latency is the next of the environment's list, none left
reading as 0 (log entry 3). -/
def writeCmd (s : State) (w : Word) : State :=
  if s.err ∧ w ≠ encode .clear then s
  else { s.accept w (s.latency.headD 0) with latency := s.latency.tail }

/-- `BusWrite(addr, w)` (20_memory.md R64, R65). -/
def busWrite (s : State) (a : Nat) (w : Word) : State :=
  if s.busy then s
  else match regionOf s.params a with
  | .cmd => writeCmd s w
  | .ilen => { s with ilen := w }
  | .klen => { s with klen := w }
  | .padbs => { s with padbs := w.extractLsb' 0 8 }
  | .iv | .key | .ibuf => { s with mem := s.mem.writeBytes a (lanes w) }
  | .id | .cfg0 | .cfg1 | .status | .errcode | .olen | .obuf | .unmapped => s

/-- The environment's record of a read; no state of the engine changes (20_memory.md R72). -/
def State.observe (s : State) (w : Word) : State := { s with observed := w :: s.observed }

/-- The offset of STATUS (20_memory.md R62). -/
def statusAddr : Nat := 0x0014

/-- The offset of CMD (20_memory.md R62). -/
def cmdAddr : Nat := 0x0010

/-- The offset of OLEN (20_memory.md R62). -/
def olenAddr : Nat := 0x0020

/-- The reads of `RDBUF` after the one of OLEN: the words of OBUF that hold its first `n` bytes (30_encoding.md R100).
An offset past the 16-bit window, for an `n` that no run meets, wraps: DESIGN CHOICE, unsafe (log entry 18). -/
def obufReads (n : Nat) : List HostOp :=
  (List.range ((n + 3) / 4)).map fun j => .read (BitVec.ofNat 16 (obufBase + 4 * j))

/-- One operation of the environment takes effect. `s` no longer lists it; WAIT puts itself back while BUSY reads 1, and
RDBUF puts the reads of OBUF in its place (20_memory.md R70, R74, 30_encoding.md R99, R100, 70_reset_and_hazards.md R320). -/
def hostOp (s : State) : HostOp → Result
  | .read addr =>
    if addr.toNat % 4 ≠ 0 then .refused (.misalignedAccess addr) else .next (s.observe (busRead s addr.toNat))
  | .write addr w =>
    if addr.toNat % 4 ≠ 0 then .refused (.misalignedAccess addr) else .next (busWrite s addr.toNat w)
  | .wait =>
    if s.busy then .next { s.observe (busRead s statusAddr) with host := .wait :: s.host }
    else .next (s.observe (busRead s statusAddr))
  | .rdbuf =>
    .next { s.observe (busRead s olenAddr) with host := obufReads (busRead s olenAddr).toNat ++ s.host }
  | .reset => .next s.afterReset
  | .odd addr bytes => .refused (.accessWidth addr bytes)

/-- The environment's turn: its next operation takes effect; with none left the engine stays as it is, idle or busy
(20_memory.md R74, 60_exceptions.md R293). -/
def hostTurn (s : State) : Result :=
  match s.host with
  | [] => .next s
  | op :: rest => hostOp { s with host := rest } op

end Sys2Proof.Machine
end

