-- ==== Sys2Proof/Machine/AesCore.lean ====
section
/-! DEFINITION. The AES functions: field arithmetic, the substitution tables, the round steps, the key schedule, the
cipher and its inverse (42_aes_block.md R160 to R173). A block is a buffer of sixteen bytes; the state byte of row `r`
and column `c` is its byte `r + 4*c` (R160). -/

namespace Sys2Proof.Machine

/-- `b[k]`; every use has `k` below the length. -/
def byteAt (b : Buffer) (k : Nat) : Byte := b.getD k 0

/-- A block from its sixteen bytes. -/
def blockOf (f : Nat → Byte) : Buffer := (List.range 16).map f

/-- Multiplication by x in GF(2^8), reduction constant 0x1B (42_aes_block.md R161). -/
def xtime (a : Byte) : Byte := (a <<< 1) ^^^ (if a &&& 0x80 ≠ 0 then 0x1B else 0)

/-- `xtime` applied `i` times. -/
def xtimes : Nat → Byte → Byte
  | 0, a => a
  | i + 1, a => xtimes i (xtime a)

/-- Multiplication in GF(2^8): the XOR over the set bits `i` of `b` of `xtime` applied `i` times to `a` (42_aes_block.md R161). -/
def gmul (a b : Byte) : Byte :=
  (List.range 8).foldl (fun acc i => if b.getLsbD i then acc ^^^ xtimes i a else acc) 0

/-- The rows 0x to Fx of the S-box table, sixteen bytes each, column x0 first (42_aes_block.md R162). -/
def sboxRows : List (BitVec 128) :=
  [0x637c777bf26b6fc53001672bfed7ab76,
   0xca82c97dfa5947f0add4a2af9ca472c0,
   0xb7fd9326363ff7cc34a5e5f171d83115,
   0x04c723c31896059a071280e2eb27b275,
   0x09832c1a1b6e5aa0523bd6b329e32f84,
   0x53d100ed20fcb15b6acbbe394a4c58cf,
   0xd0efaafb434d338545f9027f503c9fa8,
   0x51a3408f929d38f5bcb6da2110fff3d2,
   0xcd0c13ec5f974417c4a77e3d645d1973,
   0x60814fdc222a908846eeb814de5e0bdb,
   0xe0323a0a4906245cc2d3ac629195e479,
   0xe7c8376d8dd54ea96c56f4ea657aae08,
   0xba78252e1ca6b4c6e8dd741f4bbd8b8a,
   0x703eb5664803f60e613557b986c11d9e,
   0xe1f8981169d98e949b1e87e9ce5528df,
   0x8ca1890dbfe6426841992d0fb054bb16]

/-- The rows 0x to Fx of the inverse S-box table, column x0 first (42_aes_block.md R163). -/
def invSboxRows : List (BitVec 128) :=
  [0x52096ad53036a538bf40a39e81f3d7fb,
   0x7ce339829b2fff87348e4344c4dee9cb,
   0x547b9432a6c2233dee4c950b42fac34e,
   0x082ea16628d924b2765ba2496d8bd125,
   0x72f8f66486689816d4a45ccc5d65b692,
   0x6c704850fdedb9da5e154657a78d9d84,
   0x90d8ab008cbcd30af7e45805b8b34506,
   0xd02c1e8fca3f0f02c1afbd0301138a6b,
   0x3a9111414f67dcea97f2cfcef0b4e673,
   0x96ac7422e7ad3585e2f937e81c75df6e,
   0x47f11a711d29c5896fb7620eaa18be1b,
   0xfc563e4bc6d279209adbc0fe78cd5af4,
   0x1fdda8338807c731b11210592780ec5f,
   0x60517fa919b54a0d2de57a9f93c99cef,
   0xa0e03b4dae2af5b0c8ebbb3c83539961,
   0x172b047eba77d626e169146355210c7d]

/-- The entry of a table for a byte: its high nibble is the row, its low nibble the column (42_aes_block.md R162). -/
def tableEntry (rows : List (BitVec 128)) (a : Byte) : Byte :=
  (rows.getD (a.toNat / 16) 0).extractLsb' (8 * (15 - a.toNat % 16)) 8

/-- `SBOX[a]` (42_aes_block.md R162). -/
def sbox (a : Byte) : Byte := tableEntry sboxRows a

/-- `INVSBOX[a]` (42_aes_block.md R163). -/
def invSbox (a : Byte) : Byte := tableEntry invSboxRows a

/-- SubBytes (42_aes_block.md R164). -/
def subBytes (s : Buffer) : Buffer := blockOf fun i => sbox (byteAt s i)

/-- InvSubBytes (42_aes_block.md R164). -/
def invSubBytes (s : Buffer) : Buffer := blockOf fun i => invSbox (byteAt s i)

/-- ShiftRows: `out[r + 4c] = s[r + 4((c + r) mod 4)]` (42_aes_block.md R165). -/
def shiftRows (s : Buffer) : Buffer := blockOf fun i => byteAt s (i % 4 + 4 * ((i / 4 + i % 4) % 4))

/-- InvShiftRows: `out[r + 4c] = s[r + 4((c - r) mod 4)]` (42_aes_block.md R165). -/
def invShiftRows (s : Buffer) : Buffer := blockOf fun i => byteAt s (i % 4 + 4 * ((i / 4 + 4 - i % 4) % 4))

/-- Each column multiplied by the circulant matrix whose entry in row `r`, column `j` is `m[(r - j) mod 4]`
(42_aes_block.md R166). -/
def mixWith (m : Nat → Byte) (s : Buffer) : Buffer := blockOf fun i =>
  gmul (m ((i % 4 + 4) % 4)) (byteAt s (4 * (i / 4))) ^^^ gmul (m ((i % 4 + 3) % 4)) (byteAt s (4 * (i / 4) + 1)) ^^^
  gmul (m ((i % 4 + 2) % 4)) (byteAt s (4 * (i / 4) + 2)) ^^^ gmul (m ((i % 4 + 1) % 4)) (byteAt s (4 * (i / 4) + 3))

/-- The coefficient list (2, 1, 1, 3) of MixColumns (42_aes_block.md R166). -/
def mixCoeff (k : Nat) : Byte := [(2 : Byte), 1, 1, 3].getD k 0

/-- The coefficient list (14, 9, 13, 11) of InvMixColumns (42_aes_block.md R167). -/
def invMixCoeff (k : Nat) : Byte := [(14 : Byte), 9, 13, 11].getD k 0

/-- MixColumns (42_aes_block.md R166). -/
def mixColumns (s : Buffer) : Buffer := mixWith mixCoeff s

/-- InvMixColumns (42_aes_block.md R167). -/
def invMixColumns (s : Buffer) : Buffer := mixWith invMixCoeff s

/-- AddRoundKey: `out[i] = s[i] ^ rk[16r + i]` (42_aes_block.md R169). -/
def addRoundKey (s rk : Buffer) (r : Nat) : Buffer := blockOf fun i => byteAt s i ^^^ byteAt rk (16 * r + i)

/-- `rcon[j]`: `rcon[0] = 1`, `rcon[j+1] = xtime(rcon[j])` (42_aes_block.md R168). -/
def rcon (j : Nat) : Byte := xtimes j 1

/-- A word of the key schedule: four bytes, in key order (42_aes_block.md R171). -/
structure KeyWord where
  b0 : Byte
  b1 : Byte
  b2 : Byte
  b3 : Byte
  deriving DecidableEq, Repr

/-- The four bytes of a word (42_aes_block.md R171). -/
def keyWordBytes (w : KeyWord) : Buffer := [w.b0, w.b1, w.b2, w.b3]

/-- Word `i` of the raw key (42_aes_block.md R171). -/
def rawKeyWord (key : Buffer) (i : Nat) : KeyWord :=
  { b0 := byteAt key (4 * i), b1 := byteAt key (4 * i + 1), b2 := byteAt key (4 * i + 2), b3 := byteAt key (4 * i + 3) }

/-- Rotate left by one byte, towards index 0 (42_aes_block.md R171). -/
def rotWord (t : KeyWord) : KeyWord := { b0 := t.b1, b1 := t.b2, b2 := t.b3, b3 := t.b0 }

/-- Substitute each byte through the S-box (42_aes_block.md R171). -/
def subWord (t : KeyWord) : KeyWord := { b0 := sbox t.b0, b1 := sbox t.b1, b2 := sbox t.b2, b3 := sbox t.b3 }

/-- XOR of two words. -/
def xorWord (t u : KeyWord) : KeyWord :=
  { b0 := t.b0 ^^^ u.b0, b1 := t.b1 ^^^ u.b1, b2 := t.b2 ^^^ u.b2, b3 := t.b3 ^^^ u.b3 }

/-- The round constant in the high byte only, the word's first (42_aes_block.md R171). -/
def xorRcon (t : KeyWord) (c : Byte) : KeyWord := { t with b0 := t.b0 ^^^ c }

/-- What the schedule makes of the previous word before it XORs the word `Nk` back (42_aes_block.md R171). -/
def scheduleCore (nk i : Nat) (t : KeyWord) : KeyWord :=
  if i % nk = 0 then xorRcon (subWord (rotWord t)) (rcon (i / nk - 1))
  else if 6 < nk ∧ i % nk = 4 then subWord t
  else t

/-- The word 0 of a list that has none. -/
def zeroWord : KeyWord := { b0 := 0, b1 := 0, b2 := 0, b3 := 0 }

/-- The words so far with the next one, `w[i] = core(w[i-1]) ^ w[i-Nk]` where `i` is their number (42_aes_block.md R171). -/
def scheduleNext (nk : Nat) (ws : List KeyWord) : List KeyWord :=
  ws ++ [xorWord (scheduleCore nk ws.length (ws.getD (ws.length - 1) zeroWord)) (ws.getD (ws.length - nk) zeroWord)]

/-- The words so far with `n` more. -/
def scheduleMore (nk : Nat) : Nat → List KeyWord → List KeyWord
  | 0, ws => ws
  | n + 1, ws => scheduleMore nk n (scheduleNext nk ws)

/-- The number of rounds, `Nr = Nk + 6` (42_aes_block.md R171). -/
def roundCount (key : Buffer) : Nat := key.length / 4 + 6

/-- The `4 * (Nk + 7)` words of the schedule: the key's own `Nk`, then `3 * Nk + 28` more (42_aes_block.md R171). -/
def scheduleWords (key : Buffer) : List KeyWord :=
  scheduleMore (key.length / 4) (3 * (key.length / 4) + 28) ((List.range (key.length / 4)).map (rawKeyWord key))

/-- `KeyExpansion(key)`, `16 * (Nk + 7)` bytes (42_aes_block.md R171, 90_conflicts.md C1). -/
def keyExpansion (key : Buffer) : Buffer := (scheduleWords key).flatMap keyWordBytes

/-- Round `r` of the forward cipher; the final round has no MixColumns (42_aes_block.md R172). -/
def encRound (rk : Buffer) (nr r : Nat) (s : Buffer) : Buffer :=
  addRoundKey (if r = nr then shiftRows (subBytes s) else mixColumns (shiftRows (subBytes s))) rk r

/-- Rounds 1 to `r` of the forward cipher, in order. -/
def encRounds (rk : Buffer) (nr : Nat) : Nat → Buffer → Buffer
  | 0, s => s
  | r + 1, s => encRound rk nr (r + 1) (encRounds rk nr r s)

/-- Round `r` of the inverse cipher (42_aes_block.md R173). -/
def decRound (rk : Buffer) (nr r : Nat) (s : Buffer) : Buffer :=
  invSubBytes (invShiftRows (if r = nr then addRoundKey s rk r else invMixColumns (addRoundKey s rk r)))

/-- Rounds `r` down to 1 of the inverse cipher, in order. -/
def decRounds (rk : Buffer) (nr : Nat) : Nat → Buffer → Buffer
  | 0, s => s
  | r + 1, s => decRounds rk nr r (decRound rk nr (r + 1) s)

/-- `Cipher(b, key)` (42_aes_block.md R172). -/
def cipher (b key : Buffer) : Buffer :=
  encRounds (keyExpansion key) (roundCount key) (roundCount key) (addRoundKey b (keyExpansion key) 0)

/-- `InvCipher(b, key)` (42_aes_block.md R173). -/
def invCipher (b key : Buffer) : Buffer :=
  addRoundKey (decRounds (keyExpansion key) (roundCount key) (roundCount key) b) (keyExpansion key) 0

end Sys2Proof.Machine
end

