-- ==== Sys2Proof/Machine/Operands.lean ====
section
/-! DEFINITION. The operand forms of the commands: MP selectors, the input buffer, the key, the IV and the PKCS7 block
size, each with the check the spec puts before its use (30_encoding.md R91, R92). -/

namespace Sys2Proof.Machine

/-- The register a selector names; 5..15 name none (10_state.md R24). -/
def mpRegOf (r : Selector) : Option MpReg :=
  match r.toNat with
  | 0 => some .mpn
  | 1 => some .mpe
  | 2 => some .mpa
  | 3 => some .mpb
  | 4 => some .mpr
  | _ => none

/-- A selector operand: one that names no register makes the command illegal (30_encoding.md R92, R95). -/
def withMpReg (r : Selector) (s : State) (k : MpReg → Result) : Result :=
  match mpRegOf r with
  | none => fails .illegalCommand s
  | some reg => k reg

/-- `in`, the buffer `IBUF[0 .. ILEN-1]` (00_scope.md R13). -/
def State.input (s : State) : Buffer := s.mem.readBytes ibufBase s.ilen.toNat

/-- The input-buffer operand, with the check every command that reads it begins with (40_control_and_transfer.md R111). -/
def withInput (s : State) (k : Buffer → Result) : Result :=
  if s.params.bufMax < s.ilen.toNat then fails .bufferRange s else k s.input

/-- The key-length check (42_aes_block.md R170). -/
def State.keyLengthOk (s : State) : Bool :=
  s.klen.toNat % 8 = 0 && 16 ≤ s.klen.toNat && s.klen.toNat ≤ s.params.keyBytesMax

/-- The key bytes `KEY[0 .. KLEN-1]` (10_state.md R34). -/
def State.keyBytes (s : State) : Buffer := s.mem.readBytes keyBase s.klen.toNat

/-- The key operand with its check (42_aes_block.md R170). -/
def withKey (s : State) (k : Buffer → Result) : Result :=
  if s.keyLengthOk then k s.keyBytes else fails .invalidKeyLength s

/-- The sixteen bytes of the IV (10_state.md R35). -/
def State.ivBytes (s : State) : Buffer := s.mem.readBytes ivBase Config.block

/-- The block-size operand of the PKCS7 commands with its check (44_pkcs7.md R222). -/
def withBlockSize (s : State) (k : Nat → Result) : Result :=
  if s.padbs = 0 then fails .invalidBlockSize s else k s.padbs.toNat

end Sys2Proof.Machine
end

