-- ==== Sys2Proof/Machine/Aes.lean ====
section
/-! DEFINITION. The AES commands AES_KEYEXP, AES_ENC_BLK, AES_DEC_BLK (42_aes_block.md R174 to R176). -/

namespace Sys2Proof.Machine

/-- AES_KEYEXP (42_aes_block.md R174). -/
def execAesKeyexp (s : State) : Result := withKey s fun key => finish (s.putOut (keyExpansion key))

/-- A single-block command: the block check precedes the key check (42_aes_block.md R175, 60_exceptions.md R289). -/
def singleBlock (s : State) (f : Buffer → Buffer → Buffer) : Result :=
  withInput s fun b =>
    if s.ilen.toNat ≠ Config.block then fails .invalidLength s
    else withKey s fun key => finish (s.putOut (f b key))

/-- AES_ENC_BLK (42_aes_block.md R175). -/
def execAesEncBlk (s : State) : Result := singleBlock s cipher

/-- AES_DEC_BLK (42_aes_block.md R176). -/
def execAesDecBlk (s : State) : Result := singleBlock s invCipher

end Sys2Proof.Machine
end

