-- ==== Sys2Proof/Machine/BigIntCore.lean ====
section
/-! DEFINITION. Big integers and buffers, modular power, Montgomery product (41_bigint_rsa.md R130 to R134). -/

namespace Sys2Proof.Machine

/-- `import(b)`: the natural number a buffer denotes, first byte most significant (41_bigint_rsa.md R130). -/
def importBytes (b : Buffer) : Nat := b.foldl (fun acc x => acc * 256 + x.toNat) 0

/-- The bytes of `v` in front of `acc`, least significant byte last, stopping when `v` runs out. -/
def exportGo : Nat → Nat → Buffer → Buffer
  | 0, _, acc => acc
  | fuel + 1, v, acc => if v = 0 then acc else exportGo fuel (v / 256) (BitVec.ofNat 8 v :: acc)

/-- `export(v)`: the minimal big-endian buffer of `v`; the empty buffer for 0 (41_bigint_rsa.md R131).
The fuel is at least the number of bytes of `v`. -/
def exportBytes (v : Nat) : Buffer := exportGo (Nat.log2 v / 8 + 1) v []

/-- Square and multiply over the low `fuel` bits of the exponent: `acc * a^e mod n`. -/
def powModGo : Nat → Nat → Nat → Nat → Nat → Nat
  | 0, _, _, _, acc => acc
  | fuel + 1, a, e, n, acc =>
    powModGo fuel (a * a % n) (e / 2) n (if e % 2 = 1 then acc * a % n else acc)

/-- `modpow(a, e, n) = a^e mod n` for `n >= 1`, with `a^0 = 1` (41_bigint_rsa.md R133), computed so that it runs.
`Laws.powMod_eq` proves it equal to the power. -/
def powMod (a e n : Nat) : Nat := powModGo (Nat.log2 e + 1) (a % n) e n (1 % n)

/-- The inverse of `2^k` modulo an odd `n`: the inverse of 2 is `(n + 1) / 2`. -/
def invPowTwo (k n : Nat) : Nat := powMod ((n + 1) / 2) k n

/-- `montmul(a, b, n) = a * b * 2^(-k) mod n` for odd `n` (41_bigint_rsa.md R134). -/
def montMul (k a b n : Nat) : Nat := a * b * invPowTwo k n % n

end Sys2Proof.Machine
end

