-- ==== Sys2Proof/Machine/BigInt.lean ====
section
/-! DEFINITION. The big-integer commands MONTMUL, MODEXP, RSA_ENC, RSA_DEC (41_bigint_rsa.md R135 to R138). -/

namespace Sys2Proof.Machine

/-- MONTMUL (41_bigint_rsa.md R135). -/
def execMontmul (s : State) : Result :=
  if s.mpn % 2 = 0 then fails .modulusNotOdd s
  else if s.mpn ≤ s.mpa ∨ s.mpn ≤ s.mpb then fails .operandRange s
  else finish (s.setMp .mpr (montMul s.params.montK s.mpa s.mpb s.mpn))

/-- MODEXP (41_bigint_rsa.md R136). -/
def execModexp (s : State) : Result :=
  if s.mpn = 0 then fails .modulusZero s
  else finish (s.setMp .mpr (powMod s.mpa s.mpe s.mpn))

/-- Raw RSA over the input buffer: both commands compute it, and differ in the fault for an operand not below the
modulus (41_bigint_rsa.md R137, R138). -/
def rsaCore (tooLarge : ErrorKind) (s : State) : Result :=
  withInput s fun b =>
    if s.mpn ≤ importBytes b then fails tooLarge s
    else finish (s.putOut (exportBytes (powMod (importBytes b) s.mpe s.mpn)))

/-- RSA_ENC (41_bigint_rsa.md R137). -/
def execRsaEnc (s : State) : Result := rsaCore .plaintextTooLarge s

/-- RSA_DEC (41_bigint_rsa.md R138). -/
def execRsaDec (s : State) : Result := rsaCore .ciphertextTooLarge s

end Sys2Proof.Machine
end

