-- ==== Sys2Proof/Machine/CbcCore.lean ====
section
/-! DEFINITION. CBC over whole sixteen-byte blocks (43_cbc.md R200, R201). -/

namespace Sys2Proof.Machine

/-- The bytewise XOR of two blocks (43_cbc.md R200). -/
def xorBlock (a b : Buffer) : Buffer := blockOf fun i => byteAt a i ^^^ byteAt b i

/-- `n` blocks encrypted in order from the chaining value `ch`; each ciphertext block becomes the next one
(43_cbc.md R200). -/
def cbcEncryptGo (key : Buffer) : Nat → Buffer → Buffer → Buffer
  | 0, _, _ => []
  | n + 1, ch, p =>
    let c := cipher (xorBlock p ch) key
    c ++ cbcEncryptGo key n c (p.drop 16)

/-- `cbc_encrypt(p, key, iv)` (43_cbc.md R200). -/
def cbcEncrypt (p key iv : Buffer) : Buffer := cbcEncryptGo key (p.length / 16) iv p

/-- `n` blocks decrypted in order; the chaining value is always the received ciphertext (43_cbc.md R201). -/
def cbcDecryptGo (key : Buffer) : Nat → Buffer → Buffer → Buffer
  | 0, _, _ => []
  | n + 1, ch, c => xorBlock (invCipher (c.take 16) key) ch ++ cbcDecryptGo key n (c.take 16) (c.drop 16)

/-- `cbc_decrypt(c, key, iv)` (43_cbc.md R201). -/
def cbcDecrypt (c key iv : Buffer) : Buffer := cbcDecryptGo key (c.length / 16) iv c

end Sys2Proof.Machine
end

