-- ==== Sys2Proof/Machine/Cbc.lean ====
section
/-! DEFINITION. The CBC commands CBC_ENC, CBC_DEC (43_cbc.md R202, R203). -/

namespace Sys2Proof.Machine

/-- A CBC command: the length check precedes the key check (43_cbc.md R202, 60_exceptions.md R289). -/
def cbcCommand (s : State) (f : Buffer → Buffer → Buffer → Buffer) : Result :=
  withInput s fun b =>
    if s.ilen.toNat = 0 ∨ s.ilen.toNat % Config.block ≠ 0 then fails .invalidLength s
    else withKey s fun key => finish (s.putOut (f b key s.ivBytes))

/-- CBC_ENC (43_cbc.md R202). -/
def execCbcEnc (s : State) : Result := cbcCommand s cbcEncrypt

/-- CBC_DEC (43_cbc.md R203). -/
def execCbcDec (s : State) : Result := cbcCommand s cbcDecrypt

end Sys2Proof.Machine
end

