-- ==== Sys2Proof/Machine/Control.lean ====
section
/-! DEFINITION. The control commands NOP, CLEAR, XFER (40_control_and_transfer.md R112 to R114). A meaning is the engine
step of the command: it reads the state at acceptance, and ends in completion or in one fault (R110). -/

namespace Sys2Proof.Machine

/-- NOP (40_control_and_transfer.md R112). -/
def execNop (s : State) : Result := finish s

/-- CLEAR (40_control_and_transfer.md R113). -/
def execClear (s : State) : Result := finish s.cleared

/-- XFER (40_control_and_transfer.md R114). -/
def execXfer (s : State) : Result := finish s.copyOutToIn

end Sys2Proof.Machine
end

