-- ==== Sys2Proof/Machine/HexCore.lean ====
section
/-! DEFINITION. The lowercase hexadecimal codec (45_hex_codec.md R235 to R237). -/

namespace Sys2Proof.Machine

/-- The character of a nibble (45_hex_codec.md R235). -/
def hexChar (v : Nat) : Byte := if v ≤ 9 then BitVec.ofNat 8 (0x30 + v) else BitVec.ofNat 8 (0x61 + (v - 10))

/-- The nibble of a character; none where it is no hex character, uppercase letters among them (45_hex_codec.md R235). -/
def hexVal (c : Byte) : Option Nat :=
  if 0x30 ≤ c.toNat ∧ c.toNat ≤ 0x39 then some (c.toNat - 0x30)
  else if 0x61 ≤ c.toNat ∧ c.toNat ≤ 0x66 then some (c.toNat - 0x61 + 10)
  else none

/-- `hexenc(b)`: two characters a byte, most significant nibble first (45_hex_codec.md R236). -/
def hexEncode : Buffer → Buffer
  | [] => []
  | b :: bs => hexChar (b.toNat / 16) :: hexChar (b.toNat % 16) :: hexEncode bs

/-- `hexdec(t)`: one byte for two characters; an odd last character is not looked at; none where a consumed character
is no hex character (45_hex_codec.md R237, R239). -/
def hexDecode : Buffer → Option Buffer
  | [] => some []
  | [_] => some []
  | h :: l :: t =>
    match hexVal h, hexVal l with
    | some x, some y => (hexDecode t).map fun bs => BitVec.ofNat 8 (x * 16 + y) :: bs
    | _, _ => none

end Sys2Proof.Machine
end

