-- ==== Sys2Proof/Machine/Hex.lean ====
section
/-! DEFINITION. The hexadecimal commands HEX_ENC, HEX_DEC (45_hex_codec.md R238, R239). -/

namespace Sys2Proof.Machine

/-- HEX_ENC (45_hex_codec.md R238). -/
def execHexEnc (s : State) : Result :=
  withInput s fun b =>
    if s.params.bufMax < 2 * s.ilen.toNat then fails .outputOverflow s else finish (s.putOut (hexEncode b))

/-- HEX_DEC: the whole input is validated before the first output byte is written (45_hex_codec.md R239, 60_exceptions.md R285). -/
def execHexDec (s : State) : Result :=
  withInput s fun b =>
    match hexDecode b with
    | none => fails .badHexDigit s
    | some out => finish (s.putOut out)

end Sys2Proof.Machine
end

