-- ==== Sys2Proof/Machine/MpTransfer.lean ====
section
/-! DEFINITION. The multiprecision transfer commands MP_LOAD, MP_STORE, MP_MOV (40_control_and_transfer.md R116 to R118). -/

namespace Sys2Proof.Machine

/-- MP_LOAD rd (40_control_and_transfer.md R116). -/
def execMpLoad (rd : Selector) (s : State) : Result :=
  withMpReg rd s fun r => withInput s fun b =>
    if 2 ^ s.params.mpBits ≤ importBytes b then fails .operandTooLarge s
    else finish (s.setMp r (importBytes b))

/-- MP_STORE rs (40_control_and_transfer.md R117). -/
def execMpStore (rs : Selector) (s : State) : Result :=
  withMpReg rs s fun r => finish (s.putOut (exportBytes (s.mp r)))

/-- MP_MOV rd, rs (40_control_and_transfer.md R118). -/
def execMpMov (rd rs : Selector) (s : State) : Result :=
  withMpReg rd s fun d => withMpReg rs s fun r => finish (s.setMp d (s.mp r))

end Sys2Proof.Machine
end

