-- ==== Sys2Proof/Machine/Pkcs7Core.lean ====
section
/-! DEFINITION. PKCS7 padding: pad, checkInvalid, unpad (44_pkcs7.md R215 to R217). -/

namespace Sys2Proof.Machine

/-- The number of pad bytes: `bs - (len mod bs)`, between 1 and `bs` (44_pkcs7.md R215). -/
def padCount (len bs : Nat) : Nat := bs - len % bs

/-- `pad(x, bs)`: append `r` bytes each with value `r` (44_pkcs7.md R215). -/
def padBytes (x : Buffer) (bs : Nat) : Buffer :=
  x ++ List.replicate (padCount x.length bs) (BitVec.ofNat 8 (padCount x.length bs))

/-- The last byte of a buffer, `padByte` (44_pkcs7.md R216). -/
def lastByte (x : Buffer) : Byte := x.getD (x.length - 1) 0

/-- `checkInvalid(x, bs)`; true means invalid. It does not ask that the pad byte be at most `bs` (44_pkcs7.md R216, U6). -/
def checkInvalid (x : Buffer) (bs : Nat) : Bool :=
  if x.length = 0 then true
  else if x.length % bs ≠ 0 then true
  else if lastByte x = 0 ∨ x.length < (lastByte x).toNat then true
  else (List.range (lastByte x).toNat).any fun i => x.getD (x.length - 1 - i) 0 != lastByte x

/-- What `unpad` leaves of a valid buffer: the trailing `padByte` bytes stripped (44_pkcs7.md R217). -/
def stripPad (x : Buffer) : Buffer := x.take (x.length - (lastByte x).toNat)

/-- `unpad(x, bs)`; none where it fails with InvalidPadding (44_pkcs7.md R217). -/
def unpadBytes (x : Buffer) (bs : Nat) : Option Buffer :=
  if checkInvalid x bs then none else some (stripPad x)

end Sys2Proof.Machine
end

