-- ==== Sys2Proof/Machine/Pkcs7.lean ====
section
/-! DEFINITION. The PKCS7 commands PKCS7_PAD, PKCS7_CHECK, PKCS7_UNPAD (44_pkcs7.md R218 to R220). -/

namespace Sys2Proof.Machine

/-- PKCS7_PAD (44_pkcs7.md R218). -/
def execPkcs7Pad (s : State) : Result :=
  withInput s fun b => withBlockSize s fun bs =>
    if s.params.bufMax < s.ilen.toNat + padCount s.ilen.toNat bs then fails .outputOverflow s
    else finish (s.putOut (padBytes b bs))

/-- PKCS7_CHECK: an invalid buffer is no fault of this command (44_pkcs7.md R219). -/
def execPkcs7Check (s : State) : Result :=
  withInput s fun b => withBlockSize s fun bs => finish (s.setPinv (checkInvalid b bs))

/-- PKCS7_UNPAD: PINV is not written (44_pkcs7.md R220). -/
def execPkcs7Unpad (s : State) : Result :=
  withInput s fun b => withBlockSize s fun bs =>
    match unpadBytes b bs with
    | none => fails .invalidPadding s
    | some out => finish (s.putOut out)

end Sys2Proof.Machine
end

