-- ==== Sys2Proof/Machine/Dispatch.lean ====
section
/-! DEFINITION. The engine step of each command, one arm per constructor of Instr. -/

namespace Sys2Proof.Machine

def exec (i : Instr) (s : State) : Host.Outcome State Fault Refusal :=
  match i with
  | .nop => Sys2Proof.Machine.execNop s
  | .clear => Sys2Proof.Machine.execClear s
  | .xfer => Sys2Proof.Machine.execXfer s
  | .mpLoad rd => Sys2Proof.Machine.execMpLoad rd s
  | .mpStore rs => Sys2Proof.Machine.execMpStore rs s
  | .mpMov rd rs => Sys2Proof.Machine.execMpMov rd rs s
  | .montmul => Sys2Proof.Machine.execMontmul s
  | .modexp => Sys2Proof.Machine.execModexp s
  | .rsaEnc => Sys2Proof.Machine.execRsaEnc s
  | .rsaDec => Sys2Proof.Machine.execRsaDec s
  | .aesKeyexp => Sys2Proof.Machine.execAesKeyexp s
  | .aesEncBlk => Sys2Proof.Machine.execAesEncBlk s
  | .aesDecBlk => Sys2Proof.Machine.execAesDecBlk s
  | .cbcEnc => Sys2Proof.Machine.execCbcEnc s
  | .cbcDec => Sys2Proof.Machine.execCbcDec s
  | .pkcs7Pad => Sys2Proof.Machine.execPkcs7Pad s
  | .pkcs7Check => Sys2Proof.Machine.execPkcs7Check s
  | .pkcs7Unpad => Sys2Proof.Machine.execPkcs7Unpad s
  | .hexEnc => Sys2Proof.Machine.execHexEnc s
  | .hexDec => Sys2Proof.Machine.execHexDec s

end Sys2Proof.Machine
end

