-- ==== Sys2Proof/Machine/Engine.lean ====
section
/-! DEFINITION. The engine agent: the engine step of the command in flight, and the passing of its latency
(40_control_and_transfer.md R110, 70_reset_and_hazards.md R333). -/

namespace Sys2Proof.Machine

/-- The engine step of an accepted word: an illegal one faults IllegalCommand and executes nothing, a legal one runs its
command on the state at acceptance (40_control_and_transfer.md R110, 30_encoding.md R95). -/
def engineStep (w : Word) (s : State) : Result :=
  match decode w with
  | .error _ => fails .illegalCommand s
  | .ok i => exec i s

/-- One step of the whole machine. A command whose latency is over takes its engine step. Otherwise the environment has
its turn, and a command still waiting is one step nearer to its engine step. -/
def machineStep (s : State) : Result :=
  match s.inFlight with
  | none => hostTurn s
  | some f =>
    if f.wait = 0 then engineStep f.word s
    else hostTurn { s with inFlight := some { f with wait := f.wait - 1 } }

/-- `s` with the command word `w` accepted and its engine step due at once. -/
def placeCommand (s : State) (w : Word) : State := s.accept w 0

end Sys2Proof.Machine
end

