-- ==== Sys2Proof/Machine/Step.lean ====
section
/-! DEFINITION. One step of the machine, and the placing of a command so that the very next step runs it. -/

namespace Sys2Proof.Machine

/-- One step: the engine step that is due, or the environment's next operation. -/
def step (s : State) : Host.Outcome State Fault Refusal := machineStep s

/-- `s` with the instruction whose bits are `w` accepted by the engine and its engine step due: the engine fetches no
instruction (10_state.md R44), so this stands for the CMD write that starts it (log entry 4). -/
def State.withFetchWord (s : State) (nbits w : Nat) : State := placeCommand s (BitVec.ofNat 32 (w % 2 ^ nbits))

end Sys2Proof.Machine
end

