-- ==== Sys2Proof/Machine/HostProgram.lean ====
section
/-! DEFINITION. Host programs as lists of bus operations (10_state.md R44): the notation and pseudo-operations of
30_encoding.md R98 to R100, and the deterministic parts of the host software of 46_host_sequences.md. None of it is
engine behaviour (46_host_sequences.md R250). -/

namespace Sys2Proof.Machine

/-- The word of lanes `b[4j] .. b[4j+3]`, absent bytes 0 (30_encoding.md R100). -/
def laneWord (b : Buffer) (j : Nat) : Word :=
  b.getD (4 * j + 3) 0 ++ b.getD (4 * j + 2) 0 ++ b.getD (4 * j + 1) 0 ++ b.getD (4 * j) 0

/-- Writes of the words of a buffer from an offset on (30_encoding.md R100). An offset past the 16-bit window wraps modulo
`2**16`, which the spec leaves open: DESIGN CHOICE, unsafe (log entry 18). -/
def writeBuffer (base : Nat) (b : Buffer) : List HostOp :=
  (List.range ((b.length + 3) / 4)).map fun j => .write (BitVec.ofNat 16 (base + 4 * j)) (laneWord b j)

/-- The offset of ERRCODE (20_memory.md R62). -/
def errcodeAddr : Addr := 0x0018

/-- The offset of ILEN (20_memory.md R62). -/
def ilenAddr : Addr := 0x001C

/-- The offset of KLEN (20_memory.md R62). -/
def klenAddr : Addr := 0x0024

/-- The offset of PADBS (20_memory.md R62). -/
def padbsAddr : Addr := 0x0028

/-- `LDBUF b` (30_encoding.md R100). What more than 0xF000 bytes do is a DESIGN CHOICE, unsafe (log entry 18). -/
def ldBuf (b : Buffer) : List HostOp := writeBuffer ibufBase b ++ [.write ilenAddr (BitVec.ofNat 32 b.length)]

/-- What `LDKEY` requires of a key: a length that is a multiple of 4 and at most KEYBYTES_MAX (30_encoding.md R100). -/
abbrev KeyLoadable (p : Params) (k : Buffer) : Prop := k.length % 4 = 0 ∧ k.length ≤ p.keyBytesMax

/-- `LDKEY k`, no operation at all for a key it does not take (30_encoding.md R100). -/
def ldKey (p : Params) (k : Buffer) : Option (List HostOp) :=
  if KeyLoadable p k then some (writeBuffer keyBase k ++ [.write klenAddr (BitVec.ofNat 32 k.length)]) else none

/-- `LDIV v`, no operation at all unless `v` has sixteen bytes (30_encoding.md R100). -/
def ldIv (v : Buffer) : Option (List HostOp) := if v.length = Config.block then some (writeBuffer ivBase v) else none

/-- `RDBUF` (30_encoding.md R100). -/
def rdBuf : List HostOp := [.rdbuf]

/-- The result of `RDBUF` from the words its reads returned, oldest first: the first `n` bytes of the words of OBUF,
lane 0 first, `n` being the word of OLEN (30_encoding.md R100, 20_memory.md R67). -/
def rdBufResult : List Word → Buffer
  | [] => []
  | n :: ws => (ws.flatMap lanes).take n.toNat

/-- `<mnemonic> ...`: the CMD write, then WAIT (30_encoding.md R99). -/
def runCommand (i : Instr) : List HostOp := [.write (BitVec.ofNat 16 cmdAddr) (encode i), .wait]

/-- Several commands, one after another (30_encoding.md R99). -/
def runCommands (is : List Instr) : List HostOp := is.flatMap runCommand

/-! ### Key material and the handshake (46_host_sequences.md sections 1 and 2)

A frame's text is the result of the RDBUF that ends its sequence; sending it is the socket's business (R258). -/

/-- The selector of MPN, where a modulus goes (10_state.md R24, 46_host_sequences.md R254). -/
def mpnSelector : Selector := 0

/-- The selector of MPE, where an exponent goes (10_state.md R24, 46_host_sequences.md R254). -/
def mpeSelector : Selector := 1

/-- Loading a modulus or exponent: LDBUF of its export, then MP_LOAD (46_host_sequences.md R254). -/
def loadMp (rd : Selector) (v : Nat) : List HostOp := ldBuf (exportBytes v) ++ runCommand (.mpLoad rd)

/-- A key in the engine: the modulus in MPN, the public or private exponent in MPE (46_host_sequences.md R254). -/
def loadRsaKey (n exponent : Nat) : List HostOp := loadMp mpnSelector n ++ loadMp mpeSelector exponent

/-- A register's number as a frame's text: MP_STORE, XFER, HEX_ENC, read OBUF (46_host_sequences.md R256). -/
def sendMp (rs : Selector) : List HostOp := runCommands [.mpStore rs, .xfer, .hexEnc] ++ rdBuf

/-- The same by the host's own `export`, which replaces MP_STORE: the bytes reach IBUF by LDBUF, so there is nothing for
XFER to move (46_host_sequences.md R256, log entry 17). -/
def sendExported (v : Nat) : List HostOp := ldBuf (exportBytes v) ++ runCommand .hexEnc ++ rdBuf

/-- The client's step 2: the two frames of its public key, modulus first, exponent second (46_host_sequences.md R256,
R258). -/
def clientSendPublicKey (n e : Nat) : List HostOp := loadRsaKey n e ++ sendMp mpnSelector ++ sendMp mpeSelector

/-- The engine's part of the client's step 3, with the key already in MPN and MPE: LDBUF of the frame's text, HEX_DEC,
XFER, RSA_DEC, read OBUF (46_host_sequences.md R256). -/
def receiveKeyMaterial (text : Buffer) : List HostOp := ldBuf text ++ runCommands [.hexDec, .xfer, .rsaDec] ++ rdBuf

/-- The client's step 3, MPN = `n` and MPE = `d`. The key is loaded before the frame, since loading it takes IBUF
(46_host_sequences.md R254, R256). -/
def clientReceiveKeyMaterial (n d : Nat) (text : Buffer) : List HostOp := loadRsaKey n d ++ receiveKeyMaterial text

/-- A big integer received as a frame: LDBUF, HEX_DEC, XFER, MP_LOAD (46_host_sequences.md R257). -/
def receiveMp (rd : Selector) (text : Buffer) : List HostOp := ldBuf text ++ runCommands [.hexDec, .xfer, .mpLoad rd]

/-- The server's two received frames: the first into MPN, the second into MPE (46_host_sequences.md R257). -/
def serverReceivePublicKey (first second : Buffer) : List HostOp := receiveMp mpnSelector first ++ receiveMp mpeSelector second

/-- The server's key frame: LDBUF of key and IV, RSA_ENC, XFER, HEX_ENC, read OBUF (46_host_sequences.md R257). -/
def sendKeyMaterial (keyAndIv : Buffer) : List HostOp := ldBuf keyAndIv ++ runCommands [.rsaEnc, .xfer, .hexEnc] ++ rdBuf

/-- The server's side of the handshake: the client's frames in, key and IV out, key first (46_host_sequences.md R255,
R257). The server has drawn `key`, 32 bytes by default, and `iv`. -/
def serverHandshake (first second key iv : Buffer) : List HostOp :=
  serverReceivePublicKey first second ++ sendKeyMaterial (key ++ iv)

/-! ### The session (46_host_sequences.md section 3) -/

/-- After the handshake: KEY, KLEN and IV loaded once, PADBS = 16 (46_host_sequences.md R259). -/
def openSession (p : Params) (key iv : Buffer) : Option (List HostOp) :=
  match ldKey p key, ldIv iv with
  | some loadKey, some loadIv => some (loadKey ++ loadIv ++ [.write padbsAddr 16])
  | _, _ => none

/-- The sender of a message: pad, encrypt, hex-encode, read the frame's text (46_host_sequences.md R259). -/
def sendMessage (msg : Buffer) : List HostOp :=
  ldBuf msg ++ runCommands [.pkcs7Pad, .xfer, .cbcEnc, .xfer, .hexEnc] ++ rdBuf

/-- The receiver of a message: hex-decode, decrypt, unpad, read the plaintext (46_host_sequences.md R260). -/
def receiveMessage (text : Buffer) : List HostOp :=
  ldBuf text ++ runCommands [.hexDec, .xfer, .cbcDec, .xfer, .pkcs7Unpad] ++ rdBuf

/-- The end of a session (46_host_sequences.md R261). -/
def endSession : List HostOp := runCommand .clear

/-- What the host does on a fault: read ERRCODE, and CLEAR (46_host_sequences.md R263). -/
def abortSession : List HostOp := .read errcodeAddr :: endSession

/-! ### Pure functions of the host (46_host_sequences.md sections 1 and 2) -/

/-- The host's left-padding of recovered key material to its expected length (46_host_sequences.md R265). -/
def leftPad (n : Nat) (b : Buffer) : Buffer := List.replicate (n - b.length) 0 ++ b

/-- Key first, IV second (46_host_sequences.md R255). -/
def splitKeyMaterial (keyLen : Nat) (b : Buffer) : Buffer × Buffer := (b.take keyLen, b.drop keyLen)

/-- The client's session from the recovered bytes of the key frame: left-padded to `keyBytes + 16`, split, loaded
(46_host_sequences.md R255, R259, R265). -/
def openRecoveredSession (p : Params) (keyLen : Nat) (recovered : Buffer) : Option (List HostOp) :=
  let material := splitKeyMaterial keyLen (leftPad (keyLen + Config.block) recovered)
  openSession p material.1 material.2

/-- Extended Euclid on `(r0, t0)` and `(r1, t1)` with `r = t * a mod m` kept throughout; the last pair's `(gcd, t)`. -/
def euclidGo (m : Nat) : Nat → Nat → Nat → Nat → Nat → Nat × Nat
  | 0, r0, t0, _, _ => (r0, t0)
  | fuel + 1, r0, t0, r1, t1 =>
    if r1 = 0 then (r0, t0)
    else euclidGo m fuel r1 t1 (r0 % r1) ((t0 + m * (r0 / r1) - r0 / r1 * t1) % m)

/-- `modInverse(a, m)`: the inverse in `0 .. m-1`, or NoInverse (46_host_sequences.md R253). The spec gives
no answer for `m = 0`: 1 for `a = 1` and NoInverse otherwise is a DESIGN CHOICE, unsafe (log entry 19). -/
def modInverse (a m : Nat) : Except ErrorKind Nat :=
  let g := euclidGo m (2 * Nat.log2 m + 3) m 0 (a % m) (1 % m)
  if g.1 = 1 then .ok (g.2 % m) else .error .noInverse

/-- The public exponent of key generation (00_scope.md R6). -/
def publicExponent : Nat := 65537

/-- `generate` for two given primes: the modulus and the private exponent, or KeyGenerationError
(46_host_sequences.md R252). How the primes are drawn is outside the engine (R251, 00_scope.md R4). -/
def rsaKeyOf (p q : Nat) : Except ErrorKind (Nat × Nat) :=
  match modInverse publicExponent ((p - 1) * (q - 1)) with
  | .ok d => .ok (p * q, d)
  | .error _ => .error .keyGenerationError

end Sys2Proof.Machine
end

