-- ==== Sys2Proof/Safety.lean ====
section
/-! DEFINITION. The terms the claims use: what a fault and a completion leave, the frames of the commands, reset values,
and the invariant of the whole machine. -/

namespace Sys2Proof.Machine

/-! ### The outcome of an engine step -/

/-- The engine step of `i` completes without a fault, giving `t`: BUSY 0, DONE 1 (40_control_and_transfer.md R110). -/
abbrev Completes (i : Instr) (s t : State) : Prop := exec i s = .next t ∧ t.inFlight = none ∧ t.done = true

/-- The state a fault of code `c` leaves: BUSY 0, DONE 0, ERR 1, ERRCODE `c`, nothing else changed (60_exceptions.md R284). -/
def faulted (s : State) (c : Byte) : State := { s with inFlight := none, done := false, err := true, errCode := c }

/-- The engine step of `i` faults with code `c` and writes nothing else. -/
abbrev FaultsWith (i : Instr) (s : State) (c : Byte) : Prop := exec i s = .next (faulted s c)

/-! ### Frames -/

/-- The parameters and the environment's operations are as before. -/
structure SameEnvironment (s t : State) : Prop where
  params : t.params = s.params
  host : t.host = s.host
  latency : t.latency = s.latency
  observed : t.observed = s.observed

/-- ERR, ERRCODE, PINV, ILEN, KLEN, PADBS are as before. -/
structure SameControl (s t : State) : Prop where
  err : t.err = s.err
  errCode : t.errCode = s.errCode
  pinv : t.pinv = s.pinv
  ilen : t.ilen = s.ilen
  klen : t.klen = s.klen
  padbs : t.padbs = s.padbs

/-- What a command that produces an output buffer leaves unchanged: everything but BUSY, DONE, OLEN and the bytes
`OBUF[0 .. OLEN-1]` (10_state.md R37). -/
structure OutputFrame (s t : State) : Prop where
  environment : SameEnvironment s t
  control : SameControl s t
  registers : ∀ r, t.mp r = s.mp r
  memory : ∀ a, (a < obufBase ∨ obufBase + t.olen.toNat ≤ a) → t.mem.read a = s.mem.read a

/-- What a command that writes the one multiprecision register `r` leaves unchanged: everything but BUSY, DONE and `r`
(10_state.md R26). -/
structure RegisterFrame (s t : State) (r : MpReg) : Prop where
  environment : SameEnvironment s t
  control : SameControl s t
  olen : t.olen = s.olen
  registers : ∀ q, q ≠ r → t.mp q = s.mp q
  memory : ∀ a, t.mem.read a = s.mem.read a

/-! ### Reset -/

/-- Every storage but the STATUS flags BUSY and DONE at the value of 10_state.md R45. -/
structure StoragesAtReset (t : State) : Prop where
  err : t.err = false
  pinv : t.pinv = false
  errCode : t.errCode = 0
  ilen : t.ilen = 0
  olen : t.olen = 0
  klen : t.klen = 0
  padbs : t.padbs = 16
  registers : ∀ r, t.mp r = 0
  iv : ∀ k, t.iv k = 0
  key : ∀ k, t.key k = 0
  ibuf : ∀ k, t.ibuf k = 0
  obuf : ∀ k, t.obuf k = 0

/-! ### Numbers in buffers -/

/-- The number the bytes `f 0 .. f (n-1)` denote, the first one most significant (41_bigint_rsa.md R130). -/
def bigEndian (f : Nat → Byte) (n : Nat) : Nat :=
  ((List.range n).map fun k => (f k).toNat * 256 ^ (n - 1 - k)).sum

/-- The output buffer is the minimal big-endian encoding of `v`: it denotes `v` and its first byte, if there is one, is
not 0 (41_bigint_rsa.md R131). -/
def MinimalOutput (t : State) (v : Nat) : Prop :=
  bigEndian t.obuf t.olen.toNat = v ∧ (t.olen ≠ 0 → t.obuf 0 ≠ 0)

/-! ### The invariant -/

/-- The error kinds the engine raises; the other two are host software's (60_exceptions.md R280). -/
def engineKinds : List ErrorKind :=
  [.invalidPadding, .invalidKeyLength, .plaintextTooLarge, .ciphertextTooLarge, .invalidLength, .illegalCommand] ++
  [.bufferRange, .outputOverflow, .operandTooLarge, .modulusZero, .modulusNotOdd, .operandRange, .badHexDigit] ++
  [.invalidBlockSize]

/-- An offset inside one of the four byte arrays (20_memory.md R62). -/
def arrayOffset (p : Params) (a : Nat) : Prop :=
  (0x0060 ≤ a ∧ a < 0x0070) ∨ (0x0080 ≤ a ∧ a < 0x0080 + p.keyBytesMax) ∨
  (0x1000 ≤ a ∧ a < 0x1000 + p.bufMax) ∨ (0x2000 ≤ a ∧ a < 0x2000 + p.bufMax)

/-- What holds of the machine after reset and after every step: valid parameters, a canonical memory that lists bytes of
the four arrays only, registers within their width, OLEN within the buffer, and the flag combinations of
10_state.md R23 with ERRCODE as R28 says. -/
structure State.Inv (s : State) : Prop where
  /-- 00_scope.md R7 -/
  params : s.params.Valid
  memCanonical : s.mem.wf
  memInArrays : ∀ c ∈ s.mem, arrayOffset s.params c.1
  /-- 10_state.md R24 -/
  registers : ∀ r, s.mp r < 2 ^ s.params.mpBits
  /-- 10_state.md R30 -/
  olen : s.olen.toNat ≤ s.params.bufMax
  /-- 10_state.md R23 -/
  busyNotDone : s.busy = true → s.done = false
  /-- 10_state.md R23 -/
  errNotDone : s.err = true → s.done = false
  /-- 10_state.md R23: (1,0,1) only while CLEAR runs -/
  busyErr : ∀ f, s.inFlight = some f → s.err = true → f.word = 0x00000001
  /-- 10_state.md R28 -/
  codeZero : s.err = false → s.errCode = 0
  /-- 10_state.md R28 -/
  codeKind : s.err = true → ∃ e ∈ engineKinds, s.errCode = e.code

end Sys2Proof.Machine
end

