-- ==== Sys2Proof/Certificates/Slice0/Obligations.lean ====
section
/-! DEFINITION. The statements for the provers, each from the numbered rules of spec/. -/

namespace Sys2Proof.Machine

/-! ### Terms of the statements -/

/-- The MP selector of a register (10_state.md R24). -/
def selectorOf : MpReg → Selector
  | .mpn => 0
  | .mpe => 1
  | .mpa => 2
  | .mpb => 3
  | .mpr => 4

/-- A row of the opcode map: `match`, `mask`, the command, and which selector fields its format uses (30_encoding.md R94). -/
structure OpcodeRow where
  matchWord : Word
  mask : Word
  command : Selector → Selector → Instr
  usesRd : Bool := false
  usesRs : Bool := false

/-- The twenty rows (30_encoding.md R94). -/
def opcodeRows : List OpcodeRow :=
  [ { matchWord := 0x00000000, mask := 0xFFFFFFFF, command := fun _ _ => .nop },
    { matchWord := 0x00000001, mask := 0xFFFFFFFF, command := fun _ _ => .clear },
    { matchWord := 0x00000002, mask := 0xFFFFFFFF, command := fun _ _ => .xfer },
    { matchWord := 0x00000010, mask := 0xFFFFF0FF, command := fun rd _ => .mpLoad rd, usesRd := true },
    { matchWord := 0x00000011, mask := 0xFFFF0FFF, command := fun _ rs => .mpStore rs, usesRs := true },
    { matchWord := 0x00000012, mask := 0xFFFF00FF, command := fun rd rs => .mpMov rd rs, usesRd := true, usesRs := true } ] ++
  [ { matchWord := 0x00000018, mask := 0xFFFFFFFF, command := fun _ _ => .montmul },
    { matchWord := 0x00000019, mask := 0xFFFFFFFF, command := fun _ _ => .modexp },
    { matchWord := 0x0000001A, mask := 0xFFFFFFFF, command := fun _ _ => .rsaEnc },
    { matchWord := 0x0000001B, mask := 0xFFFFFFFF, command := fun _ _ => .rsaDec },
    { matchWord := 0x00000020, mask := 0xFFFFFFFF, command := fun _ _ => .aesKeyexp },
    { matchWord := 0x00000021, mask := 0xFFFFFFFF, command := fun _ _ => .aesEncBlk },
    { matchWord := 0x00000022, mask := 0xFFFFFFFF, command := fun _ _ => .aesDecBlk } ] ++
  [ { matchWord := 0x00000028, mask := 0xFFFFFFFF, command := fun _ _ => .cbcEnc },
    { matchWord := 0x00000029, mask := 0xFFFFFFFF, command := fun _ _ => .cbcDec },
    { matchWord := 0x00000030, mask := 0xFFFFFFFF, command := fun _ _ => .pkcs7Pad },
    { matchWord := 0x00000031, mask := 0xFFFFFFFF, command := fun _ _ => .pkcs7Check },
    { matchWord := 0x00000032, mask := 0xFFFFFFFF, command := fun _ _ => .pkcs7Unpad },
    { matchWord := 0x00000038, mask := 0xFFFFFFFF, command := fun _ _ => .hexEnc },
    { matchWord := 0x00000039, mask := 0xFFFFFFFF, command := fun _ _ => .hexDec } ]

/-- The twenty opcode values (30_encoding.md R94). -/
def opcodeValues : List Nat :=
  [0x00, 0x01, 0x02, 0x10, 0x11, 0x12, 0x18, 0x19, 0x1A, 0x1B] ++
  [0x20, 0x21, 0x22, 0x28, 0x29, 0x30, 0x31, 0x32, 0x38, 0x39]

/-- A word is illegal (30_encoding.md R95): `op`, bits 7:0, is none of the twenty; `zero`, bits 31:16, is not 0; a
selector field that must be 0 is not; or one that is used is 5..15. `rd`, bits 11:8, is used by the opcodes 0x10 and
0x12, `rs`, bits 15:12, by 0x11 and 0x12 (R90). -/
def IllegalWord (w : Word) : Prop :=
  w.toNat % 256 ∉ opcodeValues ∨ w.toNat / 65536 ≠ 0 ∨
  (if w.toNat % 256 = 0x10 ∨ w.toNat % 256 = 0x12 then 5 ≤ w.toNat / 256 % 16 else w.toNat / 256 % 16 ≠ 0) ∨
  (if w.toNat % 256 = 0x11 ∨ w.toNat % 256 = 0x12 then 5 ≤ w.toNat / 4096 % 16 else w.toNat / 4096 % 16 ≠ 0)

/-- An operation a program may use while a command waits: a read or write at an aligned offset, WAIT, or RDBUF. -/
def HostOp.plain : HostOp → Bool
  | .read a => a.toNat % 4 = 0
  | .write a _ => a.toNat % 4 = 0
  | .wait => true
  | .rdbuf => true
  | .reset => false
  | .odd _ _ => false

/-- The engine's architectural state of 10_state.md R20, the STATUS flag BUSY apart, is equal in two states. -/
structure SameEngine (s t : State) : Prop where
  params : t.params = s.params
  flags : t.done = s.done ∧ t.err = s.err ∧ t.pinv = s.pinv
  errCode : t.errCode = s.errCode
  lengths : t.ilen = s.ilen ∧ t.olen = s.olen ∧ t.klen = s.klen ∧ t.padbs = s.padbs
  registers : ∀ r, t.mp r = s.mp r
  memory : t.mem = s.mem

/-- With a read of `a` put in front of the host's operations, one step observes `v` and changes nothing else. -/
def Reads (s : State) (a : Nat) (v : Nat) : Prop :=
  step { s with host := .read (BitVec.ofNat 16 a) :: s.host } =
    .next { s with observed := BitVec.ofNat 32 v :: s.observed }

/-- With a write of `w` to `a` put in front of the host's operations, one step gives `t`. -/
def Writes (s : State) (a : Nat) (w : Word) (t : State) : Prop :=
  step { s with host := .write (BitVec.ofNat 16 a) w :: s.host } = .next t

/-- Four bytes as a word's number, byte 0 in the lowest lane (20_memory.md R67). -/
def laneNumber (f : Nat → Byte) (j : Nat) : Nat :=
  (f (4 * j)).toNat + 256 * (f (4 * j + 1)).toNat + 65536 * (f (4 * j + 2)).toNat + 16777216 * (f (4 * j + 3)).toNat

/-- A word offset that 20_memory.md R62 lists as unmapped. -/
def Unmapped (p : Params) (a : Nat) : Prop :=
  a = 0x000C ∨ (0x002C ≤ a ∧ a ≤ 0x005C) ∨ (0x0070 ≤ a ∧ a ≤ 0x007C) ∨
  (0x0080 + p.keyBytesMax ≤ a ∧ a ≤ 0x0FFC) ∨ (0x1000 + p.bufMax ≤ a ∧ a ≤ 0x1FFC) ∨
  (0x2000 + p.bufMax ≤ a ∧ a ≤ 0xFFFC)

/-- STATUS as a number: BUSY, DONE, ERR, PINV in bits 0 to 3 (10_state.md R23). -/
def statusNumber (busy done err pinv : Bool) : Nat :=
  busy.toNat + 2 * done.toNat + 4 * err.toNat + 8 * pinv.toNat

/-- The sixteen hex characters (45_hex_codec.md R235). -/
def hexDigits : List Byte :=
  [0x30, 0x31, 0x32, 0x33, 0x34, 0x35, 0x36, 0x37, 0x38, 0x39, 0x61, 0x62, 0x63, 0x64, 0x65, 0x66]

/-- The bytes `f 0 .. f (n-1)` as a buffer. -/
def bufferOf (f : Nat → Byte) (n : Nat) : Buffer := (List.range n).map f

/-- KLEN passes the key check of 42_aes_block.md R170. -/
def ValidKeyLength (s : State) : Prop :=
  s.klen.toNat % 8 = 0 ∧ 16 ≤ s.klen.toNat ∧ s.klen.toNat ≤ s.params.keyBytesMax

/-- `checkInvalid` on the bytes `f 0 .. f (n-1)` (44_pkcs7.md R216). -/
def InvalidPadded (f : Nat → Byte) (n bs : Nat) : Prop :=
  n = 0 ∨ n % bs ≠ 0 ∨ f (n - 1) = 0 ∨ n < (f (n - 1)).toNat ∨
  ∃ i < (f (n - 1)).toNat, f (n - 1 - i) ≠ f (n - 1)

/-- Every error kind with its code (60_exceptions.md R280). -/
def codeTable : List (ErrorKind × Byte) :=
  [(.invalidPadding, 0x01), (.invalidKeyLength, 0x02), (.plaintextTooLarge, 0x03), (.ciphertextTooLarge, 0x04)] ++
  [(.invalidLength, 0x05), (.keyGenerationError, 0x06), (.noInverse, 0x07), (.illegalCommand, 0x10)] ++
  [(.bufferRange, 0x11), (.outputOverflow, 0x12), (.operandTooLarge, 0x13), (.modulusZero, 0x14)] ++
  [(.modulusNotOdd, 0x15), (.operandRange, 0x16), (.badHexDigit, 0x17), (.invalidBlockSize, 0x18)]

/-- The checks of each command in the order of 60_exceptions.md R289: the condition under which each faults, and its code
(R280). IllegalCommand is the check of the selectors here; the other ways a word is illegal never reach a command. -/
def checksOf (s : State) : Instr → List (Prop × Byte)
  | .nop | .clear | .xfer => []
  | .mpLoad rd =>
    [(5 ≤ rd.toNat, 0x10), (s.params.bufMax < s.ilen.toNat, 0x11),
     (2 ^ s.params.mpBits ≤ bigEndian s.ibuf s.ilen.toNat, 0x13)]
  | .mpStore rs => [(5 ≤ rs.toNat, 0x10)]
  | .mpMov rd rs => [(5 ≤ rd.toNat ∨ 5 ≤ rs.toNat, 0x10)]
  | .montmul => [(s.mpn % 2 = 0, 0x15), (s.mpa ≥ s.mpn ∨ s.mpb ≥ s.mpn, 0x16)]
  | .modexp => [(s.mpn = 0, 0x14)]
  | .rsaEnc =>
    [(s.params.bufMax < s.ilen.toNat, 0x11), (bigEndian s.ibuf s.ilen.toNat ≥ s.mpn, 0x03)]
  | .rsaDec =>
    [(s.params.bufMax < s.ilen.toNat, 0x11), (bigEndian s.ibuf s.ilen.toNat ≥ s.mpn, 0x04)]
  | .aesKeyexp => [(¬ ValidKeyLength s, 0x02)]
  | .aesEncBlk | .aesDecBlk =>
    [(s.params.bufMax < s.ilen.toNat, 0x11), (s.ilen.toNat ≠ 16, 0x05),
     (¬ ValidKeyLength s, 0x02)]
  | .cbcEnc | .cbcDec =>
    [(s.params.bufMax < s.ilen.toNat, 0x11), (s.ilen.toNat = 0 ∨ s.ilen.toNat % 16 ≠ 0, 0x05),
     (¬ ValidKeyLength s, 0x02)]
  | .pkcs7Pad =>
    [(s.params.bufMax < s.ilen.toNat, 0x11), (s.padbs = 0, 0x18),
     (s.params.bufMax < s.ilen.toNat + (s.padbs.toNat - s.ilen.toNat % s.padbs.toNat), 0x12)]
  | .pkcs7Check => [(s.params.bufMax < s.ilen.toNat, 0x11), (s.padbs = 0, 0x18)]
  | .pkcs7Unpad =>
    [(s.params.bufMax < s.ilen.toNat, 0x11), (s.padbs = 0, 0x18),
     (InvalidPadded s.ibuf s.ilen.toNat s.padbs.toNat, 0x01)]
  | .hexEnc =>
    [(s.params.bufMax < s.ilen.toNat, 0x11), (s.params.bufMax < 2 * s.ilen.toNat, 0x12)]
  | .hexDec =>
    [(s.params.bufMax < s.ilen.toNat, 0x11),
     (∃ k < 2 * (s.ilen.toNat / 2), s.ibuf k ∉ hexDigits, 0x17)]

/-- `c` is the code of the first check that fails. -/
def FirstFailing : List (Prop × Byte) → Byte → Prop
  | [], _ => False
  | (p, d) :: l, c => (p ∧ c = d) ∨ (¬ p ∧ FirstFailing l c)

/-- No check fails. -/
def NoneFails : List (Prop × Byte) → Prop
  | [] => True
  | (p, _) :: l => ¬ p ∧ NoneFails l

/-- The four bytes of the schedule's word `j` as the output buffer holds it (20_memory.md R68). -/
def outWord (t : State) (j : Nat) : List Byte := [t.obuf (4 * j), t.obuf (4 * j + 1), t.obuf (4 * j + 2), t.obuf (4 * j + 3)]

/-- The ten round constants (42_aes_block.md R168). -/
def rconList : List Byte := [0x01, 0x02, 0x04, 0x08, 0x10, 0x20, 0x40, 0x80, 0x1B, 0x36]

/-- `t` of the key schedule's loop, from the word before it (42_aes_block.md R171). -/
def scheduleT (nk i : Nat) (w : List Byte) : List Byte :=
  if i % nk = 0 then
    [sbox (w.getD 1 0) ^^^ rconList.getD (i / nk - 1) 0, sbox (w.getD 2 0), sbox (w.getD 3 0), sbox (w.getD 0 0)]
  else if 6 < nk ∧ i % nk = 4 then w.map sbox
  else w

/-- Rotation of a byte to the left (42_aes_block.md R162). -/
def rotl8 (y : Byte) (n : Nat) : Byte := (y <<< n) ||| (y >>> (8 - n))

/-- What MPR holds after MONTMUL on the operands `x`, `y` with the modulus of `s`. -/
def montmulResult (s : State) (x y : Nat) : Nat :=
  match exec .montmul { s with mpa := x, mpb := y } with
  | .next t => t.mpr
  | _ => 0

/-- What MPR holds after MODEXP on the base `a` and the exponent `e` with the modulus of `s`. -/
def modexpResult (s : State) (a e : Nat) : Nat :=
  match exec .modexp { s with mpa := a, mpe := e } with
  | .next t => t.mpr
  | _ => 0

/-- The accumulator of the left-to-right square-and-multiply chain over the `n` low bits of `e`, most significant bit
first, every product one MONTMUL command (41_bigint_rsa.md R139). -/
def montChain (s : State) (x : Nat) : Nat → Nat → Nat → Nat
  | 0, _, acc => acc
  | n + 1, e, acc =>
    let sq := montmulResult s acc acc
    montChain s x n e (if e.testBit n then montmulResult s sq x else sq)

end Sys2Proof.Machine

open Sys2Proof Sys2Proof.Machine

/-! ### Encoding -/

/-- 30_encoding.md R90, R94, R98: for every command that some word stands for, with every selector at every value its
field admits, decoding its word gives it back. -/
def Obligations.DecodeOfEncodeIsTheInstruction : Prop :=
  ∀ i : Instr, i.wellFormed = true → decode (encode i) = .ok i

/-- 30_encoding.md R92, R93, R95: a word the decoder reads as a command is that command's one encoding, and its
selectors are legal. So no bit of a legal word is dropped. -/
def Obligations.EveryLegalWordIsAnEncoding : Prop :=
  ∀ (w : Word) (i : Instr), decode w = .ok i → encode i = w ∧ i.wellFormed = true

/-- 30_encoding.md R94: a word is the command of a row when `w & mask = match`, plus the selector legality of R92; the
command's operands are the word's fields rd (bits 11:8) and rs (bits 15:12). -/
def Obligations.WordsMatchTheOpcodeMap : Prop :=
  ∀ (w : Word) (row : OpcodeRow), row ∈ opcodeRows →
    (decode w = .ok (row.command (BitVec.ofNat 4 (w.toNat / 256)) (BitVec.ofNat 4 (w.toNat / 4096))) ↔
      w &&& row.mask = row.matchWord ∧ (row.usesRd = true → w.toNat / 256 % 16 ≤ 4) ∧
        (row.usesRs = true → w.toNat / 4096 % 16 ≤ 4))

/-- 30_encoding.md R95: a word is refused by the decoder exactly when it is illegal, every other word is one command
(the decoder is total), and an illegal word that was accepted faults IllegalCommand (0x10) and executes nothing. -/
def Obligations.IllegalWordsFaultAndExecuteNothing : Prop :=
  ∀ w : Word,
    ((∃ r, decode w = .error r) ↔ IllegalWord w) ∧ (¬ IllegalWord w → ∃! i, decode w = .ok i) ∧
    ∀ s : State, s.inFlight = some { word := w, wait := 0 } → IllegalWord w → step s = .next (faulted s 0x10)

/-- 30_encoding.md R98 and 95_test_vectors.md 2.10: words the spec writes out, and what they stand for. -/
def Obligations.SpecWordsDecode : Prop :=
  decode 0x00000000 = .ok .nop ∧ decode 0x00000002 = .ok .xfer ∧
  decode 0x00000010 = .ok (.mpLoad (selectorOf .mpn)) ∧ decode 0x00000110 = .ok (.mpLoad (selectorOf .mpe)) ∧
  decode 0x00000210 = .ok (.mpLoad (selectorOf .mpa)) ∧ decode 0x00000310 = .ok (.mpLoad (selectorOf .mpb)) ∧
  decode 0x00000410 = .ok (.mpLoad (selectorOf .mpr)) ∧ decode 0x00004011 = .ok (.mpStore (selectorOf .mpr)) ∧
  decode 0x00004212 = .ok (.mpMov (selectorOf .mpa) (selectorOf .mpr)) ∧
  decode 0x0000001A = .ok .rsaEnc ∧ decode 0x00000022 = .ok .aesDecBlk ∧ decode 0x00000028 = .ok .cbcEnc ∧
  decode 0x00000032 = .ok .pkcs7Unpad ∧ decode 0x00000039 = .ok .hexDec ∧
  decode 0x00000003 = .error .unassignedOpcode ∧ decode 0x00010000 = .error .zeroFieldSet ∧
  decode 0x00000510 = .error .rdNotARegister ∧ decode 0x00005012 = .error .rsNotARegister

/-! ### The step, acceptance and the bus -/

/-- 40_control_and_transfer.md R110: when the engine step of an accepted word is due and the word decodes to a command,
the step is exec of that command at that state, with nothing around it. A step before that is the environment's. -/
def Obligations.StepRunsTheDecodedCommand : Prop :=
  ∀ (s : State) (w : Word) (i : Instr), s.inFlight = some { word := w, wait := 0 } → decode w = .ok i →
    step s = exec i s

/-- 40_control_and_transfer.md R110, 70_reset_and_hazards.md R326, R333: a command accepted with any latency `n` reaches
its engine step after `n` steps, whatever bus operations the host issues meanwhile, and the engine's state is then as it
was at acceptance. The latency is the model's plain data (log entry 3); the statement holds for each. -/
def Obligations.WaitingCommandKeepsTheStateAtAcceptance : Prop :=
  ∀ (n : Nat) (s : State) (w : Word), s.inFlight = some { word := w, wait := n } →
    (∀ op ∈ s.host, op.plain = true) →
    ∃ t, core.run n s = .next t ∧ t.inFlight = some { word := w, wait := 0 } ∧ SameEngine s t

/-- 40_control_and_transfer.md R110 (acceptance), 60_exceptions.md R286, 70_reset_and_hazards.md R327: a write to CMD is
dropped while a command runs; it is dropped while ERR = 1 unless its word is 0x00000001; otherwise it is accepted: BUSY 1
with the word in flight, DONE 0. Every other field is as before, but for the model's list of latencies. -/
def Obligations.AcceptanceOfACommandWrite : Prop :=
  ∀ (s : State) (w : Word),
    (∀ f n, s.inFlight = some { word := f, wait := n + 1 } →
      Writes s 0x0010 w { s with inFlight := some { word := f, wait := n } }) ∧
    (s.inFlight = none → s.err = true → w ≠ 0x00000001 → Writes s 0x0010 w s) ∧
    (s.inFlight = none → (s.err = false ∨ w = 0x00000001) →
      ∃ n, Writes s 0x0010 w
        { s with inFlight := some { word := w, wait := n }, done := false, latency := s.latency.tail })

/-- 20_memory.md R63 with the registers of 10_state.md (R21, R23, R28 to R32) and the lanes of R67: what a read returns
when no command runs, at every offset of the map; and it changes nothing (R72). -/
def Obligations.IdleBusReads : Prop :=
  ∀ s : State, s.params.Valid → s.inFlight = none →
    Reads s 0x0000 0x434F5245 ∧ Reads s 0x0004 (s.params.bufMax * 65536 + s.params.mpBits) ∧
    Reads s 0x0008 (1 * 65536 + 16 * 256 + s.params.keyBytesMax) ∧ Reads s 0x0010 0 ∧
    Reads s 0x0014 (statusNumber false s.done s.err s.pinv) ∧ Reads s 0x0018 s.errCode.toNat ∧
    Reads s 0x001C s.ilen.toNat ∧ Reads s 0x0020 s.olen.toNat ∧ Reads s 0x0024 s.klen.toNat ∧
    Reads s 0x0028 s.padbs.toNat ∧
    (∀ j < 4, Reads s (0x0060 + 4 * j) (laneNumber s.iv j)) ∧
    (∀ j < s.params.keyBytesMax / 4, Reads s (0x0080 + 4 * j) (laneNumber s.key j)) ∧
    (∀ j < s.params.bufMax / 4, Reads s (0x1000 + 4 * j) (laneNumber s.ibuf j)) ∧
    (∀ j < s.params.bufMax / 4, Reads s (0x2000 + 4 * j) (laneNumber s.obuf j)) ∧
    (∀ a, a % 4 = 0 → Unmapped s.params a → Reads s a 0)

/-- 70_reset_and_hazards.md R326, 20_memory.md R63, R64: while a command runs every bus write is dropped, and every read
other than of ID, CFG0, CFG1 and STATUS returns 0; those four return their values, STATUS with BUSY = 1. That the command is meanwhile one step nearer to its engine step
is the model's choice (log entry 3). -/
def Obligations.BusyHazard : Prop :=
  ∀ (s : State) (w : Word) (n : Nat) (a : Nat) (x : Word), s.params.Valid →
    s.inFlight = some { word := w, wait := n + 1 } → a < 65536 → a % 4 = 0 →
    Writes s a x { s with inFlight := some { word := w, wait := n } } ∧
    step { s with host := .read (BitVec.ofNat 16 a) :: s.host } = .next { s with
      inFlight := some { word := w, wait := n }
      observed := BitVec.ofNat 32 (
        if a = 0x0000 then 0x434F5245
        else if a = 0x0004 then s.params.bufMax * 65536 + s.params.mpBits
        else if a = 0x0008 then 1 * 65536 + 16 * 256 + s.params.keyBytesMax
        else if a = 0x0014 then statusNumber true s.done s.err s.pinv
        else 0) :: s.observed }

/-- 20_memory.md R64, R65, R67: what a write does when no command runs, at every offset but CMD. ILEN and KLEN take the
word, PADBS its low byte; a KEY, IV or IBUF word takes the four lanes and every other byte stays; a read-only or unmapped
offset ignores it. -/
def Obligations.IdleBusWrites : Prop :=
  ∀ (s : State) (w : Word), s.params.Valid → s.inFlight = none →
    Writes s 0x001C w { s with ilen := w } ∧ Writes s 0x0024 w { s with klen := w } ∧
    Writes s 0x0028 w { s with padbs := BitVec.ofNat 8 w.toNat } ∧
    (∀ a, a % 4 = 0 →
      ((0x0060 ≤ a ∧ a < 0x0070) ∨ (0x0080 ≤ a ∧ a < 0x0080 + s.params.keyBytesMax) ∨
        (0x1000 ≤ a ∧ a < 0x1000 + s.params.bufMax)) →
      ∃ m, Writes s a w { s with mem := m } ∧
        (∀ k < 4, m.read (a + k) = BitVec.ofNat 8 (w.toNat / 256 ^ k)) ∧
        ∀ b, (b < a ∨ a + 4 ≤ b) → m.read b = s.mem.read b) ∧
    (∀ a ∈ [0x0000, 0x0004, 0x0008, 0x0014, 0x0018, 0x0020], Writes s a w s) ∧
    (∀ a, a % 4 = 0 → ((0x2000 ≤ a ∧ a < 0x2000 + s.params.bufMax) ∨ Unmapped s.params a) → Writes s a w s)

/-- 30_encoding.md R99: WAIT reads STATUS; while BUSY reads 1 it stays the next operation, otherwise the program goes on. -/
def Obligations.WaitPollsStatus : Prop :=
  ∀ (s : State),
    (s.inFlight = none → step { s with host := .wait :: s.host } =
      .next { s with observed := BitVec.ofNat 32 (statusNumber false s.done s.err s.pinv) :: s.observed }) ∧
    (∀ w n, s.inFlight = some { word := w, wait := n + 1 } → step { s with host := .wait :: s.host } =
      .next { s with
        host := .wait :: s.host
        inFlight := some { word := w, wait := n }
        observed := BitVec.ofNat 32 (statusNumber true s.done s.err s.pinv) :: s.observed })

/-- 30_encoding.md R100: LDBUF, run with no command in flight, leaves the buffer's bytes as the engine's input, ILEN its
length. The host's operations behind it, the flags and the other registers are as before. -/
def Obligations.LdBufLoadsTheInput : Prop :=
  ∀ (s : State) (b : Buffer), s.params.Valid → s.inFlight = none → b.length ≤ s.params.bufMax →
    ∃ t, core.run (ldBuf b).length { s with host := ldBuf b ++ s.host } = .next t ∧
      t.ilen.toNat = b.length ∧ (∀ k < b.length, t.ibuf k = b.getD k 0) ∧
      (∀ a, (a < 0x1000 ∨ 0x1000 + s.params.bufMax ≤ a) → t.mem.read a = s.mem.read a) ∧
      { t with mem := s.mem, ilen := s.ilen } = s

/-- 20_memory.md R70: an access at an offset that is not a multiple of 4, or of another width than 32 bits, is given no
meaning: the host's turn refuses it by name. -/
def Obligations.OtherAccessesAreRefused : Prop :=
  ∀ (s : State) (a : Addr) (w : Word) (n : Nat), s.inFlight = none →
    (a.toNat % 4 ≠ 0 →
      step { s with host := .read a :: s.host } = .refused (.misalignedAccess a) ∧
      step { s with host := .write a w :: s.host } = .refused (.misalignedAccess a)) ∧
    step { s with host := .odd a n :: s.host } = .refused (.accessWidth a n)

/-- 70_reset_and_hazards.md R320: a reset, whether the engine is idle or a command runs, brings every piece of state to
its value of 10_state.md R45; a command in flight is abandoned. The parameters and the environment's operations stay. -/
def Obligations.ResetEventRestoresResetValues : Prop :=
  ∀ s : State, (∀ f, s.inFlight = some f → f.wait ≠ 0) →
    ∃ t, step { s with host := .reset :: s.host } = .next t ∧ StoragesAtReset t ∧ t.inFlight = none ∧ t.done = false ∧
      SameEnvironment s t

/-- 10_state.md R45: the values after reset: STATUS and ERRCODE 0, ILEN, OLEN, KLEN 0, PADBS 16, every byte of KEY, IV,
IBUF and OBUF 0, every multiprecision register 0; ID, CFG0 and CFG1 read their constants (default parameters). -/
def Obligations.ResetStateValues : Prop :=
  StoragesAtReset State.reset ∧ State.reset.inFlight = none ∧ State.reset.done = false ∧
  Reads State.reset 0x0000 0x434F5245 ∧ Reads State.reset 0x0004 0x10000800 ∧ Reads State.reset 0x0008 0x00011020 ∧
  Reads State.reset 0x0014 0

/-- 70_reset_and_hazards.md R324: what each command does straight after reset. -/
def Obligations.CommandsStraightAfterReset : Prop :=
  FaultsWith .modexp State.reset 0x14 ∧ FaultsWith .montmul State.reset 0x15 ∧
  FaultsWith .rsaEnc State.reset 0x03 ∧ FaultsWith .rsaDec State.reset 0x04 ∧
  FaultsWith .aesKeyexp State.reset 0x02 ∧ FaultsWith .aesEncBlk State.reset 0x05 ∧
  FaultsWith .aesDecBlk State.reset 0x05 ∧ FaultsWith .cbcEnc State.reset 0x05 ∧
  FaultsWith .cbcDec State.reset 0x05 ∧ FaultsWith .pkcs7Unpad State.reset 0x01 ∧
  (∃ t, Completes (.mpLoad 0) State.reset t ∧ t.mpn = 0) ∧
  (∃ t, Completes .pkcs7Pad State.reset t ∧ t.olen = 16 ∧ ∀ k < 16, t.obuf k = 0x10) ∧
  (∃ t, Completes .pkcs7Check State.reset t ∧ t.pinv = true) ∧
  (∃ t, Completes .hexEnc State.reset t ∧ t.olen = 0) ∧ (∃ t, Completes .hexDec State.reset t ∧ t.olen = 0)

/-! ### Whole-machine rules -/

/-- 93_implementation_defined.md (end of Part 1), 70_reset_and_hazards.md R333: in every state the machine steps to a next
state, but for one case: the environment's turn with an access that is no part of the interface (20_memory.md R70). -/
def Obligations.OnlyAForeignAccessStopsTheMachine : Prop :=
  ∀ s : State, (∃ t, step s = .next t) ∨
    ((s.inFlight = none ∨ ∃ f, s.inFlight = some f ∧ f.wait ≠ 0) ∧
      ∃ op rest r, s.host = op :: rest ∧ step s = .refused r ∧
        ((∃ a, op = .read a ∧ a.toNat % 4 ≠ 0) ∨ (∃ a w, op = .write a w ∧ a.toNat % 4 ≠ 0) ∨ ∃ a n, op = .odd a n))

/-- 60_exceptions.md R284: `raise E` sets BUSY 0, DONE 0, ERR 1 and ERRCODE to the code of E, and nothing else: OBUF,
OLEN, IBUF, ILEN, KEY, KLEN, IV, PADBS, PINV and the MP registers keep the values they had at acceptance. -/
def Obligations.FaultsWriteNothingElse : Prop :=
  ∀ (i : Instr) (s t : State), exec i s = .next t → t.done = false →
    ∃ row ∈ codeTable, row.1 ∈ engineKinds ∧ t = faulted s row.2

/-- 60_exceptions.md R289: each command faults with the code of its first check that fails, in the order stated, and
with no other; where none fails it completes. -/
def Obligations.ChecksInTheStatedOrder : Prop :=
  ∀ (i : Instr) (s : State),
    (∀ c, FirstFailing (checksOf s i) c → FaultsWith i s c) ∧
    (NoneFails (checksOf s i) → ∃ t, Completes i s t)

/-- 60_exceptions.md R280: the code numbers, and that no kind's code is another's. -/
def Obligations.ErrorCodesAsTabulated : Prop :=
  (∀ row ∈ codeTable, row.1.code = row.2) ∧ (∀ e : ErrorKind, ∃ row ∈ codeTable, row.1 = e) ∧
  (∀ e f : ErrorKind, e.code = f.code → e = f)

/-- 10_state.md R23, R28, R33: who writes the flags and ERRCODE, over every step of the machine. ERR goes from 1 to 0 only
by CLEAR or reset. ERRCODE changes only by a fault, by CLEAR (to 0) and by reset (to 0). PINV changes only by PKCS7_CHECK,
and by CLEAR and reset to 0. -/
def Obligations.WhoWritesTheFlags : Prop :=
  ∀ s t : State, step s = .next t →
    (s.err = true → t.err = false →
      s.inFlight = some { word := 0x00000001, wait := 0 } ∨ ∃ rest, s.host = .reset :: rest) ∧
    (t.errCode ≠ s.errCode →
      (t.err = true ∧ t.done = false ∧ ∃ w, s.inFlight = some { word := w, wait := 0 }) ∨
      (t.errCode = 0 ∧ (s.inFlight = some { word := 0x00000001, wait := 0 } ∨ ∃ rest, s.host = .reset :: rest))) ∧
    (t.pinv ≠ s.pinv →
      s.inFlight = some { word := 0x00000031, wait := 0 } ∨
      (t.pinv = false ∧ (s.inFlight = some { word := 0x00000001, wait := 0 } ∨ ∃ rest, s.host = .reset :: rest)))

/-- 10_state.md R34, R35, R36, R37, 43_cbc.md R204: who writes the byte arrays and the lengths, over every command. Only
CLEAR changes a byte of KEY or IV, or KLEN or PADBS. Only XFER and CLEAR change a byte of IBUF or ILEN. NOP, MP_LOAD,
MP_MOV, MONTMUL, MODEXP, PKCS7_CHECK, XFER and every command that faults leave OBUF and OLEN. -/
def Obligations.WhoWritesTheByteArrays : Prop :=
  ∀ (i : Instr) (s t : State), s.params.Valid → exec i s = .next t →
    (i ≠ .clear → (∀ k < s.params.keyBytesMax, t.key k = s.key k) ∧ (∀ k < 16, t.iv k = s.iv k) ∧
      t.klen = s.klen ∧ t.padbs = s.padbs) ∧
    (i ≠ .clear → i ≠ .xfer → (∀ k < s.params.bufMax, t.ibuf k = s.ibuf k) ∧ t.ilen = s.ilen) ∧
    ((i = .nop ∨ (∃ rd, i = .mpLoad rd) ∨ (∃ rd rs, i = .mpMov rd rs) ∨ i = .montmul ∨ i = .modexp ∨
        i = .pkcs7Check ∨ i = .xfer ∨ t.done = false) →
      (∀ k < s.params.bufMax, t.obuf k = s.obuf k) ∧ t.olen = s.olen)

/-- 10_state.md R26: a multiprecision register changes only by CLEAR, by MP_LOAD or MP_MOV naming it as `rd`, and MPR
also by MONTMUL and MODEXP. -/
def Obligations.WhoWritesMpRegisters : Prop :=
  ∀ (i : Instr) (s t : State) (r : MpReg), exec i s = .next t → t.mp r ≠ s.mp r →
    i = .clear ∨ i = .mpLoad (selectorOf r) ∨ (∃ rs, i = .mpMov (selectorOf r) rs) ∨
    (r = .mpr ∧ (i = .montmul ∨ i = .modexp))

/-- The invariant of Safety.lean (10_state.md R23, R24, R28, R30, 00_scope.md R7) is kept by every step, from every state
that meets it. -/
def Obligations.EveryStepKeepsTheInvariant : Prop :=
  ∀ s t : State, s.Inv → step s = .next t → t.Inv

/-- The state after reset meets the invariant. -/
def Obligations.ResetMeetsTheInvariant : Prop := State.reset.Inv

/-- The memory's canonical form is canonical: two memories in it that read alike at every offset are equal. The form is
the model's own (INVENTORY.md, Memory and ordering). -/
def Obligations.CanonicalMemoriesAreEqual : Prop :=
  ∀ m m' : Memory, m.wf → m'.wf → (∀ a, m.read a = m'.read a) → m = m'

/-! ### Control and transfer commands -/

/-- 40_control_and_transfer.md R112: NOP's word is 0x00000000; it completes; DONE becomes 1 and nothing else changes.
While ERR = 1 it is dropped, not executed. -/
def Obligations.NopCompletes : Prop :=
  encode .nop = 0x00000000 ∧
  (∀ s : State, exec .nop s = .next { s with inFlight := none, done := true }) ∧
  ∀ s : State, s.inFlight = none → s.err = true → Writes s 0x0010 (encode .nop) s

/-- 40_control_and_transfer.md R113: CLEAR's word is 0x00000001; it always completes; every storage takes its reset value
(ERR, ERRCODE and PINV among them) and DONE is 1; the parameters, and so ID, CFG0 and CFG1, stay. It is accepted while
ERR = 1, where every other word is dropped, and no other command turns ERR to 0. -/
def Obligations.ClearRestoresResetValues : Prop :=
  encode .clear = 0x00000001 ∧
  (∀ s : State, ∃ t, Completes .clear s t ∧ StoragesAtReset t ∧ SameEnvironment s t) ∧
  ∀ s : State, s.inFlight = none →
    (∃ n t, Writes s 0x0010 0x00000001 t ∧ t.inFlight = some { word := 0x00000001, wait := n }) ∧
    (∀ w, s.err = true → w ≠ 0x00000001 → Writes s 0x0010 w s) ∧
    ∀ i t, exec i s = .next t → s.err = true → t.err = false → i = .clear

/-- 40_control_and_transfer.md R114: XFER's word is 0x00000002; it completes; IBUF takes `OBUF[0 .. OLEN-1]`, ILEN takes
OLEN; IBUF past OLEN, OBUF, OLEN and everything else are unchanged. `OLEN <= BUF_MAX` is R30, an invariant. -/
def Obligations.XferCopiesOutputToInput : Prop :=
  encode .xfer = 0x00000002 ∧
  ∀ s : State, s.params.Valid → s.olen.toNat ≤ s.params.bufMax →
    ∃ t, Completes .xfer s t ∧ t.ilen = s.olen ∧ t.olen = s.olen ∧
      (∀ k < s.olen.toNat, t.ibuf k = s.obuf k) ∧
      (∀ a, (a < 0x1000 ∨ 0x1000 + s.olen.toNat ≤ a) → t.mem.read a = s.mem.read a) ∧
      (∀ k < s.params.bufMax, t.obuf k = s.obuf k) ∧
      (∀ r, t.mp r = s.mp r) ∧ t.err = s.err ∧ t.errCode = s.errCode ∧ t.pinv = s.pinv ∧ t.klen = s.klen ∧
      t.padbs = s.padbs ∧ SameEnvironment s t

/-- 40_control_and_transfer.md R116 with R130 and R132: MP_LOAD's word, illegal with `rs` not 0; its faults in order;
otherwise it completes, the register takes the big-endian number of the input buffer, and every other storage is
unchanged. -/
def Obligations.MpLoadImportsTheInput : Prop :=
  (∀ rd : Selector, encode (.mpLoad rd) = 0x00000010 ||| (rd.setWidth 32 <<< 8)) ∧
  (∀ w : Word, w.toNat % 256 = 0x10 → w.toNat / 4096 % 16 ≠ 0 → ∃ r, decode w = .error r) ∧
  (∀ (rd : Selector) (s : State), 5 ≤ rd.toNat → FaultsWith (.mpLoad rd) s 0x10) ∧
  ∀ (r : MpReg) (s : State),
    if s.params.bufMax < s.ilen.toNat then FaultsWith (.mpLoad (selectorOf r)) s 0x11
    else if 2 ^ s.params.mpBits ≤ bigEndian s.ibuf s.ilen.toNat then FaultsWith (.mpLoad (selectorOf r)) s 0x13
    else ∃ t, Completes (.mpLoad (selectorOf r)) s t ∧ t.mp r = bigEndian s.ibuf s.ilen.toNat ∧ RegisterFrame s t r

/-- 40_control_and_transfer.md R117 with R131: MP_STORE's word, illegal with `rd` not 0; it completes, OBUF holds the minimal big-endian encoding
of the register, at most MP_BYTES bytes, and everything else is unchanged. `MP[rs] < 2**MP_BITS` is R24, an invariant. -/
def Obligations.MpStoreExportsTheRegister : Prop :=
  (∀ rs : Selector, encode (.mpStore rs) = 0x00000011 ||| (rs.setWidth 32 <<< 12)) ∧
  (∀ w : Word, w.toNat % 256 = 0x11 → w.toNat / 256 % 16 ≠ 0 → ∃ r, decode w = .error r) ∧
  (∀ (rs : Selector) (s : State), 5 ≤ rs.toNat → FaultsWith (.mpStore rs) s 0x10) ∧
  ∀ (r : MpReg) (s : State), s.params.Valid → s.mp r < 2 ^ s.params.mpBits →
    ∃ t, Completes (.mpStore (selectorOf r)) s t ∧ MinimalOutput t (s.mp r) ∧ t.olen.toNat ≤ s.params.mpBits / 8 ∧
      OutputFrame s t

/-- 40_control_and_transfer.md R118: MP_MOV's word; it completes, the destination takes the source, and everything else
is unchanged; with destination and source the same nothing changes. -/
def Obligations.MpMovCopiesTheRegister : Prop :=
  (∀ rd rs : Selector, encode (.mpMov rd rs) = 0x00000012 ||| (rd.setWidth 32 <<< 8) ||| (rs.setWidth 32 <<< 12)) ∧
  (∀ (rd rs : Selector) (s : State), 5 ≤ rd.toNat ∨ 5 ≤ rs.toNat → FaultsWith (.mpMov rd rs) s 0x10) ∧
  ∀ (d r : MpReg) (s : State),
    ∃ t, Completes (.mpMov (selectorOf d) (selectorOf r)) s t ∧ t.mp d = s.mp r ∧ RegisterFrame s t d

/-! ### Big integers and RSA -/

/-- 41_bigint_rsa.md R135 with R134: MONTMUL's word; its faults in order; otherwise it completes and MPR is the one number
below MPN whose product with `2**MONT_K` is congruent to `MPA * MPB`. R134's definition is general knowledge by the spec's
own mark. -/
def Obligations.MontmulIsTheMontgomeryProduct : Prop :=
  encode .montmul = 0x00000018 ∧
  ∀ s : State,
    if s.mpn % 2 = 0 then FaultsWith .montmul s 0x15
    else if s.mpn ≤ s.mpa ∨ s.mpn ≤ s.mpb then FaultsWith .montmul s 0x16
    else ∃ t, Completes .montmul s t ∧ t.mpr < s.mpn ∧
      t.mpr * 2 ^ s.params.mpBits % s.mpn = s.mpa * s.mpb % s.mpn ∧
      (∀ v, v < s.mpn → v * 2 ^ s.params.mpBits % s.mpn = s.mpa * s.mpb % s.mpn → v = t.mpr) ∧
      RegisterFrame s t .mpr

/-- 41_bigint_rsa.md R136 with R133: MODEXP's word; it faults ModulusZero when MPN = 0; otherwise it completes and MPR is
`MPA ** MPE mod MPN`, for even and odd moduli and any base; nothing but MPR changes. -/
def Obligations.ModexpIsTheModularPower : Prop :=
  encode .modexp = 0x00000019 ∧
  ∀ s : State,
    if s.mpn = 0 then FaultsWith .modexp s 0x14
    else ∃ t, Completes .modexp s t ∧ t.mpr = s.mpa ^ s.mpe % s.mpn ∧ RegisterFrame s t .mpr

/-- 41_bigint_rsa.md R137, R138 with R130, R131, R133: the words of RSA_ENC and RSA_DEC; their faults in order, which
differ in the code for a number not below MPN; otherwise each completes and OBUF holds the minimal big-endian encoding of
`m ** MPE mod MPN` for the input's number `m`; everything else is unchanged. `MPN < 2**MP_BITS` is R24, an invariant. -/
def Obligations.RsaIsRawExponentiation : Prop :=
  encode .rsaEnc = 0x0000001A ∧ encode .rsaDec = 0x0000001B ∧
  ∀ (s : State) (i : Instr) (c : Byte), (i = .rsaEnc ∧ c = 0x03 ∨ i = .rsaDec ∧ c = 0x04) → s.params.Valid →
    s.mpn < 2 ^ s.params.mpBits →
    if s.params.bufMax < s.ilen.toNat then FaultsWith i s 0x11
    else if s.mpn ≤ bigEndian s.ibuf s.ilen.toNat then FaultsWith i s c
    else ∃ t, Completes i s t ∧ MinimalOutput t (bigEndian s.ibuf s.ilen.toNat ^ s.mpe % s.mpn) ∧
      t.olen.toNat ≤ s.params.mpBits / 8 ∧ OutputFrame s t

/-- 41_bigint_rsa.md R131: `export` gives the minimal buffer: `import(export(v)) = v`, and `export(import(b)) = b` exactly
when `b` is empty or its first byte is not 0. -/
def Obligations.ImportAndExportAreInverse : Prop :=
  (∀ v : Nat, bigEndian (fun k => (exportBytes v).getD k 0) (exportBytes v).length = v) ∧
  (∀ b : Buffer, exportBytes (importBytes b) = b ↔ b = [] ∨ b.getD 0 0 ≠ 0) ∧
  ∀ b : Buffer, importBytes b = bigEndian (fun k => b.getD k 0) b.length

/-- 41_bigint_rsa.md R139: for odd `n >= 3` the left-to-right square-and-multiply chain of MONTMUL commands, into
Montgomery form and out of it with `R2 = (2**K)**2 mod n`, gives what MODEXP gives. -/
def Obligations.MontgomeryChainEqualsModexp : Prop :=
  ∀ (s : State) (a e n : Nat), s.mpn % 2 = 1 → 3 ≤ s.mpn → e < 2 ^ n →
    montmulResult s (montChain s (montmulResult s (a % s.mpn) ((2 ^ s.params.mpBits) ^ 2 % s.mpn)) n e
      (montmulResult s 1 ((2 ^ s.params.mpBits) ^ 2 % s.mpn))) 1 = modexpResult s a e

/-- 41_bigint_rsa.md R140: with MPN the product of two distinct primes and `e*d ≡ 1 (mod (p-1)(q-1))`, RSA_ENC with
MPE = `e` followed by RSA_DEC of its output with MPE = `d` gives the minimal encoding of the message's number. The
output is moved to the input by XFER, the exponent is loaded between the commands. -/
def Obligations.RsaRoundTrip : Prop :=
  ∀ (s : State) (p q d : Nat), s.params.Valid → p.Prime → q.Prime → p ≠ q →
    s.mpn = p * q → s.mpn < 2 ^ s.params.mpBits → s.mpe * d % ((p - 1) * (q - 1)) = 1 % ((p - 1) * (q - 1)) →
    s.ilen.toNat ≤ s.params.bufMax → bigEndian s.ibuf s.ilen.toNat < s.mpn →
    ∃ t u v, Completes .rsaEnc s t ∧ Completes .xfer t u ∧ Completes .rsaDec { u with mpe := d } v ∧
      MinimalOutput v (bigEndian s.ibuf s.ilen.toNat)

/-! ### AES and CBC -/

/-- 42_aes_block.md R162 (the equivalent definition, general knowledge by the spec's own mark) and R163: every S-box entry
is the affine map of the field inverse, and the inverse table undoes it. -/
def Obligations.SboxIsTheAffineInverse : Prop :=
  ∀ a y : Byte, (if a = 0 then y = 0 else gmul a y = 1) →
    sbox a = y ^^^ rotl8 y 1 ^^^ rotl8 y 2 ^^^ rotl8 y 3 ^^^ rotl8 y 4 ^^^ 0x63 ∧ invSbox (sbox a) = a

/-- 42_aes_block.md R164 to R167, R169: the round steps byte by byte. The orientation of the two matrices is decision D22
(general knowledge by the spec's own mark). -/
def Obligations.RoundStepsByteByByte : Prop :=
  ∀ (s rk : Buffer) (n : Nat),
    (∀ i < 16, byteAt (subBytes s) i = sbox (byteAt s i) ∧ byteAt (invSubBytes s) i = invSbox (byteAt s i) ∧
      byteAt (addRoundKey s rk n) i = byteAt s i ^^^ byteAt rk (16 * n + i)) ∧
    (∀ r < 4, ∀ c < 4, byteAt (shiftRows s) (r + 4 * c) = byteAt s (r + 4 * ((c + r) % 4)) ∧
      byteAt (invShiftRows s) (r + 4 * ((c + r) % 4)) = byteAt s (r + 4 * c)) ∧
    ∀ c < 4, ∀ a : Nat → Byte, (∀ j < 4, a j = byteAt s (4 * c + j)) →
      byteAt (mixColumns s) (4 * c) = gmul 2 (a 0) ^^^ gmul 3 (a 1) ^^^ a 2 ^^^ a 3 ∧
      byteAt (mixColumns s) (4 * c + 1) = a 0 ^^^ gmul 2 (a 1) ^^^ gmul 3 (a 2) ^^^ a 3 ∧
      byteAt (mixColumns s) (4 * c + 2) = a 0 ^^^ a 1 ^^^ gmul 2 (a 2) ^^^ gmul 3 (a 3) ∧
      byteAt (mixColumns s) (4 * c + 3) = gmul 3 (a 0) ^^^ a 1 ^^^ a 2 ^^^ gmul 2 (a 3) ∧
      byteAt (invMixColumns s) (4 * c) = gmul 14 (a 0) ^^^ gmul 11 (a 1) ^^^ gmul 13 (a 2) ^^^ gmul 9 (a 3) ∧
      byteAt (invMixColumns s) (4 * c + 1) = gmul 9 (a 0) ^^^ gmul 14 (a 1) ^^^ gmul 11 (a 2) ^^^ gmul 13 (a 3) ∧
      byteAt (invMixColumns s) (4 * c + 2) = gmul 13 (a 0) ^^^ gmul 9 (a 1) ^^^ gmul 14 (a 2) ^^^ gmul 11 (a 3) ∧
      byteAt (invMixColumns s) (4 * c + 3) = gmul 11 (a 0) ^^^ gmul 13 (a 1) ^^^ gmul 9 (a 2) ^^^ gmul 14 (a 3)

/-- 42_aes_block.md R172, R173: the cipher is the stated sequence of round steps, and its inverse the stated sequence from
the last round key to the first. -/
def Obligations.CipherIsTheRoundSequence : Prop :=
  ∀ b key : Buffer, ∃ f g : Nat → Buffer,
    f 0 = addRoundKey b (keyExpansion key) 0 ∧
    (∀ r, 1 ≤ r → r < key.length / 4 + 6 →
      f r = addRoundKey (mixColumns (shiftRows (subBytes (f (r - 1))))) (keyExpansion key) r) ∧
    cipher b key = addRoundKey (shiftRows (subBytes (f (key.length / 4 + 5)))) (keyExpansion key)
      (key.length / 4 + 6) ∧
    g (key.length / 4 + 6) = invSubBytes (invShiftRows (addRoundKey b (keyExpansion key) (key.length / 4 + 6))) ∧
    (∀ r, 1 ≤ r → r < key.length / 4 + 6 →
      g r = invSubBytes (invShiftRows (invMixColumns (addRoundKey (g (r + 1)) (keyExpansion key) r)))) ∧
    invCipher b key = addRoundKey (g 1) (keyExpansion key) 0

/-- 42_aes_block.md R173: `InvCipher(Cipher(b, key), key) = b` and `Cipher(InvCipher(b, key), key) = b` for every block
and every key. -/
def Obligations.InverseCipherUndoesTheCipher : Prop :=
  ∀ b key : Buffer, b.length = 16 → invCipher (cipher b key) key = b ∧ cipher (invCipher b key) key = b

/-- 42_aes_block.md R174 with R168, R170, R171: AES_KEYEXP's word; it faults InvalidKeyLength unless KLEN is valid;
otherwise it completes, OLEN is `16 * (Nk + 7)`, the first `Nk` words of OBUF are the key's, and each further word is the
stated combination of the word before it and the word `Nk` before it; everything else is unchanged. The ten round
constants are general knowledge by the spec's own mark (R168, log entry 14). -/
def Obligations.KeyexpWritesTheSchedule : Prop :=
  encode .aesKeyexp = 0x00000020 ∧
  ∀ s : State, s.params.Valid →
    (¬ ValidKeyLength s → FaultsWith .aesKeyexp s 0x02) ∧
    (ValidKeyLength s → ∃ t, Completes .aesKeyexp s t ∧ t.olen.toNat = 16 * (s.klen.toNat / 4 + 7) ∧
      (∀ i < s.klen.toNat / 4, outWord t i = [s.key (4 * i), s.key (4 * i + 1), s.key (4 * i + 2), s.key (4 * i + 3)]) ∧
      (∀ i, s.klen.toNat / 4 ≤ i → i < 4 * (s.klen.toNat / 4 + 7) →
        outWord t i = List.zipWith (· ^^^ ·) (scheduleT (s.klen.toNat / 4) i (outWord t (i - 1)))
          (outWord t (i - s.klen.toNat / 4))) ∧
      OutputFrame s t)

/-- 42_aes_block.md R175, R176: the words of AES_ENC_BLK and AES_DEC_BLK; their faults in order; otherwise each completes,
OLEN is 16 and OBUF holds `Cipher(in, KEY[0 .. KLEN-1])`, or `InvCipher` of it; everything else, IBUF among it, is
unchanged. -/
def Obligations.SingleBlockCommands : Prop :=
  encode .aesEncBlk = 0x00000021 ∧ encode .aesDecBlk = 0x00000022 ∧
  ∀ (s : State) (i : Instr) (f : Buffer → Buffer → Buffer),
    (i = .aesEncBlk ∧ f = cipher ∨ i = .aesDecBlk ∧ f = invCipher) → s.params.Valid →
    (s.params.bufMax < s.ilen.toNat → FaultsWith i s 0x11) ∧
    (s.ilen.toNat ≤ s.params.bufMax → s.ilen.toNat ≠ 16 → FaultsWith i s 0x05) ∧
    (s.ilen.toNat = 16 → ¬ ValidKeyLength s → FaultsWith i s 0x02) ∧
    (s.ilen.toNat = 16 → ValidKeyLength s → ∃ t, Completes i s t ∧ t.olen.toNat = 16 ∧
      (∀ k < 16, t.obuf k = byteAt (f (bufferOf s.ibuf 16) (bufferOf s.key s.klen.toNat)) k) ∧ OutputFrame s t)

/-- 43_cbc.md R202 with R200: CBC_ENC's word; its faults in order; otherwise it completes, OLEN is ILEN, and each output
block is the cipher of the input block XORed with the output block before it, the IV for the first; everything else, IV
and IBUF among it, is unchanged. -/
def Obligations.CbcEncChainsBlocks : Prop :=
  encode .cbcEnc = 0x00000028 ∧
  ∀ s : State, s.params.Valid →
    (s.params.bufMax < s.ilen.toNat → FaultsWith .cbcEnc s 0x11) ∧
    (s.ilen.toNat ≤ s.params.bufMax → (s.ilen.toNat = 0 ∨ s.ilen.toNat % 16 ≠ 0) → FaultsWith .cbcEnc s 0x05) ∧
    (s.ilen.toNat ≤ s.params.bufMax → s.ilen.toNat ≠ 0 → s.ilen.toNat % 16 = 0 → ¬ ValidKeyLength s →
      FaultsWith .cbcEnc s 0x02) ∧
    (s.ilen.toNat ≤ s.params.bufMax → s.ilen.toNat ≠ 0 → s.ilen.toNat % 16 = 0 → ValidKeyLength s →
      ∃ t, Completes .cbcEnc s t ∧ t.olen = s.ilen ∧
        (∀ j < s.ilen.toNat / 16, ∀ i < 16, t.obuf (16 * j + i) =
          byteAt (cipher (bufferOf (fun k => s.ibuf (16 * j + k) ^^^
            (if j = 0 then s.iv k else t.obuf (16 * (j - 1) + k))) 16) (bufferOf s.key s.klen.toNat)) i) ∧
        OutputFrame s t)

/-- 43_cbc.md R203 with R201: CBC_DEC's word; its faults in order; otherwise it completes, OLEN is ILEN, and each output
block is the inverse cipher of the input block XORed with the input block before it, the IV for the first. -/
def Obligations.CbcDecChainsBlocks : Prop :=
  encode .cbcDec = 0x00000029 ∧
  ∀ s : State, s.params.Valid →
    (s.params.bufMax < s.ilen.toNat → FaultsWith .cbcDec s 0x11) ∧
    (s.ilen.toNat ≤ s.params.bufMax → (s.ilen.toNat = 0 ∨ s.ilen.toNat % 16 ≠ 0) → FaultsWith .cbcDec s 0x05) ∧
    (s.ilen.toNat ≤ s.params.bufMax → s.ilen.toNat ≠ 0 → s.ilen.toNat % 16 = 0 → ¬ ValidKeyLength s →
      FaultsWith .cbcDec s 0x02) ∧
    (s.ilen.toNat ≤ s.params.bufMax → s.ilen.toNat ≠ 0 → s.ilen.toNat % 16 = 0 → ValidKeyLength s →
      ∃ t, Completes .cbcDec s t ∧ t.olen = s.ilen ∧
        (∀ j < s.ilen.toNat / 16, ∀ i < 16, t.obuf (16 * j + i) =
          byteAt (invCipher (bufferOf (fun k => s.ibuf (16 * j + k)) 16) (bufferOf s.key s.klen.toNat)) i ^^^
            (if j = 0 then s.iv i else s.ibuf (16 * (j - 1) + i))) ∧
        OutputFrame s t)

/-- 43_cbc.md R205: CBC_ENC, then XFER, then CBC_DEC gives back the input, for every valid key, every IV and every input
whose length is a positive multiple of 16. -/
def Obligations.CbcRoundTrip : Prop :=
  ∀ s : State, s.params.Valid → ValidKeyLength s → s.ilen.toNat ≤ s.params.bufMax → s.ilen.toNat ≠ 0 →
    s.ilen.toNat % 16 = 0 →
    ∃ t u v, Completes .cbcEnc s t ∧ Completes .xfer t u ∧ Completes .cbcDec u v ∧ v.olen = s.ilen ∧
      ∀ k < s.ilen.toNat, v.obuf k = s.ibuf k

/-- 43_cbc.md R206, R201: when two ciphertexts differ at most in block `j`, the plaintexts differ at most in the blocks `j`
and `j+1`: in block `j+1` by exactly the bits in which the ciphertexts differ, and in block `j` somewhere, if the
ciphertexts differ at all. So a changed ciphertext never gives back the same plaintext. -/
def Obligations.CbcDecErrorPropagation : Prop :=
  ∀ (s s' t t' : State) (j : Nat), s.params.Valid → s'.params = s.params → s'.ilen = s.ilen → s'.klen = s.klen →
    (∀ k < s.klen.toNat, s'.key k = s.key k) → (∀ k < 16, s'.iv k = s.iv k) →
    (∀ k < s.ilen.toNat, k / 16 ≠ j → s'.ibuf k = s.ibuf k) →
    Completes .cbcDec s t → Completes .cbcDec s' t' →
    (∀ k < s.ilen.toNat, k / 16 ≠ j → k / 16 ≠ j + 1 → t'.obuf k = t.obuf k) ∧
    (∀ k < s.ilen.toNat, k / 16 = j + 1 → t'.obuf k = t.obuf k ^^^ (s.ibuf (k - 16) ^^^ s'.ibuf (k - 16))) ∧
    ((∃ k < s.ilen.toNat, s'.ibuf k ≠ s.ibuf k) → ∃ k < s.ilen.toNat, k / 16 = j ∧ t'.obuf k ≠ t.obuf k)

/-- 42_aes_block.md R175, R176, 10_state.md R34: the single-block commands depend on the input block, on KLEN and on
`KEY[0 .. KLEN-1]` alone: two states that agree on these (and on the parameters) give the same output or the same fault,
whatever their IV, PADBS, registers and the bytes of KEY past KLEN. -/
def Obligations.SingleBlockDependsOnKeyAndBlock : Prop :=
  ∀ (i : Instr) (s s' t t' : State), (i = .aesEncBlk ∨ i = .aesDecBlk) → s.params.Valid → s'.params = s.params →
    s'.ilen = s.ilen → s'.klen = s.klen → (∀ k < s.klen.toNat, s'.key k = s.key k) →
    (∀ k < 16, s'.ibuf k = s.ibuf k) → exec i s = .next t → exec i s' = .next t' →
    t'.done = t.done ∧ (t.done = false → t'.errCode = t.errCode) ∧
    (t.done = true → t'.olen = t.olen ∧ ∀ k < 16, t'.obuf k = t.obuf k)

/-! ### PKCS7 and hex -/

/-- 44_pkcs7.md R218 with R215, R222: PKCS7_PAD's word; its faults in order; otherwise it completes, and OBUF holds the
input followed by `r = PADBS - (ILEN mod PADBS)` bytes of value `r`; everything else, PINV among it, is unchanged. -/
def Obligations.PadAppendsThePadding : Prop :=
  encode .pkcs7Pad = 0x00000030 ∧
  ∀ s : State, s.params.Valid →
    if s.params.bufMax < s.ilen.toNat then FaultsWith .pkcs7Pad s 0x11
    else if s.padbs = 0 then FaultsWith .pkcs7Pad s 0x18
    else if s.params.bufMax < s.ilen.toNat + (s.padbs.toNat - s.ilen.toNat % s.padbs.toNat) then
      FaultsWith .pkcs7Pad s 0x12
    else ∃ t, Completes .pkcs7Pad s t ∧
      t.olen.toNat = s.ilen.toNat + (s.padbs.toNat - s.ilen.toNat % s.padbs.toNat) ∧
      (∀ k < s.ilen.toNat, t.obuf k = s.ibuf k) ∧
      (∀ k, s.ilen.toNat ≤ k → k < t.olen.toNat →
        (t.obuf k).toNat = s.padbs.toNat - s.ilen.toNat % s.padbs.toNat) ∧
      t.olen.toNat % s.padbs.toNat = 0 ∧ s.ilen.toNat < t.olen.toNat ∧ OutputFrame s t

/-- 44_pkcs7.md R219 with R216, R222: PKCS7_CHECK's word; its faults in order; otherwise it completes, PINV is 1 exactly
when the buffer is invalid, and nothing else changes. An invalid buffer is no fault. -/
def Obligations.CheckWritesPinv : Prop :=
  encode .pkcs7Check = 0x00000031 ∧
  ∀ s : State,
    if s.params.bufMax < s.ilen.toNat then FaultsWith .pkcs7Check s 0x11
    else if s.padbs = 0 then FaultsWith .pkcs7Check s 0x18
    else ∃ b, exec .pkcs7Check s = .next { s with inFlight := none, done := true, pinv := b } ∧
      (b = true ↔ InvalidPadded s.ibuf s.ilen.toNat s.padbs.toNat)

/-- 44_pkcs7.md R220 with R216, R217, R222: PKCS7_UNPAD's word; its faults in order; otherwise it completes and OBUF holds
the input without its last `p` bytes, `p` the last byte's value (also when `p` exceeds the block size); PINV is not
written. -/
def Obligations.UnpadStripsThePadding : Prop :=
  encode .pkcs7Unpad = 0x00000032 ∧
  ∀ s : State, s.params.Valid →
    (s.params.bufMax < s.ilen.toNat → FaultsWith .pkcs7Unpad s 0x11) ∧
    (s.ilen.toNat ≤ s.params.bufMax → s.padbs = 0 → FaultsWith .pkcs7Unpad s 0x18) ∧
    (s.ilen.toNat ≤ s.params.bufMax → s.padbs ≠ 0 → InvalidPadded s.ibuf s.ilen.toNat s.padbs.toNat →
      FaultsWith .pkcs7Unpad s 0x01) ∧
    (s.ilen.toNat ≤ s.params.bufMax → s.padbs ≠ 0 → ¬ InvalidPadded s.ibuf s.ilen.toNat s.padbs.toNat →
      ∃ t, Completes .pkcs7Unpad s t ∧ t.olen.toNat = s.ilen.toNat - (s.ibuf (s.ilen.toNat - 1)).toNat ∧
        (∀ k < t.olen.toNat, t.obuf k = s.ibuf k) ∧ OutputFrame s t)

/-- 44_pkcs7.md R221: PKCS7_PAD, then XFER, then PKCS7_UNPAD gives back the input, for every block size 1..255 and every
input, the empty one among them, with `len + block size <= BUF_MAX`. -/
def Obligations.PkcsRoundTrip : Prop :=
  ∀ s : State, s.params.Valid → s.padbs ≠ 0 → s.ilen.toNat + s.padbs.toNat ≤ s.params.bufMax →
    ∃ t u v, Completes .pkcs7Pad s t ∧ Completes .xfer t u ∧ Completes .pkcs7Unpad u v ∧ v.olen = s.ilen ∧
      ∀ k < s.ilen.toNat, v.obuf k = s.ibuf k

/-- 45_hex_codec.md R238 with R235, R236: HEX_ENC's word; its faults in order; otherwise it completes, OLEN is `2 * ILEN`
and each byte gives two lowercase hex characters, most significant nibble first. -/
def Obligations.HexEncWritesTwoCharactersAByte : Prop :=
  encode .hexEnc = 0x00000038 ∧
  ∀ s : State, s.params.Valid →
    if s.params.bufMax < s.ilen.toNat then FaultsWith .hexEnc s 0x11
    else if s.params.bufMax < 2 * s.ilen.toNat then FaultsWith .hexEnc s 0x12
    else ∃ t, Completes .hexEnc s t ∧ t.olen.toNat = 2 * s.ilen.toNat ∧
      (∀ k < s.ilen.toNat, t.obuf (2 * k) = hexDigits.getD ((s.ibuf k).toNat / 16) 0 ∧
        t.obuf (2 * k + 1) = hexDigits.getD ((s.ibuf k).toNat % 16) 0) ∧ OutputFrame s t

/-- 45_hex_codec.md R239 with R235, R237: HEX_DEC's word; its faults in order; otherwise it completes, OLEN is
`ILEN div 2`, and each pair of characters gives the byte they spell; an odd last character is not looked at. -/
def Obligations.HexDecReadsTwoCharactersAByte : Prop :=
  encode .hexDec = 0x00000039 ∧
  ∀ s : State, s.params.Valid →
    (s.params.bufMax < s.ilen.toNat → FaultsWith .hexDec s 0x11) ∧
    (s.ilen.toNat ≤ s.params.bufMax → (∃ k < 2 * (s.ilen.toNat / 2), s.ibuf k ∉ hexDigits) → FaultsWith .hexDec s 0x17) ∧
    (s.ilen.toNat ≤ s.params.bufMax → (∀ k < 2 * (s.ilen.toNat / 2), s.ibuf k ∈ hexDigits) →
      ∃ t, Completes .hexDec s t ∧ t.olen.toNat = s.ilen.toNat / 2 ∧
        (∀ k < s.ilen.toNat / 2, ∀ x < 16, ∀ y < 16, s.ibuf (2 * k) = hexDigits.getD x 0 →
          s.ibuf (2 * k + 1) = hexDigits.getD y 0 → (t.obuf k).toNat = 16 * x + y) ∧ OutputFrame s t)

/-- 45_hex_codec.md R240: HEX_ENC, then XFER, then HEX_DEC gives back the input when its text fits the buffer. -/
def Obligations.HexRoundTrip : Prop :=
  ∀ s : State, s.params.Valid → 2 * s.ilen.toNat ≤ s.params.bufMax →
    ∃ t u v, Completes .hexEnc s t ∧ Completes .xfer t u ∧ Completes .hexDec u v ∧ v.olen = s.ilen ∧
      ∀ k < s.ilen.toNat, v.obuf k = s.ibuf k

/-! ### Host software -/

/-- 46_host_sequences.md R253: `modInverse` gives the `x` with `0 <= x < m` and `a*x ≡ 1 (mod m)`, and fails with
NoInverse when `gcd(a, m) ≠ 1`. The range is general knowledge by the spec's own mark. -/
def Obligations.ModInverseOrNoInverse : Prop :=
  ∀ a m : Nat, 2 ≤ m →
    (Nat.gcd a m = 1 → ∃ x, modInverse a m = .ok x ∧ x < m ∧ a * x % m = 1) ∧
    (Nat.gcd a m ≠ 1 → modInverse a m = .error .noInverse)

/-- 46_host_sequences.md R265: left-padding the recovered buffer to its length restores it, since `export` loses leading
zero bytes only. -/
def Obligations.LeftPaddingRestoresKeyMaterial : Prop :=
  ∀ b : Buffer, leftPad b.length (exportBytes (importBytes b)) = b

/-- 30_encoding.md R100, run with no command in flight: LDKEY of a key it takes leaves the key's bytes in KEY and its
length in KLEN, LDIV of sixteen bytes leaves them in IV, each with everything else as before, and neither exists for a
buffer of another length (log entry 17). RDBUF reads OLEN and then the words of OBUF, its result is `OBUF[0 .. OLEN-1]`, and it changes
nothing but the model's record of the words read (log entry 5) and of the operations to come (log entry 4). -/
def Obligations.KeyIvAndOutputPseudoOperations : Prop :=
  ∀ s : State, s.params.Valid → s.inFlight = none →
    (∀ k : Buffer, if k.length % 4 = 0 ∧ k.length ≤ s.params.keyBytesMax then
        ∃ ops t, ldKey s.params k = some ops ∧ core.run ops.length { s with host := ops ++ s.host } = .next t ∧
          t.klen.toNat = k.length ∧ (∀ j < k.length, t.key j = k.getD j 0) ∧
          (∀ a, (a < 0x0080 ∨ 0x0080 + k.length ≤ a) → t.mem.read a = s.mem.read a) ∧
          { t with mem := s.mem, klen := s.klen } = s
      else ldKey s.params k = none) ∧
    (∀ v : Buffer, if v.length = 16 then
        ∃ ops t, ldIv v = some ops ∧ core.run ops.length { s with host := ops ++ s.host } = .next t ∧
          (∀ j < 16, t.iv j = v.getD j 0) ∧
          (∀ a, (a < 0x0060 ∨ 0x0070 ≤ a) → t.mem.read a = s.mem.read a) ∧ { t with mem := s.mem } = s
      else ldIv v = none) ∧
    (s.olen.toNat ≤ s.params.bufMax →
      ∃ words : List Word, core.run (1 + (s.olen.toNat + 3) / 4) { s with host := rdBuf ++ s.host } =
          .next { s with observed := words.reverse ++ s.observed } ∧
        rdBufResult words = bufferOf s.obuf s.olen.toNat)
end

