-- ==== Sys2Proof/Laws/Aes.lean ====
section
/-! SUPPORT. The AES functions act bytewise on blocks; each round step is undone by its inverse; lengths of the key
schedule, of the cipher and of CBC. -/

namespace Sys2Proof.Machine

/-! ### Blocks -/

@[simp] theorem length_blockOf (f : Nat → Byte) : (blockOf f).length = 16 := by simp [blockOf]

theorem byteAt_blockOf (f : Nat → Byte) {i : Nat} (h : i < 16) : byteAt (blockOf f) i = f i := by
  simp [byteAt, blockOf, List.getD_eq_getElem?_getD, List.getElem?_map, List.getElem?_range h]

/-- Two blocks with equal bytes are equal. -/
theorem block_ext {a b : Buffer} (ha : a.length = 16) (hb : b.length = 16) (h : ∀ i < 16, byteAt a i = byteAt b i) :
    a = b := by
  apply List.ext_getElem (ha.trans hb.symm)
  intro i h1 h2
  have := h i (ha ▸ h1)
  simpa [byteAt, List.getD_eq_getElem, h1, h2] using this

/-- A block is the block of its bytes. -/
theorem blockOf_byteAt {s : Buffer} (h : s.length = 16) : blockOf (byteAt s) = s :=
  block_ext (by simp) h fun _ hi => byteAt_blockOf _ hi

/-- Blocks of bytewise equal functions are equal. -/
theorem blockOf_congr {f g : Nat → Byte} (h : ∀ i < 16, f i = g i) : blockOf f = blockOf g :=
  block_ext (by simp) (by simp) fun i hi => by rw [byteAt_blockOf f hi, byteAt_blockOf g hi, h i hi]

/-! ### The substitution tables -/

/-- The inverse table undoes the table (42_aes_block.md R163). -/
theorem invSbox_sbox : ∀ a : Byte, invSbox (sbox a) = a := by decide +kernel

theorem sbox_invSbox : ∀ a : Byte, sbox (invSbox a) = a := by decide +kernel

/-! ### Multiplication in the field -/

theorem gmul_eq (a b : Byte) : gmul a b =
    ((((((((0 ^^^ if b.getLsbD 0 then xtimes 0 a else 0) ^^^ if b.getLsbD 1 then xtimes 1 a else 0) ^^^
    if b.getLsbD 2 then xtimes 2 a else 0) ^^^ if b.getLsbD 3 then xtimes 3 a else 0) ^^^
    if b.getLsbD 4 then xtimes 4 a else 0) ^^^ if b.getLsbD 5 then xtimes 5 a else 0) ^^^
    if b.getLsbD 6 then xtimes 6 a else 0) ^^^ if b.getLsbD 7 then xtimes 7 a else 0) := by
  have step : ∀ (p : Bool) (acc t : Byte), (if p then acc ^^^ t else acc) = acc ^^^ if p then t else 0 := by
    intro p acc t; cases p <;> simp
  simp only [gmul, List.range, List.range.loop, List.foldl_cons, List.foldl_nil, step]

/-- Multiplication distributes over XOR (42_aes_block.md R161). -/
theorem gmul_xor (a x y : Byte) : gmul a (x ^^^ y) = gmul a x ^^^ gmul a y := by
  have bit : ∀ (p q : Bool) (t : Byte),
      (if (p ^^ q) then t else 0) = (if p then t else 0) ^^^ if q then t else 0 := by
    intro p q t; cases p <;> cases q <;> simp
  simp only [gmul_eq, BitVec.getLsbD_xor, bit]
  generalize (if x.getLsbD 0 then xtimes 0 a else 0) = x0
  generalize (if x.getLsbD 1 then xtimes 1 a else 0) = x1
  generalize (if x.getLsbD 2 then xtimes 2 a else 0) = x2
  generalize (if x.getLsbD 3 then xtimes 3 a else 0) = x3
  generalize (if x.getLsbD 4 then xtimes 4 a else 0) = x4
  generalize (if x.getLsbD 5 then xtimes 5 a else 0) = x5
  generalize (if x.getLsbD 6 then xtimes 6 a else 0) = x6
  generalize (if x.getLsbD 7 then xtimes 7 a else 0) = x7
  simp only [BitVec.ofNat_eq_ofNat, BitVec.zero_xor]
  ac_rfl

/-- A map of bytes that keeps XOR. -/
def Additive (f : Byte → Byte) : Prop := ∀ x y, f (x ^^^ y) = f x ^^^ f y

theorem Additive.zero {f : Byte → Byte} (h : Additive f) : f 0 = 0 := by
  have := h 0 0
  rwa [BitVec.xor_self, BitVec.xor_self] at this

/-- A byte is the XOR of the powers of two at its set bits. -/
theorem byte_bits : ∀ x : Byte, x =
    (if x.getLsbD 0 then BitVec.ofNat 8 1 else 0) ^^^ (if x.getLsbD 1 then BitVec.ofNat 8 2 else 0) ^^^
    (if x.getLsbD 2 then BitVec.ofNat 8 4 else 0) ^^^ (if x.getLsbD 3 then BitVec.ofNat 8 8 else 0) ^^^
    (if x.getLsbD 4 then BitVec.ofNat 8 16 else 0) ^^^ (if x.getLsbD 5 then BitVec.ofNat 8 32 else 0) ^^^
    (if x.getLsbD 6 then BitVec.ofNat 8 64 else 0) ^^^ (if x.getLsbD 7 then BitVec.ofNat 8 128 else 0) := by
  decide +kernel

/-- Two maps that keep XOR and agree on the powers of two are equal. -/
theorem Additive.ext {f g : Byte → Byte} (hf : Additive f) (hg : Additive g)
    (h : ∀ b ∈ ([1, 2, 4, 8, 16, 32, 64, 128] : List Nat), f (BitVec.ofNat 8 b) = g (BitVec.ofNat 8 b)) (x : Byte) :
    f x = g x := by
  have key : ∀ (c : Bool) (b : Nat), b ∈ ([1, 2, 4, 8, 16, 32, 64, 128] : List Nat) →
      f (if c then BitVec.ofNat 8 b else 0) = g (if c then BitVec.ofNat 8 b else 0) := by
    intro c b hb
    cases c
    · simp only [Bool.false_eq_true, if_false, hf.zero, hg.zero]
    · simp only [if_true, h b hb]
  rw [byte_bits x]
  simp only [hf _ _, hg _ _]
  rw [key _ 1 (by simp), key _ 2 (by simp), key _ 4 (by simp), key _ 8 (by simp), key _ 16 (by simp), key _ 32 (by simp),
    key _ 64 (by simp), key _ 128 (by simp)]

/-- One entry of the product of two circulant matrices, as a map of a byte. -/
def mixEntry (m' m : Nat → Byte) (r k : Nat) (x : Byte) : Byte :=
  gmul (m' ((r + 4) % 4)) (gmul (m ((0 + 4 - k) % 4)) x) ^^^ gmul (m' ((r + 3) % 4)) (gmul (m ((1 + 4 - k) % 4)) x) ^^^
  gmul (m' ((r + 2) % 4)) (gmul (m ((2 + 4 - k) % 4)) x) ^^^ gmul (m' ((r + 1) % 4)) (gmul (m ((3 + 4 - k) % 4)) x)

theorem mixEntry_additive (m' m : Nat → Byte) (r k : Nat) : Additive (mixEntry m' m r k) := by
  intro x y
  simp only [mixEntry, gmul_xor]
  ac_rfl

/-- `m'` undoes `m`: the sixteen entries of the product of the two matrices are the identity where row and column agree
and zero elsewhere. -/
def MixUndoes (m' m : Nat → Byte) : Prop := ∀ r < 4, ∀ k < 4, ∀ x : Byte, mixEntry m' m r k x = if r = k then x else 0

/-- It is enough to look at the powers of two. -/
theorem mixUndoes_of_basis {m' m : Nat → Byte} (h : ∀ r < 4, ∀ k < 4, ∀ b ∈ ([1, 2, 4, 8, 16, 32, 64, 128] : List Nat),
    mixEntry m' m r k (BitVec.ofNat 8 b) = if r = k then BitVec.ofNat 8 b else 0) : MixUndoes m' m := by
  intro r hr k hk
  refine Additive.ext (mixEntry_additive m' m r k) (fun x y => ?_) (h r hr k hk)
  split <;> simp

theorem mixUndoes_inv : MixUndoes invMixCoeff mixCoeff := mixUndoes_of_basis (by decide +kernel)
theorem mixUndoes_fwd : MixUndoes mixCoeff invMixCoeff := mixUndoes_of_basis (by decide +kernel)

/-- A byte of a mixed block, by column and row. -/
theorem byteAt_mixWith (m : Nat → Byte) (s : Buffer) {c r : Nat} (hc : c < 4) (hr : r < 4) :
    byteAt (mixWith m s) (4 * c + r) =
    gmul (m ((r + 4) % 4)) (byteAt s (4 * c)) ^^^ gmul (m ((r + 3) % 4)) (byteAt s (4 * c + 1)) ^^^
    gmul (m ((r + 2) % 4)) (byteAt s (4 * c + 2)) ^^^ gmul (m ((r + 1) % 4)) (byteAt s (4 * c + 3)) := by
  have h1 : (4 * c + r) % 4 = r := by omega
  have h2 : (4 * c + r) / 4 = c := by omega
  rw [mixWith, byteAt_blockOf _ (by omega), h1, h2]

/-- Mixing with a matrix and then with one that undoes it leaves a block. -/
theorem mixWith_mixWith {m' m : Nat → Byte} (hm : MixUndoes m' m) {s : Buffer} (h : s.length = 16) :
    mixWith m' (mixWith m s) = s := by
  apply block_ext (by simp [mixWith]) h
  intro i hi
  obtain ⟨c, r, hc, hr, rfl⟩ : ∃ c r, c < 4 ∧ r < 4 ∧ i = 4 * c + r := ⟨i / 4, i % 4, by omega, by omega, by omega⟩
  rw [byteAt_mixWith _ _ hc hr]
  have e0 := byteAt_mixWith m s hc (r := 0) (by norm_num)
  have e1 := byteAt_mixWith m s hc (r := 1) (by norm_num)
  have e2 := byteAt_mixWith m s hc (r := 2) (by norm_num)
  have e3 := byteAt_mixWith m s hc (r := 3) (by norm_num)
  rw [Nat.add_zero] at e0
  rw [e0, e1, e2, e3]
  have m0 := hm r hr 0 (by norm_num) (byteAt s (4 * c))
  have m1 := hm r hr 1 (by norm_num) (byteAt s (4 * c + 1))
  have m2 := hm r hr 2 (by norm_num) (byteAt s (4 * c + 2))
  have m3 := hm r hr 3 (by norm_num) (byteAt s (4 * c + 3))
  simp only [mixEntry, gmul_xor, Nat.reduceAdd, Nat.reduceMod, Nat.reduceSub] at m0 m1 m2 m3 ⊢
  have key : byteAt s (4 * c + r) =
      (if r = 0 then byteAt s (4 * c) else 0) ^^^ (if r = 1 then byteAt s (4 * c + 1) else 0) ^^^
      (if r = 2 then byteAt s (4 * c + 2) else 0) ^^^ (if r = 3 then byteAt s (4 * c + 3) else 0) := by
    interval_cases r <;> simp
  rw [key, ← m0, ← m1, ← m2, ← m3]
  ac_rfl

/-- InvMixColumns undoes MixColumns (42_aes_block.md R167). -/
theorem invMixColumns_mixColumns {s : Buffer} (h : s.length = 16) : invMixColumns (mixColumns s) = s :=
  mixWith_mixWith mixUndoes_inv h

/-- MixColumns undoes InvMixColumns. -/
theorem mixColumns_invMixColumns {s : Buffer} (h : s.length = 16) : mixColumns (invMixColumns s) = s :=
  mixWith_mixWith mixUndoes_fwd h

/-! ### Each step and its inverse -/

theorem invSubBytes_subBytes {s : Buffer} (h : s.length = 16) : invSubBytes (subBytes s) = s :=
  block_ext (by simp [invSubBytes]) h fun i hi => by
    rw [invSubBytes, subBytes, byteAt_blockOf _ hi, byteAt_blockOf _ hi, invSbox_sbox]

theorem invShiftRows_shiftRows {s : Buffer} (h : s.length = 16) : invShiftRows (shiftRows s) = s := by
  apply block_ext (by simp [invShiftRows]) h
  intro i hi
  rw [invShiftRows, byteAt_blockOf _ hi, shiftRows, byteAt_blockOf _ (by omega)]
  congr 1; omega

theorem subBytes_invSubBytes {s : Buffer} (h : s.length = 16) : subBytes (invSubBytes s) = s :=
  block_ext (by simp [subBytes]) h fun i hi => by
    rw [subBytes, invSubBytes, byteAt_blockOf _ hi, byteAt_blockOf _ hi, sbox_invSbox]

theorem shiftRows_invShiftRows {s : Buffer} (h : s.length = 16) : shiftRows (invShiftRows s) = s := by
  apply block_ext (by simp [shiftRows]) h
  intro i hi
  rw [shiftRows, byteAt_blockOf _ hi, invShiftRows, byteAt_blockOf _ (by omega)]
  congr 1; omega

/-- AddRoundKey is its own inverse (42_aes_block.md R169). -/
theorem addRoundKey_addRoundKey {s : Buffer} (rk : Buffer) (r : Nat) (h : s.length = 16) :
    addRoundKey (addRoundKey s rk r) rk r = s :=
  block_ext (by simp [addRoundKey]) h fun i hi => by
    rw [addRoundKey, addRoundKey, byteAt_blockOf _ hi, byteAt_blockOf _ hi, BitVec.xor_assoc, BitVec.xor_self,
      BitVec.xor_zero]

/-- XOR with a block twice leaves a block. -/
theorem xorBlock_xorBlock {a : Buffer} (b : Buffer) (h : a.length = 16) : xorBlock (xorBlock a b) b = a :=
  block_ext (by simp [xorBlock]) h fun i hi => by
    rw [xorBlock, xorBlock, byteAt_blockOf _ hi, byteAt_blockOf _ hi, BitVec.xor_assoc, BitVec.xor_self,
      BitVec.xor_zero]

/-! ### Lengths -/

@[simp] theorem length_subBytes (s : Buffer) : (subBytes s).length = 16 := by simp [subBytes]
@[simp] theorem length_shiftRows (s : Buffer) : (shiftRows s).length = 16 := by simp [shiftRows]
@[simp] theorem length_mixColumns (s : Buffer) : (mixColumns s).length = 16 := by simp [mixColumns, mixWith]
@[simp] theorem length_invSubBytes (s : Buffer) : (invSubBytes s).length = 16 := by simp [invSubBytes]
@[simp] theorem length_invShiftRows (s : Buffer) : (invShiftRows s).length = 16 := by simp [invShiftRows]
@[simp] theorem length_invMixColumns (s : Buffer) : (invMixColumns s).length = 16 := by simp [invMixColumns, mixWith]
@[simp] theorem length_addRoundKey (s rk : Buffer) (r : Nat) : (addRoundKey s rk r).length = 16 := by simp [addRoundKey]
@[simp] theorem length_xorBlock (a b : Buffer) : (xorBlock a b).length = 16 := by simp [xorBlock]
@[simp] theorem length_encRound (rk : Buffer) (nr r : Nat) (s : Buffer) : (encRound rk nr r s).length = 16 := by
  simp [encRound]

theorem length_encRounds (rk : Buffer) (nr r : Nat) {s : Buffer} (h : s.length = 16) :
    (encRounds rk nr r s).length = 16 := by
  cases r with
  | zero => exact h
  | succ r => simp [encRounds]

/-- The cipher answers a block. -/
@[simp] theorem length_cipher (b key : Buffer) : (cipher b key).length = 16 := length_encRounds _ _ _ (by simp)

/-- The inverse cipher answers a block. -/
@[simp] theorem length_invCipher (b key : Buffer) : (invCipher b key).length = 16 := by simp [invCipher]

@[simp] theorem length_scheduleNext (nk : Nat) (ws : List KeyWord) : (scheduleNext nk ws).length = ws.length + 1 := by
  simp [scheduleNext]

@[simp] theorem length_scheduleMore (nk n : Nat) (ws : List KeyWord) : (scheduleMore nk n ws).length = ws.length + n := by
  induction n generalizing ws with
  | zero => rfl
  | succ n ih => simp [scheduleMore, ih]; ring

theorem length_scheduleWords (key : Buffer) : (scheduleWords key).length = 4 * (key.length / 4 + 7) := by
  simp [scheduleWords]; ring

/-- The schedule has `16 * (Nk + 7)` bytes (42_aes_block.md R171). -/
theorem length_keyExpansion (key : Buffer) : (keyExpansion key).length = 16 * (key.length / 4 + 7) := by
  have : ∀ ws : List KeyWord, (ws.flatMap keyWordBytes).length = 4 * ws.length := by
    intro ws
    induction ws with
    | nil => rfl
    | cons w ws ih => simp [keyWordBytes, ih]; ring
  rw [keyExpansion, this, length_scheduleWords]; ring

theorem length_cbcEncryptGo (key : Buffer) (n : Nat) (ch p : Buffer) : (cbcEncryptGo key n ch p).length = 16 * n := by
  induction n generalizing ch p with
  | zero => rfl
  | succ n ih => simp [cbcEncryptGo, ih]; ring

theorem length_cbcDecryptGo (key : Buffer) (n : Nat) (ch c : Buffer) : (cbcDecryptGo key n ch c).length = 16 * n := by
  induction n generalizing ch c with
  | zero => rfl
  | succ n ih => simp [cbcDecryptGo, ih]; ring

/-- CBC encryption keeps the number of whole blocks (43_cbc.md R200). -/
theorem length_cbcEncrypt (p key iv : Buffer) : (cbcEncrypt p key iv).length = 16 * (p.length / 16) :=
  length_cbcEncryptGo _ _ _ _

/-- CBC decryption keeps the number of whole blocks (43_cbc.md R201). -/
theorem length_cbcDecrypt (c key iv : Buffer) : (cbcDecrypt c key iv).length = 16 * (c.length / 16) :=
  length_cbcDecryptGo _ _ _ _

/-! ### Bytes of the CBC outputs -/

theorem byteAt_append_left {a b : Buffer} {k : Nat} (h : k < a.length) : byteAt (a ++ b) k = byteAt a k :=
  List.getD_append _ _ _ _ h

theorem byteAt_append_right {a b : Buffer} {k : Nat} (h : a.length ≤ k) : byteAt (a ++ b) k = byteAt b (k - a.length) :=
  List.getD_append_right _ _ _ _ h

theorem byteAt_drop (a : Buffer) (n k : Nat) : byteAt (a.drop n) k = byteAt a (n + k) := by simp [byteAt]

theorem byteAt_take {a : Buffer} {n k : Nat} (h : k < n) : byteAt (a.take n) k = byteAt a k := by
  simp [byteAt, List.getD, h]

/-- Byte `i` of plaintext block `j` (43_cbc.md R201). -/
theorem byteAt_cbcDecryptGo (key : Buffer) (n : Nat) (ch c : Buffer) {j i : Nat} (hj : j < n) (hi : i < 16) :
    byteAt (cbcDecryptGo key n ch c) (16 * j + i) =
      byteAt (invCipher ((c.drop (16 * j)).take 16) key) i ^^^
        (if j = 0 then byteAt ch i else byteAt c (16 * (j - 1) + i)) := by
  induction n generalizing ch c j with
  | zero => omega
  | succ n ih =>
    cases j with
    | zero =>
      rw [cbcDecryptGo, byteAt_append_left (by simp; omega), Nat.mul_zero, Nat.zero_add, xorBlock, byteAt_blockOf _ hi]
      simp
    | succ j =>
      have h := ih (c.take 16) (c.drop 16) (j := j) (by omega)
      rw [cbcDecryptGo, byteAt_append_right (by simp; omega), length_xorBlock,
        show 16 * (j + 1) + i - 16 = 16 * j + i by omega, h, if_neg (Nat.succ_ne_zero j), List.drop_drop,
        show 16 + 16 * j = 16 * (j + 1) by ring]
      congr 1
      by_cases h0 : j = 0
      · subst h0; simp [byteAt_take hi]
      · rw [if_neg h0, byteAt_drop]; congr 1; omega

/-- Byte `i` of ciphertext block `j` (43_cbc.md R200). -/
theorem byteAt_cbcEncryptGo (key : Buffer) (n : Nat) (ch p : Buffer) {j i : Nat} (hj : j < n) (hi : i < 16) :
    byteAt (cbcEncryptGo key n ch p) (16 * j + i) =
      byteAt (cipher (blockOf fun k => byteAt p (16 * j + k) ^^^
        (if j = 0 then byteAt ch k else byteAt (cbcEncryptGo key n ch p) (16 * (j - 1) + k))) key) i := by
  induction n generalizing ch p j with
  | zero => omega
  | succ n ih =>
    cases j with
    | zero =>
      rw [cbcEncryptGo, byteAt_append_left (by simp; omega), Nat.mul_zero, Nat.zero_add]
      simp [xorBlock]
    | succ j =>
      have h := ih (cipher (xorBlock p ch) key) (p.drop 16) (j := j) (by omega)
      rw [cbcEncryptGo, byteAt_append_right (by simp; omega), length_cipher,
        show 16 * (j + 1) + i - 16 = 16 * j + i by omega, h]
      congr 2
      apply blockOf_congr
      intro k hk
      rw [byteAt_drop, show 16 + (16 * j + k) = 16 * (j + 1) + k by ring, if_neg (Nat.succ_ne_zero j), Nat.add_sub_cancel]
      congr 1
      by_cases h0 : j = 0
      · subst h0; rw [if_pos rfl, byteAt_append_left (by simp; omega)]; simp
      · rw [if_neg h0, byteAt_append_right (by simp; omega), length_cipher]; congr 1; omega

end Sys2Proof.Machine
end

