-- ==== Sys2Proof/Laws/BigInt.lean ====
section
/-! SUPPORT. What the big-integer functions compute: the fast modular power is the power, the inverse of a power of two
is one, and how import and export act on one more byte. -/

namespace Sys2Proof.Machine

theorem powModGo_eq (fuel a e n acc : Nat) (h : e < 2 ^ fuel) (hacc : acc < n) :
    powModGo fuel a e n acc = acc * a ^ e % n := by
  induction fuel generalizing a e acc with
  | zero =>
    have : e = 0 := by simpa using h
    simp [powModGo, this, Nat.mod_eq_of_lt hacc]
  | succ fuel ih =>
    have he : e / 2 < 2 ^ fuel := by rw [pow_succ] at h; omega
    have hpow : a ^ e = a ^ (e % 2) * (a * a) ^ (e / 2) := by
      rw [← sq, ← pow_mul, ← pow_add, Nat.mod_add_div]
    unfold powModGo
    by_cases hodd : e % 2 = 1
    · rw [if_pos hodd, ih _ _ _ he (Nat.mod_lt _ (by omega)), hpow, hodd, pow_one, ← mul_assoc]
      conv_lhs => rw [Nat.mul_mod, Nat.pow_mod, Nat.mod_mod, Nat.mod_mod]
      conv_rhs => rw [Nat.mul_mod, Nat.pow_mod]
    · have h0 : e % 2 = 0 := by omega
      rw [if_neg hodd, ih _ _ _ he hacc, hpow, h0, pow_zero, one_mul]
      conv_lhs => rw [Nat.mul_mod, Nat.pow_mod, Nat.mod_mod]
      conv_rhs => rw [Nat.mul_mod, Nat.pow_mod]

/-- The modular power the model computes is the power (41_bigint_rsa.md R133). -/
theorem powMod_eq (a e n : Nat) (hn : 0 < n) : powMod a e n = a ^ e % n := by
  unfold powMod
  rw [powModGo_eq _ _ _ _ _ (Nat.lt_log2_self) (Nat.mod_lt _ hn)]
  conv_lhs => rw [Nat.mul_mod, Nat.mod_mod, ← Nat.pow_mod, ← Nat.mul_mod, one_mul]

theorem powMod_lt (a e n : Nat) (hn : 0 < n) : powMod a e n < n := by
  rw [powMod_eq a e n hn]; exact Nat.mod_lt _ hn

/-- `invPowTwo k n` is an inverse of `2^k` modulo an odd `n`. -/
theorem invPowTwo_mul (k n : Nat) (h : n % 2 = 1) : invPowTwo k n * 2 ^ k % n = 1 % n := by
  have hn : 0 < n := by omega
  unfold invPowTwo
  rw [powMod_eq _ _ _ hn, Nat.mod_mul_mod, ← mul_pow]
  have h2 : (n + 1) / 2 * 2 = n + 1 := by omega
  rw [h2, Nat.pow_mod, Nat.add_mod_left, ← Nat.pow_mod, one_pow]

/-- `import` of a buffer with one more byte behind it. -/
theorem importBytes_append (b : Buffer) (x : Byte) : importBytes (b ++ [x]) = importBytes b * 256 + x.toNat := by
  simp [importBytes]

@[simp] theorem importBytes_nil : importBytes [] = 0 := rfl

theorem importBytes_foldl (b : Buffer) (acc : Nat) :
    b.foldl (fun acc (x : Byte) => acc * 256 + x.toNat) acc = acc * 256 ^ b.length + importBytes b := by
  induction b using List.reverseRecOn generalizing acc with
  | nil => simp
  | append_singleton b x ih =>
    rw [List.foldl_append, List.foldl_cons, List.foldl_nil, ih, importBytes_append, List.length_append]
    simp [pow_succ]; ring

/-- `import` of a buffer by its first byte. -/
theorem importBytes_cons (x : Byte) (b : Buffer) :
    importBytes (x :: b) = x.toNat * 256 ^ b.length + importBytes b := by
  have := importBytes_foldl b x.toNat
  simpa [importBytes] using this

theorem importBytes_lt (b : Buffer) : importBytes b < 256 ^ b.length := by
  induction b using List.reverseRecOn with
  | nil => simp
  | append_singleton b x ih =>
    rw [importBytes_append, List.length_append, List.length_singleton, pow_succ]
    have := x.isLt
    omega

/-- The bytes `exportGo` puts in front are those of `v`, whatever stands behind. -/
theorem exportGo_acc (fuel v : Nat) (acc : Buffer) : exportGo fuel v acc = exportGo fuel v [] ++ acc := by
  induction fuel generalizing v acc with
  | zero => rfl
  | succ fuel ih =>
    unfold exportGo
    by_cases h : v = 0
    · simp [h]
    · rw [if_neg h, if_neg h, ih, ih (v / 256) [_]]; simp

/-- `export` by its last byte, with enough fuel. -/
theorem exportGo_succ (fuel v : Nat) (h : v ≠ 0) :
    exportGo (fuel + 1) v [] = exportGo fuel (v / 256) [] ++ [BitVec.ofNat 8 v] := by
  rw [exportGo, if_neg h, exportGo_acc]

theorem exportGo_fuel (v : Nat) {f g : Nat} (hf : v < 256 ^ f) (hg : v < 256 ^ g) :
    exportGo f v [] = exportGo g v [] := by
  induction f generalizing v g with
  | zero =>
    have : v = 0 := by simpa using hf
    subst this
    cases g <;> simp [exportGo]
  | succ f ih =>
    by_cases h : v = 0
    · subst h; cases g <;> simp [exportGo]
    · cases g with
      | zero => exact absurd (by simpa using hg) h
      | succ g =>
        rw [exportGo_succ _ _ h, exportGo_succ _ _ h,
          ih (v / 256) (g := g) (by rw [pow_succ] at hf; omega) (by rw [pow_succ] at hg; omega)]

theorem lt_exportFuel (v : Nat) : v < 256 ^ (Nat.log2 v / 8 + 1) := by
  have h := Nat.lt_log2_self (n := v)
  calc v < 2 ^ (Nat.log2 v + 1) := h
    _ ≤ 2 ^ (8 * (Nat.log2 v / 8 + 1)) := Nat.pow_le_pow_right (by norm_num) (by omega)
    _ = 256 ^ (Nat.log2 v / 8 + 1) := by rw [pow_mul]; norm_num

/-- `export(0)` is the empty buffer (41_bigint_rsa.md R131). -/
@[simp] theorem exportBytes_zero : exportBytes 0 = [] := by simp [exportBytes, exportGo]

/-- `export` of a positive number: its last byte behind the export of the rest. -/
theorem exportBytes_pos (v : Nat) (h : v ≠ 0) : exportBytes v = exportBytes (v / 256) ++ [BitVec.ofNat 8 v] := by
  have hv := lt_exportFuel v
  unfold exportBytes
  rw [exportGo_succ _ _ h, exportGo_fuel (v / 256) (g := Nat.log2 (v / 256) / 8 + 1) ?_ (lt_exportFuel _)]
  rw [pow_succ] at hv; omega

/-- `export` of a number below `256^n` has at most `n` bytes. -/
theorem length_exportBytes_le (v n : Nat) (h : v < 256 ^ n) : (exportBytes v).length ≤ n := by
  induction n generalizing v with
  | zero =>
    have : v = 0 := by simpa using h
    simp [this]
  | succ n ih =>
    by_cases hv : v = 0
    · simp [hv]
    · rw [exportBytes_pos v hv, List.length_append, List.length_singleton]
      have := ih (v / 256) (by rw [pow_succ] at h; omega)
      omega

/-- `export` loses no number (41_bigint_rsa.md R131). -/
@[simp] theorem importBytes_exportBytes (v : Nat) : importBytes (exportBytes v) = v := by
  induction v using Nat.strong_induction_on with
  | _ v ih =>
    by_cases h : v = 0
    · subst h; simp
    · rw [exportBytes_pos v h, importBytes_append, ih _ (by omega)]
      simp only [BitVec.toNat_ofNat]; omega

/-- The first byte of an export is not 0, if there is one (41_bigint_rsa.md R131). -/
theorem exportBytes_first (v : Nat) (h : v ≠ 0) : (exportBytes v).getD 0 0 ≠ 0 ∧ exportBytes v ≠ [] := by
  induction v using Nat.strong_induction_on with
  | _ v ih =>
    rw [exportBytes_pos v h]
    by_cases h2 : v / 256 = 0
    · rw [h2, exportBytes_zero]
      refine ⟨fun h3 => ?_, by simp⟩
      have := congrArg BitVec.toNat h3
      simp at this; omega
    · obtain ⟨h3, h4⟩ := ih _ (by omega) h2
      refine ⟨?_, by simp⟩
      cases hc : exportBytes (v / 256) with
      | nil => exact (h4 hc).elim
      | cons a l => rw [hc] at h3; simpa using h3

/-- Buffers of one length with one number are equal (41_bigint_rsa.md R130). -/
theorem importBytes_inj {a b : Buffer} (hl : a.length = b.length) (h : importBytes a = importBytes b) : a = b := by
  induction a generalizing b with
  | nil => cases b <;> simp_all
  | cons x a ih =>
    cases b with
    | nil => simp at hl
    | cons y b =>
      simp only [List.length_cons, Nat.add_right_cancel_iff] at hl
      rw [importBytes_cons, importBytes_cons, hl] at h
      have h1 := importBytes_lt a
      have h2 := importBytes_lt b
      rw [hl] at h1
      have hx : x.toNat = y.toNat := by
        have : (x.toNat * 256 ^ b.length + importBytes a) / 256 ^ b.length =
            (y.toNat * 256 ^ b.length + importBytes b) / 256 ^ b.length := by rw [h]
        rw [mul_comm, Nat.mul_add_div (by positivity), Nat.div_eq_of_lt h1, mul_comm, Nat.mul_add_div (by positivity),
          Nat.div_eq_of_lt h2] at this
        simpa using this
      obtain rfl := BitVec.eq_of_toNat_eq hx
      rw [ih hl (by omega)]

/-- The Montgomery product as a congruence: for an odd modulus the radix is a unit (41_bigint_rsa.md R134). -/
theorem montMul_spec {k n : Nat} (a b : Nat) (h : n % 2 = 1) : montMul k a b n * 2 ^ k ≡ a * b [MOD n] := by
  have := invPowTwo_mul k n h
  unfold montMul Nat.ModEq
  rw [Nat.mod_mul_mod, mul_assoc, Nat.mul_mod, this, ← Nat.mul_mod, mul_one]

theorem coprime_radix {n : Nat} (k : Nat) (h : n % 2 = 1) : Nat.Coprime n (2 ^ k) := by
  apply Nat.Coprime.pow_right
  rw [Nat.coprime_comm, Nat.coprime_two_left]
  exact Nat.odd_iff.2 h

end Sys2Proof.Machine
end

