-- ==== Sys2Proof/Laws/Bus.lean ====
section
/-! SUPPORT. The environment's turn as a step, the windows of the address map, and bus words as numbers. -/

namespace Sys2Proof.Machine

/-! ### The two kinds of step -/

/-- With no command in flight the step is the environment's next operation. -/
theorem step_idle {s : State} (h : s.inFlight = none) (op : HostOp) (rest : List HostOp) :
    step { s with host := op :: rest } = hostOp { s with host := rest } op := by
  cases s; cases h; rfl

/-- While a command waits the step is the environment's next operation, and the command is one step nearer. -/
theorem step_waiting {s : State} {w : Word} {n : Nat} (h : s.inFlight = some { word := w, wait := n + 1 })
    (op : HostOp) (rest : List HostOp) :
    step { s with host := op :: rest } =
      hostOp { s with host := rest, inFlight := some { word := w, wait := n } } op := by
  cases s; cases h; rfl

/-- When the engine step is due the step is the engine's. -/
theorem step_due {s : State} {w : Word} (h : s.inFlight = some { word := w, wait := 0 }) : step s = engineStep w s := by
  simp only [step, machineStep, h, if_true]

theorem hostOp_read {s : State} {a : Nat} (ha : a < 65536) (h : a % 4 = 0) :
    hostOp s (.read (BitVec.ofNat 16 a)) = .next (s.observe (busRead s a)) := by
  simp [hostOp, Nat.mod_eq_of_lt ha, h]

theorem hostOp_write {s : State} {a : Nat} (ha : a < 65536) (h : a % 4 = 0) (w : Word) :
    hostOp s (.write (BitVec.ofNat 16 a) w) = .next (busWrite s a w) := by
  simp [hostOp, Nat.mod_eq_of_lt ha, h]

theorem busRead_idle {s : State} (h : s.inFlight = none) (a : Nat) : busRead s a = idleRead s a := by
  simp [busRead, State.busy, h]

theorem busRead_busy {s : State} {f : Flight} (h : s.inFlight = some f) (a : Nat) : busRead s a = busyRead s a := by
  simp [busRead, State.busy, h]

theorem busWrite_busy {s : State} {f : Flight} (h : s.inFlight = some f) (a : Nat) (w : Word) : busWrite s a w = s := by
  simp [busWrite, State.busy, h]

/-! ### The windows of the address map (20_memory.md R62) -/

theorem inWindow_iff {a base len : Nat} : inWindow a base len = true ↔ base ≤ a ∧ a < base + len := by
  unfold inWindow
  rw [Bool.and_eq_true]
  exact and_congr decide_eq_true_iff decide_eq_true_iff

/-- Above the last register every offset is in one of the four windows or in none. -/
theorem regionOf_above (p : Params) {a : Nat} (h : 0x0028 < a) :
    regionOf p a = if 0x0060 ≤ a ∧ a < 0x0070 then .iv
      else if 0x0080 ≤ a ∧ a < 0x0080 + p.keyBytesMax then .key
      else if 0x1000 ≤ a ∧ a < 0x1000 + p.bufMax then .ibuf
      else if 0x2000 ≤ a ∧ a < 0x2000 + p.bufMax then .obuf
      else .unmapped := by
  have e : ∀ k ≤ 0x0028, a ≠ k := fun k hk => by omega
  simp only [regionOf, if_neg (e _ (by norm_num : 0x0000 ≤ 0x0028)), if_neg (e _ (by norm_num : 0x0004 ≤ 0x0028)),
    if_neg (e _ (by norm_num : 0x0008 ≤ 0x0028)), if_neg (e _ (by norm_num : 0x0010 ≤ 0x0028)),
    if_neg (e _ (by norm_num : 0x0014 ≤ 0x0028)), if_neg (e _ (by norm_num : 0x0018 ≤ 0x0028)),
    if_neg (e _ (by norm_num : 0x001C ≤ 0x0028)), if_neg (e _ (by norm_num : 0x0020 ≤ 0x0028)),
    if_neg (e _ (by norm_num : 0x0024 ≤ 0x0028)), if_neg (e _ (by norm_num : 0x0028 ≤ 0x0028))]
  simp only [inWindow_iff, ivBase, keyBase, ibufBase, obufBase, Config.block]

/-! ### Words as numbers -/

/-- A word of four bytes, lane 0 last in the append (20_memory.md R67). -/
theorem toNat_lanes (b0 b1 b2 b3 : Byte) :
    (b3 ++ b2 ++ b1 ++ b0).toNat = b0.toNat + 256 * b1.toNat + 65536 * b2.toNat + 16777216 * b3.toNat := by
  have := b0.isLt
  have := b1.isLt
  have := b2.isLt
  simp only [BitVec.toNat_append]
  rw [← Nat.shiftLeft_add_eq_or_of_lt, ← Nat.shiftLeft_add_eq_or_of_lt, ← Nat.shiftLeft_add_eq_or_of_lt]
  all_goals try simp only [Nat.shiftLeft_eq]
  all_goals omega

/-- CFG0 as a number (10_state.md R21). -/
theorem cfg0Word_eq (p : Params) (hm : p.mpBits < 65536) :
    cfg0Word p = BitVec.ofNat 32 (p.bufMax * 65536 + p.mpBits) := by
  apply BitVec.eq_of_toNat_eq
  simp only [cfg0Word, BitVec.toNat_append, BitVec.toNat_ofNat]
  rw [← Nat.shiftLeft_add_eq_or_of_lt (by omega), Nat.shiftLeft_eq]
  omega

/-- CFG1 as a number (10_state.md R21). -/
theorem cfg1Word_eq (p : Params) (hk : p.keyBytesMax < 256) :
    cfg1Word p = BitVec.ofNat 32 (1 * 65536 + 16 * 256 + p.keyBytesMax) := by
  have h : cfg1Word p = BitVec.ofNat 24 0x110 ++ BitVec.ofNat 8 p.keyBytesMax := by
    simp only [cfg1Word]; rfl
  rw [h]
  apply BitVec.eq_of_toNat_eq
  simp only [BitVec.toNat_append, BitVec.toNat_ofNat]
  rw [← Nat.shiftLeft_add_eq_or_of_lt (by omega), Nat.shiftLeft_eq]
  omega

/-- Lane `k` of a word as a number. -/
theorem lanes_getD (w : Word) {k : Nat} (h : k < 4) : (lanes w).getD k 0 = BitVec.ofNat 8 (w.toNat / 256 ^ k) := by
  interval_cases k <;>
    (apply BitVec.eq_of_toNat_eq; simp [lanes, Nat.shiftRight_eq_div_pow])

@[simp] theorem length_lanes (w : Word) : (lanes w).length = 4 := rfl

end Sys2Proof.Machine
end

