-- ==== Sys2Proof/Laws/Codec.lean ====
section
/-! SUPPORT. Lengths and single characters of the hex codec, and the pad count. -/

namespace Sys2Proof.Machine

@[simp] theorem length_hexEncode (b : Buffer) : (hexEncode b).length = 2 * b.length := by
  induction b with
  | nil => rfl
  | cons x b ih => simp [hexEncode, ih]; ring

theorem length_hexDecode (t b : Buffer) (h : hexDecode t = some b) : b.length = t.length / 2 := by
  induction t using hexDecode.induct generalizing b with
  | case1 => simp_all [hexDecode]
  | case2 => simp_all [hexDecode]
  | case3 h' l t x y hx hy ih =>
    simp only [hexDecode, hx, hy, Option.map_eq_some_iff] at h
    obtain ⟨bs, h1, rfl⟩ := h
    simp [ih bs h1]; omega
  | case4 h' l t hn =>
    unfold hexDecode at h
    split at h
    · next x y hx hy => exact (hn x y hx hy).elim
    · simp at h

/-- A character of a nibble decodes to the nibble (45_hex_codec.md R235). -/
theorem hexVal_hexChar : ∀ v < 16, hexVal (hexChar v) = some v := by decide

theorem padCount_pos {len bs : Nat} (h : 0 < bs) : 0 < padCount len bs := by
  have := Nat.mod_lt len h
  unfold padCount; omega

theorem padCount_le (len bs : Nat) : padCount len bs ≤ bs := Nat.sub_le _ _

/-- The padded length is a multiple of the block size (44_pkcs7.md R215). -/
theorem add_padCount_mod {len bs : Nat} (h : 0 < bs) : (len + padCount len bs) % bs = 0 := by
  have h1 := Nat.mod_add_div len bs
  have h2 := Nat.mod_lt len h
  unfold padCount
  have : len + (bs - len % bs) = bs * (len / bs + 1) := by rw [Nat.mul_add]; omega
  rw [this, Nat.mul_mod_right]

@[simp] theorem length_padBytes (x : Buffer) (bs : Nat) : (padBytes x bs).length = x.length + padCount x.length bs := by
  simp [padBytes]

/-- The decoder of the hex text of a buffer gives the buffer back (45_hex_codec.md R236, R237). -/
@[simp] theorem hexDecode_hexEncode (b : Buffer) : hexDecode (hexEncode b) = some b := by
  induction b with
  | nil => rfl
  | cons x b ih =>
    have := x.isLt
    simp only [hexEncode, hexDecode, hexVal_hexChar _ (by omega : x.toNat / 16 < 16),
      hexVal_hexChar _ (by omega : x.toNat % 16 < 16), ih, Option.map_some, Option.some.injEq, List.cons.injEq, and_true]
    rw [show x.toNat / 16 * 16 + x.toNat % 16 = x.toNat by omega]
    exact BitVec.eq_of_toNat_eq (by simp)

/-- Two characters of the hex text of a buffer. -/
theorem getD_hexEncode (b : Buffer) {k : Nat} (h : k < b.length) :
    (hexEncode b).getD (2 * k) 0 = hexChar ((b.getD k 0).toNat / 16) ∧
    (hexEncode b).getD (2 * k + 1) 0 = hexChar ((b.getD k 0).toNat % 16) := by
  induction b generalizing k with
  | nil => simp at h
  | cons x b ih =>
    cases k with
    | zero => simp [hexEncode]
    | succ k =>
      have := ih (k := k) (by simpa using h)
      simpa [hexEncode, show 2 * (k + 1) = 2 * k + 1 + 1 by ring] using this

/-- The last byte of a padded buffer is the pad count (44_pkcs7.md R215). -/
theorem getD_padBytes (x : Buffer) (bs : Nat) {k : Nat} (h1 : x.length ≤ k) (h2 : k < x.length + padCount x.length bs) :
    (padBytes x bs).getD k 0 = BitVec.ofNat 8 (padCount x.length bs) := by
  rw [padBytes, List.getD_append_right _ _ _ _ h1, List.getD_eq_getElem _ _ (by simp; omega)]
  simp

theorem lastByte_padBytes (x : Buffer) {bs : Nat} (h : 0 < bs) :
    lastByte (padBytes x bs) = BitVec.ofNat 8 (padCount x.length bs) := by
  have := padCount_pos (len := x.length) h
  rw [lastByte, length_padBytes]
  exact getD_padBytes _ _ (by omega) (by omega)

/-- A padded buffer is valid, for a block size of one byte (44_pkcs7.md R221). -/
theorem checkInvalid_padBytes (x : Buffer) {bs : Nat} (h : 0 < bs) (h2 : bs < 256) : checkInvalid (padBytes x bs) bs = false := by
  have h3 := padCount_pos (len := x.length) h
  have h4 := padCount_le x.length bs
  have h5 : (BitVec.ofNat 8 (padCount x.length bs)).toNat = padCount x.length bs := by simp; omega
  have h6 : BitVec.ofNat 8 (padCount x.length bs) ≠ 0 := fun hc => by
    have := congrArg BitVec.toNat hc
    rw [h5] at this; simp at this; omega
  rw [checkInvalid, lastByte_padBytes x h, h5, length_padBytes, if_neg (by omega), if_neg (by rw [add_padCount_mod h]; simp),
    if_neg (by simp only [h6, false_or]; omega)]
  simp only [List.any_eq_false, List.mem_range, bne_iff_ne, ne_eq, not_not]
  intro i hi
  exact getD_padBytes _ _ (by omega) (by omega)

/-- Stripping a padded buffer gives the buffer back (44_pkcs7.md R221). -/
theorem stripPad_padBytes (x : Buffer) {bs : Nat} (h : 0 < bs) (h2 : bs < 256) : stripPad (padBytes x bs) = x := by
  have h4 := padCount_le x.length bs
  have h5 : (BitVec.ofNat 8 (padCount x.length bs)).toNat = padCount x.length bs := by simp; omega
  rw [stripPad, lastByte_padBytes x h, h5, length_padBytes, Nat.add_sub_cancel, padBytes, List.take_left']
  rfl

end Sys2Proof.Machine
end

