-- ==== Sys2Proof/Laws/Decode.lean ====
section
/-! SUPPORT. The four fields of a command word: as numbers, and as the parts a word is made of (30_encoding.md R90). -/

namespace Sys2Proof

theorem opField_toNat (w : Word) : (opField w).toNat = w.toNat % 256 := by simp [opField]

theorem rdField_toNat (w : Word) : (rdField w).toNat = w.toNat / 256 % 16 := by
  simp [rdField, Nat.shiftRight_eq_div_pow]

theorem rsField_toNat (w : Word) : (rsField w).toNat = w.toNat / 4096 % 16 := by
  simp [rsField, Nat.shiftRight_eq_div_pow]

theorem zeroField_toNat (w : Word) : (zeroField w).toNat = w.toNat / 65536 := by
  have := w.isLt
  simp [zeroField, Nat.shiftRight_eq_div_pow]; omega

/-- A word made of the four fields, as a number. -/
theorem toNat_fields (z : BitVec 16) (rs rd : Selector) (op : BitVec 8) :
    (z ++ rs ++ rd ++ op).toNat = op.toNat + 256 * rd.toNat + 4096 * rs.toNat + 65536 * z.toNat := by
  have := op.isLt
  have := rd.isLt
  have := rs.isLt
  simp only [BitVec.toNat_append]
  rw [← Nat.shiftLeft_add_eq_or_of_lt, ← Nat.shiftLeft_add_eq_or_of_lt, ← Nat.shiftLeft_add_eq_or_of_lt]
  all_goals try simp only [Nat.shiftLeft_eq]
  all_goals omega

/-- A word is its four fields. -/
theorem word_eq_fields (w : Word) : w = zeroField w ++ rsField w ++ rdField w ++ opField w := by
  apply BitVec.eq_of_toNat_eq
  rw [toNat_fields, opField_toNat, rdField_toNat, rsField_toNat, zeroField_toNat]
  omega

/-- Words with equal fields, and only those, are equal. -/
theorem fields_inj (z z' : BitVec 16) (rs rd rs' rd' : Selector) (op op' : BitVec 8) :
    z ++ rs ++ rd ++ op = z' ++ rs' ++ rd' ++ op' ↔ z = z' ∧ rs = rs' ∧ rd = rd' ∧ op = op' := by
  constructor
  · intro h
    have h := congrArg BitVec.toNat h
    rw [toNat_fields, toNat_fields] at h
    have := op.isLt
    have := rd.isLt
    have := rs.isLt
    have := op'.isLt
    have := rd'.isLt
    have := rs'.isLt
    refine ⟨?_, ?_, ?_, ?_⟩ <;> apply BitVec.eq_of_toNat_eq <;> omega
  · rintro ⟨rfl, rfl, rfl, rfl⟩; rfl

/-- The fields of a word that was made of them. -/
theorem fields_packed (z : BitVec 16) (rs rd : Selector) (op : BitVec 8) :
    zeroField (z ++ rs ++ rd ++ op) = z ∧ rsField (z ++ rs ++ rd ++ op) = rs ∧
    rdField (z ++ rs ++ rd ++ op) = rd ∧ opField (z ++ rs ++ rd ++ op) = op :=
  let h := (fields_inj _ _ _ _ _ _ _ _).1 (word_eq_fields (z ++ rs ++ rd ++ op))
  ⟨h.1.symm, h.2.1.symm, h.2.2.1.symm, h.2.2.2.symm⟩

/-- Masking a word masks each field. -/
theorem and_fields (z z' : BitVec 16) (rs rd rs' rd' : Selector) (op op' : BitVec 8) :
    (z ++ rs ++ rd ++ op) &&& (z' ++ rs' ++ rd' ++ op') =
      (z &&& z') ++ (rs &&& rs') ++ (rd &&& rd') ++ (op &&& op') := by
  apply BitVec.eq_of_getLsbD_eq
  intro i _
  simp only [BitVec.getLsbD_append, BitVec.getLsbD_and]
  repeat' split
  all_goals rfl

end Sys2Proof
end

