-- ==== Sys2Proof/Laws/Memory.lean ====
section
/-! SUPPORT. What the memory operations do: a read after a write, what a write leaves alone, and that every write keeps
the canonical form. -/

namespace Sys2Proof.Machine

@[simp] theorem Memory.read_nil (x : Nat) : Memory.read [] x = Config.unlisted := rfl

theorem Memory.read_erase (m : Memory) (x y : Nat) :
    (m.erase x).read y = if y = x then Config.unlisted else m.read y := by
  induction m with
  | nil => simp [Memory.erase]
  | cons c m ih =>
    obtain ⟨a, b⟩ := c
    simp only [Memory.erase] at ih
    by_cases hax : a = x
    · subst hax
      by_cases hy : y = a
      · simpa [Memory.erase, hy] using ih
      · have : a ≠ y := fun h => hy h.symm
        simpa [Memory.erase, Memory.read, hy, this] using ih
    · by_cases hay : a = y
      · subst hay; simp [Memory.erase, Memory.read, hax]
      · simp [Memory.erase, Memory.read, hax, hay, ih]

theorem Memory.read_insert (m : Memory) (x y : Nat) (v : Byte) (h : ∀ c ∈ m, c.1 ≠ x) :
    (m.insert x v).read y = if y = x then v else m.read y := by
  induction m with
  | nil =>
    by_cases hy : y = x
    · simp [Memory.insert, Memory.read, hy]
    · simp [Memory.insert, Memory.read, hy, Ne.symm hy]
  | cons c m ih =>
    obtain ⟨a, b⟩ := c
    have hax : a ≠ x := h (a, b) (by simp)
    have ih := ih fun c hc => h c (by simp [hc])
    unfold Memory.insert
    split
    · by_cases hy : y = x
      · simp [Memory.read, hy]
      · simp [Memory.read, hy, Ne.symm hy]
    · by_cases hay : a = y
      · subst hay; simp [Memory.read, hax]
      · simp [Memory.read, hay, ih]

/-- A read after a write: the byte written at its offset, the byte before everywhere else. -/
theorem Memory.read_write (m : Memory) (x y : Nat) (v : Byte) :
    (m.write x v).read y = if y = x then v else m.read y := by
  unfold Memory.write
  split
  · next h => subst h; exact Memory.read_erase m x y
  · rw [Memory.read_insert _ _ _ _ (by simp [Memory.erase]), Memory.read_erase]
    split <;> simp_all

/-- A read after a buffer was written: the buffer's byte inside, the byte before outside. -/
theorem Memory.read_writeBytes (m : Memory) (base : Nat) (b : Buffer) (y : Nat) :
    (m.writeBytes base b).read y = if base ≤ y ∧ y < base + b.length then b.getD (y - base) 0 else m.read y := by
  induction b generalizing m base with
  | nil => rw [if_neg (by simp)]; rfl
  | cons c b ih =>
    rw [Memory.writeBytes, ih, Memory.read_write]
    by_cases hy : y = base
    · subst hy; simp
    · by_cases hlt : y < base
      · rw [if_neg (by omega), if_neg hy, if_neg (by omega)]
      · by_cases hin : y < base + (c :: b).length
        · have : y - base = (y - (base + 1)) + 1 := by omega
          rw [if_pos (by simp at hin ⊢; omega), if_pos (by omega), this, List.getD_cons_succ]
        · rw [if_neg (by simp at hin ⊢; omega), if_neg hy, if_neg (by omega)]

theorem Memory.read_writeBytes_inside {m : Memory} {base : Nat} {b : Buffer} {k : Nat} (h : k < b.length) :
    (m.writeBytes base b).read (base + k) = b.getD k 0 := by
  rw [Memory.read_writeBytes, if_pos (by omega), Nat.add_sub_cancel_left]

theorem Memory.read_writeBytes_outside {m : Memory} {base : Nat} {b : Buffer} {y : Nat}
    (h : y < base ∨ base + b.length ≤ y) : (m.writeBytes base b).read y = m.read y := by
  rw [Memory.read_writeBytes, if_neg (by omega)]

@[simp] theorem Memory.length_readBytes (m : Memory) (base n : Nat) : (m.readBytes base n).length = n := by
  induction n generalizing base with
  | zero => rfl
  | succ n ih => simp [Memory.readBytes, ih]

/-- Byte `k` of a buffer that was read. -/
theorem Memory.getElem_readBytes (m : Memory) (base n k : Nat) (h : k < (m.readBytes base n).length) :
    (m.readBytes base n)[k] = m.read (base + k) := by
  induction n generalizing base k with
  | zero => simp [Memory.readBytes] at h
  | succ n ih =>
    cases k with
    | zero => simp [Memory.readBytes]
    | succ k =>
      simp only [Memory.readBytes, List.getElem_cons_succ]
      rw [ih]; congr 1; omega

theorem Memory.getD_readBytes (m : Memory) (base n k : Nat) (d : Byte) (h : k < n) :
    (m.readBytes base n).getD k d = m.read (base + k) := by
  rw [List.getD_eq_getElem _ _ (by simpa using h), Memory.getElem_readBytes]

/-- Two buffers read from equal bytes are equal. -/
theorem Memory.readBytes_congr {m m' : Memory} {base base' n : Nat}
    (h : ∀ k < n, m.read (base + k) = m'.read (base' + k)) : m.readBytes base n = m'.readBytes base' n := by
  apply List.ext_getElem (by simp)
  intro k h1 h2
  rw [Memory.getElem_readBytes, Memory.getElem_readBytes]
  exact h k (by simpa using h1)

/-- Reading back a buffer that was written. -/
theorem Memory.readBytes_writeBytes (m : Memory) (base : Nat) (b : Buffer) :
    (m.writeBytes base b).readBytes base b.length = b := by
  apply List.ext_getElem (by simp)
  intro k h1 h2
  rw [Memory.getElem_readBytes, Memory.read_writeBytes_inside h2, List.getD_eq_getElem _ _ h2]

/-! ### The canonical form -/

theorem Memory.wf_erase {m : Memory} (h : m.wf) (x : Nat) : (m.erase x).wf := by
  obtain ⟨h1, h2⟩ := h
  exact ⟨h1.sublist (List.filter_sublist.map _), fun c hc => h2 c (List.mem_of_mem_filter hc)⟩

theorem Memory.mem_insert {m : Memory} {x : Nat} {v : Byte} {c : Host.Cell} :
    c ∈ m.insert x v ↔ c = (x, v) ∨ c ∈ m := by
  induction m with
  | nil => simp [Memory.insert]
  | cons d m ih =>
    unfold Memory.insert
    split
    · simp
    · simp [ih]; tauto

theorem Memory.wf_insert {m : Memory} (h : m.wf) {x : Nat} {v : Byte} (hv : v ≠ Config.unlisted)
    (hx : ∀ c ∈ m, c.1 ≠ x) : (m.insert x v).wf := by
  obtain ⟨h1, h2⟩ := h
  refine ⟨?_, fun c hc => (Memory.mem_insert.1 hc).elim (fun e => e ▸ hv) (h2 c)⟩
  clear h2
  induction m with
  | nil => simp [Memory.insert]
  | cons d m ih =>
    obtain ⟨a, b⟩ := d
    have hax : a ≠ x := hx (a, b) (by simp)
    simp only [List.map_cons, List.pairwise_cons, List.mem_map, forall_exists_index, and_imp,
      forall_apply_eq_imp_iff₂] at h1
    unfold Memory.insert
    split
    · next hlt =>
      simp only [List.map_cons, List.pairwise_cons, List.mem_cons, List.mem_map, forall_eq_or_imp,
        forall_exists_index, and_imp, forall_apply_eq_imp_iff₂]
      exact ⟨⟨hlt, fun c hc => lt_trans hlt (h1.1 c hc)⟩, h1⟩
    · next hge =>
      simp only [List.map_cons, List.pairwise_cons, List.mem_map, forall_exists_index, and_imp,
        forall_apply_eq_imp_iff₂]
      refine ⟨fun c hc => ?_, ih (fun c hc => hx c (by simp [hc])) h1.2⟩
      rcases Memory.mem_insert.1 hc with rfl | hc
      · simp; omega
      · exact h1.1 c hc

/-- A write keeps the canonical form. -/
theorem Memory.wf_write {m : Memory} (h : m.wf) (x : Nat) (v : Byte) : (m.write x v).wf := by
  unfold Memory.write
  split
  · exact Memory.wf_erase h x
  · next hv => exact Memory.wf_insert (Memory.wf_erase h x) hv (by simp [Memory.erase])

/-- Writing a buffer keeps the canonical form. -/
theorem Memory.wf_writeBytes {m : Memory} (h : m.wf) (base : Nat) (b : Buffer) : (m.writeBytes base b).wf := by
  induction b generalizing m base with
  | nil => exact h
  | cons c b ih => exact ih (Memory.wf_write h base c) (base + 1)

theorem Memory.wf_reset : State.reset.mem.wf := ⟨List.Pairwise.nil, by simp [State.reset]⟩

/-- What a write of one byte lists lies at its offset or was listed before. -/
theorem Memory.mem_write {m : Memory} {x : Nat} {v : Byte} {c : Host.Cell} (h : c ∈ m.write x v) : c.1 = x ∨ c ∈ m := by
  unfold Memory.write at h
  split at h
  · exact .inr (List.mem_of_mem_filter h)
  · rcases Memory.mem_insert.1 h with rfl | h
    · exact .inl rfl
    · exact .inr (List.mem_of_mem_filter h)

/-- What writing a buffer lists lies inside its range or was listed before. -/
theorem Memory.mem_writeBytes {m : Memory} {base : Nat} {b : Buffer} {c : Host.Cell} (h : c ∈ m.writeBytes base b) :
    (base ≤ c.1 ∧ c.1 < base + b.length) ∨ c ∈ m := by
  induction b generalizing m base with
  | nil => exact .inr h
  | cons d b ih =>
    rcases ih h with h | h
    · exact .inl (by simp; omega)
    · rcases Memory.mem_write h with h | h
      · exact .inl (by simp; omega)
      · exact .inr h

end Sys2Proof.Machine
end

