-- ==== Sys2Proof/Laws/State.lean ====
section
/-! SUPPORT. One lemma per field of State per shared update, so that no later proof unfolds a record update. -/

namespace Sys2Proof.Machine

/-! ### `raise E` (60_exceptions.md R284) -/

@[simp] theorem State.raise_params (s : State) (e : ErrorKind) : (s.raise e).params = s.params := rfl
@[simp] theorem State.raise_inFlight (s : State) (e : ErrorKind) : (s.raise e).inFlight = none := rfl
@[simp] theorem State.raise_done (s : State) (e : ErrorKind) : (s.raise e).done = false := rfl
@[simp] theorem State.raise_err (s : State) (e : ErrorKind) : (s.raise e).err = true := rfl
@[simp] theorem State.raise_pinv (s : State) (e : ErrorKind) : (s.raise e).pinv = s.pinv := rfl
@[simp] theorem State.raise_errCode (s : State) (e : ErrorKind) : (s.raise e).errCode = e.code := rfl
@[simp] theorem State.raise_ilen (s : State) (e : ErrorKind) : (s.raise e).ilen = s.ilen := rfl
@[simp] theorem State.raise_olen (s : State) (e : ErrorKind) : (s.raise e).olen = s.olen := rfl
@[simp] theorem State.raise_klen (s : State) (e : ErrorKind) : (s.raise e).klen = s.klen := rfl
@[simp] theorem State.raise_padbs (s : State) (e : ErrorKind) : (s.raise e).padbs = s.padbs := rfl
@[simp] theorem State.raise_mpn (s : State) (e : ErrorKind) : (s.raise e).mpn = s.mpn := rfl
@[simp] theorem State.raise_mpe (s : State) (e : ErrorKind) : (s.raise e).mpe = s.mpe := rfl
@[simp] theorem State.raise_mpa (s : State) (e : ErrorKind) : (s.raise e).mpa = s.mpa := rfl
@[simp] theorem State.raise_mpb (s : State) (e : ErrorKind) : (s.raise e).mpb = s.mpb := rfl
@[simp] theorem State.raise_mpr (s : State) (e : ErrorKind) : (s.raise e).mpr = s.mpr := rfl
@[simp] theorem State.raise_mem (s : State) (e : ErrorKind) : (s.raise e).mem = s.mem := rfl
@[simp] theorem State.raise_host (s : State) (e : ErrorKind) : (s.raise e).host = s.host := rfl
@[simp] theorem State.raise_latency (s : State) (e : ErrorKind) : (s.raise e).latency = s.latency := rfl
@[simp] theorem State.raise_observed (s : State) (e : ErrorKind) : (s.raise e).observed = s.observed := rfl
@[simp] theorem State.raise_mp (s : State) (e : ErrorKind) (r : MpReg) : (s.raise e).mp r = s.mp r := by cases r <;> rfl
@[simp] theorem State.raise_iv (s : State) (e : ErrorKind) (k : Nat) : (s.raise e).iv k = s.iv k := rfl
@[simp] theorem State.raise_key (s : State) (e : ErrorKind) (k : Nat) : (s.raise e).key k = s.key k := rfl
@[simp] theorem State.raise_ibuf (s : State) (e : ErrorKind) (k : Nat) : (s.raise e).ibuf k = s.ibuf k := rfl
@[simp] theorem State.raise_obuf (s : State) (e : ErrorKind) (k : Nat) : (s.raise e).obuf k = s.obuf k := rfl

/-! ### completion (40_control_and_transfer.md R110) -/

@[simp] theorem State.complete_params (s : State) : s.complete.params = s.params := rfl
@[simp] theorem State.complete_inFlight (s : State) : s.complete.inFlight = none := rfl
@[simp] theorem State.complete_done (s : State) : s.complete.done = true := rfl
@[simp] theorem State.complete_err (s : State) : s.complete.err = s.err := rfl
@[simp] theorem State.complete_pinv (s : State) : s.complete.pinv = s.pinv := rfl
@[simp] theorem State.complete_errCode (s : State) : s.complete.errCode = s.errCode := rfl
@[simp] theorem State.complete_ilen (s : State) : s.complete.ilen = s.ilen := rfl
@[simp] theorem State.complete_olen (s : State) : s.complete.olen = s.olen := rfl
@[simp] theorem State.complete_klen (s : State) : s.complete.klen = s.klen := rfl
@[simp] theorem State.complete_padbs (s : State) : s.complete.padbs = s.padbs := rfl
@[simp] theorem State.complete_mpn (s : State) : s.complete.mpn = s.mpn := rfl
@[simp] theorem State.complete_mpe (s : State) : s.complete.mpe = s.mpe := rfl
@[simp] theorem State.complete_mpa (s : State) : s.complete.mpa = s.mpa := rfl
@[simp] theorem State.complete_mpb (s : State) : s.complete.mpb = s.mpb := rfl
@[simp] theorem State.complete_mpr (s : State) : s.complete.mpr = s.mpr := rfl
@[simp] theorem State.complete_mem (s : State) : s.complete.mem = s.mem := rfl
@[simp] theorem State.complete_host (s : State) : s.complete.host = s.host := rfl
@[simp] theorem State.complete_latency (s : State) : s.complete.latency = s.latency := rfl
@[simp] theorem State.complete_observed (s : State) : s.complete.observed = s.observed := rfl
@[simp] theorem State.complete_mp (s : State) (r : MpReg) : s.complete.mp r = s.mp r := by cases r <;> rfl
@[simp] theorem State.complete_iv (s : State) (k : Nat) : s.complete.iv k = s.iv k := rfl
@[simp] theorem State.complete_key (s : State) (k : Nat) : s.complete.key k = s.key k := rfl
@[simp] theorem State.complete_ibuf (s : State) (k : Nat) : s.complete.ibuf k = s.ibuf k := rfl
@[simp] theorem State.complete_obuf (s : State) (k : Nat) : s.complete.obuf k = s.obuf k := rfl

/-! ### `out <- b` (00_scope.md R13) -/

@[simp] theorem State.putOut_params (s : State) (b : Buffer) : (s.putOut b).params = s.params := rfl
@[simp] theorem State.putOut_inFlight (s : State) (b : Buffer) : (s.putOut b).inFlight = s.inFlight := rfl
@[simp] theorem State.putOut_done (s : State) (b : Buffer) : (s.putOut b).done = s.done := rfl
@[simp] theorem State.putOut_err (s : State) (b : Buffer) : (s.putOut b).err = s.err := rfl
@[simp] theorem State.putOut_pinv (s : State) (b : Buffer) : (s.putOut b).pinv = s.pinv := rfl
@[simp] theorem State.putOut_errCode (s : State) (b : Buffer) : (s.putOut b).errCode = s.errCode := rfl
@[simp] theorem State.putOut_ilen (s : State) (b : Buffer) : (s.putOut b).ilen = s.ilen := rfl
@[simp] theorem State.putOut_olen (s : State) (b : Buffer) : (s.putOut b).olen = BitVec.ofNat 32 b.length := rfl
@[simp] theorem State.putOut_klen (s : State) (b : Buffer) : (s.putOut b).klen = s.klen := rfl
@[simp] theorem State.putOut_padbs (s : State) (b : Buffer) : (s.putOut b).padbs = s.padbs := rfl
@[simp] theorem State.putOut_mpn (s : State) (b : Buffer) : (s.putOut b).mpn = s.mpn := rfl
@[simp] theorem State.putOut_mpe (s : State) (b : Buffer) : (s.putOut b).mpe = s.mpe := rfl
@[simp] theorem State.putOut_mpa (s : State) (b : Buffer) : (s.putOut b).mpa = s.mpa := rfl
@[simp] theorem State.putOut_mpb (s : State) (b : Buffer) : (s.putOut b).mpb = s.mpb := rfl
@[simp] theorem State.putOut_mpr (s : State) (b : Buffer) : (s.putOut b).mpr = s.mpr := rfl
@[simp] theorem State.putOut_mem (s : State) (b : Buffer) : (s.putOut b).mem = s.mem.writeBytes obufBase b := rfl
@[simp] theorem State.putOut_host (s : State) (b : Buffer) : (s.putOut b).host = s.host := rfl
@[simp] theorem State.putOut_latency (s : State) (b : Buffer) : (s.putOut b).latency = s.latency := rfl
@[simp] theorem State.putOut_observed (s : State) (b : Buffer) : (s.putOut b).observed = s.observed := rfl
@[simp] theorem State.putOut_mp (s : State) (b : Buffer) (r : MpReg) : (s.putOut b).mp r = s.mp r := by cases r <;> rfl

/-! ### XFER's copy (40_control_and_transfer.md R114) -/

@[simp] theorem State.copyOutToIn_params (s : State) : s.copyOutToIn.params = s.params := rfl
@[simp] theorem State.copyOutToIn_inFlight (s : State) : s.copyOutToIn.inFlight = s.inFlight := rfl
@[simp] theorem State.copyOutToIn_done (s : State) : s.copyOutToIn.done = s.done := rfl
@[simp] theorem State.copyOutToIn_err (s : State) : s.copyOutToIn.err = s.err := rfl
@[simp] theorem State.copyOutToIn_pinv (s : State) : s.copyOutToIn.pinv = s.pinv := rfl
@[simp] theorem State.copyOutToIn_errCode (s : State) : s.copyOutToIn.errCode = s.errCode := rfl
@[simp] theorem State.copyOutToIn_ilen (s : State) : s.copyOutToIn.ilen = s.olen := rfl
@[simp] theorem State.copyOutToIn_olen (s : State) : s.copyOutToIn.olen = s.olen := rfl
@[simp] theorem State.copyOutToIn_klen (s : State) : s.copyOutToIn.klen = s.klen := rfl
@[simp] theorem State.copyOutToIn_padbs (s : State) : s.copyOutToIn.padbs = s.padbs := rfl
@[simp] theorem State.copyOutToIn_mpn (s : State) : s.copyOutToIn.mpn = s.mpn := rfl
@[simp] theorem State.copyOutToIn_mpe (s : State) : s.copyOutToIn.mpe = s.mpe := rfl
@[simp] theorem State.copyOutToIn_mpa (s : State) : s.copyOutToIn.mpa = s.mpa := rfl
@[simp] theorem State.copyOutToIn_mpb (s : State) : s.copyOutToIn.mpb = s.mpb := rfl
@[simp] theorem State.copyOutToIn_mpr (s : State) : s.copyOutToIn.mpr = s.mpr := rfl
@[simp] theorem State.copyOutToIn_mem (s : State) : s.copyOutToIn.mem = s.mem.writeBytes ibufBase s.outBytes := rfl
@[simp] theorem State.copyOutToIn_host (s : State) : s.copyOutToIn.host = s.host := rfl
@[simp] theorem State.copyOutToIn_latency (s : State) : s.copyOutToIn.latency = s.latency := rfl
@[simp] theorem State.copyOutToIn_observed (s : State) : s.copyOutToIn.observed = s.observed := rfl
@[simp] theorem State.copyOutToIn_mp (s : State) (r : MpReg) : s.copyOutToIn.mp r = s.mp r := by cases r <;> rfl

/-! ### `STATUS.PINV <- b` (44_pkcs7.md R219) -/

@[simp] theorem State.setPinv_params (s : State) (b : Bool) : (s.setPinv b).params = s.params := rfl
@[simp] theorem State.setPinv_inFlight (s : State) (b : Bool) : (s.setPinv b).inFlight = s.inFlight := rfl
@[simp] theorem State.setPinv_done (s : State) (b : Bool) : (s.setPinv b).done = s.done := rfl
@[simp] theorem State.setPinv_err (s : State) (b : Bool) : (s.setPinv b).err = s.err := rfl
@[simp] theorem State.setPinv_pinv (s : State) (b : Bool) : (s.setPinv b).pinv = b := rfl
@[simp] theorem State.setPinv_errCode (s : State) (b : Bool) : (s.setPinv b).errCode = s.errCode := rfl
@[simp] theorem State.setPinv_ilen (s : State) (b : Bool) : (s.setPinv b).ilen = s.ilen := rfl
@[simp] theorem State.setPinv_olen (s : State) (b : Bool) : (s.setPinv b).olen = s.olen := rfl
@[simp] theorem State.setPinv_klen (s : State) (b : Bool) : (s.setPinv b).klen = s.klen := rfl
@[simp] theorem State.setPinv_padbs (s : State) (b : Bool) : (s.setPinv b).padbs = s.padbs := rfl
@[simp] theorem State.setPinv_mpn (s : State) (b : Bool) : (s.setPinv b).mpn = s.mpn := rfl
@[simp] theorem State.setPinv_mpe (s : State) (b : Bool) : (s.setPinv b).mpe = s.mpe := rfl
@[simp] theorem State.setPinv_mpa (s : State) (b : Bool) : (s.setPinv b).mpa = s.mpa := rfl
@[simp] theorem State.setPinv_mpb (s : State) (b : Bool) : (s.setPinv b).mpb = s.mpb := rfl
@[simp] theorem State.setPinv_mpr (s : State) (b : Bool) : (s.setPinv b).mpr = s.mpr := rfl
@[simp] theorem State.setPinv_mem (s : State) (b : Bool) : (s.setPinv b).mem = s.mem := rfl
@[simp] theorem State.setPinv_host (s : State) (b : Bool) : (s.setPinv b).host = s.host := rfl
@[simp] theorem State.setPinv_latency (s : State) (b : Bool) : (s.setPinv b).latency = s.latency := rfl
@[simp] theorem State.setPinv_observed (s : State) (b : Bool) : (s.setPinv b).observed = s.observed := rfl
@[simp] theorem State.setPinv_mp (s : State) (b : Bool) (r : MpReg) : (s.setPinv b).mp r = s.mp r := by cases r <;> rfl
@[simp] theorem State.setPinv_iv (s : State) (b : Bool) (k : Nat) : (s.setPinv b).iv k = s.iv k := rfl
@[simp] theorem State.setPinv_key (s : State) (b : Bool) (k : Nat) : (s.setPinv b).key k = s.key k := rfl
@[simp] theorem State.setPinv_ibuf (s : State) (b : Bool) (k : Nat) : (s.setPinv b).ibuf k = s.ibuf k := rfl
@[simp] theorem State.setPinv_obuf (s : State) (b : Bool) (k : Nat) : (s.setPinv b).obuf k = s.obuf k := rfl

/-! ### reset (70_reset_and_hazards.md R320) -/

@[simp] theorem State.afterReset_params (s : State) : s.afterReset.params = s.params := rfl
@[simp] theorem State.afterReset_inFlight (s : State) : s.afterReset.inFlight = none := rfl
@[simp] theorem State.afterReset_done (s : State) : s.afterReset.done = false := rfl
@[simp] theorem State.afterReset_err (s : State) : s.afterReset.err = false := rfl
@[simp] theorem State.afterReset_pinv (s : State) : s.afterReset.pinv = false := rfl
@[simp] theorem State.afterReset_errCode (s : State) : s.afterReset.errCode = 0 := rfl
@[simp] theorem State.afterReset_ilen (s : State) : s.afterReset.ilen = 0 := rfl
@[simp] theorem State.afterReset_olen (s : State) : s.afterReset.olen = 0 := rfl
@[simp] theorem State.afterReset_klen (s : State) : s.afterReset.klen = 0 := rfl
@[simp] theorem State.afterReset_padbs (s : State) : s.afterReset.padbs = Config.padbsReset := rfl
@[simp] theorem State.afterReset_mpn (s : State) : s.afterReset.mpn = 0 := rfl
@[simp] theorem State.afterReset_mpe (s : State) : s.afterReset.mpe = 0 := rfl
@[simp] theorem State.afterReset_mpa (s : State) : s.afterReset.mpa = 0 := rfl
@[simp] theorem State.afterReset_mpb (s : State) : s.afterReset.mpb = 0 := rfl
@[simp] theorem State.afterReset_mpr (s : State) : s.afterReset.mpr = 0 := rfl
@[simp] theorem State.afterReset_mem (s : State) : s.afterReset.mem = [] := rfl
@[simp] theorem State.afterReset_host (s : State) : s.afterReset.host = s.host := rfl
@[simp] theorem State.afterReset_latency (s : State) : s.afterReset.latency = s.latency := rfl
@[simp] theorem State.afterReset_observed (s : State) : s.afterReset.observed = s.observed := rfl
@[simp] theorem State.afterReset_mp (s : State) (r : MpReg) : s.afterReset.mp r = 0 := by cases r <;> rfl

/-! ### CLEAR's writes (40_control_and_transfer.md R113) -/

@[simp] theorem State.cleared_params (s : State) : s.cleared.params = s.params := rfl
@[simp] theorem State.cleared_inFlight (s : State) : s.cleared.inFlight = s.inFlight := rfl
@[simp] theorem State.cleared_done (s : State) : s.cleared.done = s.done := rfl
@[simp] theorem State.cleared_err (s : State) : s.cleared.err = false := rfl
@[simp] theorem State.cleared_pinv (s : State) : s.cleared.pinv = false := rfl
@[simp] theorem State.cleared_errCode (s : State) : s.cleared.errCode = 0 := rfl
@[simp] theorem State.cleared_ilen (s : State) : s.cleared.ilen = 0 := rfl
@[simp] theorem State.cleared_olen (s : State) : s.cleared.olen = 0 := rfl
@[simp] theorem State.cleared_klen (s : State) : s.cleared.klen = 0 := rfl
@[simp] theorem State.cleared_padbs (s : State) : s.cleared.padbs = Config.padbsReset := rfl
@[simp] theorem State.cleared_mpn (s : State) : s.cleared.mpn = 0 := rfl
@[simp] theorem State.cleared_mpe (s : State) : s.cleared.mpe = 0 := rfl
@[simp] theorem State.cleared_mpa (s : State) : s.cleared.mpa = 0 := rfl
@[simp] theorem State.cleared_mpb (s : State) : s.cleared.mpb = 0 := rfl
@[simp] theorem State.cleared_mpr (s : State) : s.cleared.mpr = 0 := rfl
@[simp] theorem State.cleared_mem (s : State) : s.cleared.mem = [] := rfl
@[simp] theorem State.cleared_host (s : State) : s.cleared.host = s.host := rfl
@[simp] theorem State.cleared_latency (s : State) : s.cleared.latency = s.latency := rfl
@[simp] theorem State.cleared_observed (s : State) : s.cleared.observed = s.observed := rfl
@[simp] theorem State.cleared_mp (s : State) (r : MpReg) : s.cleared.mp r = 0 := by cases r <;> rfl

/-! ### acceptance (40_control_and_transfer.md R110) -/

@[simp] theorem State.accept_params (s : State) (w : Word) (n : Nat) : (s.accept w n).params = s.params := rfl
@[simp] theorem State.accept_inFlight (s : State) (w : Word) (n : Nat) : (s.accept w n).inFlight = some { word := w, wait := n } := rfl
@[simp] theorem State.accept_done (s : State) (w : Word) (n : Nat) : (s.accept w n).done = false := rfl
@[simp] theorem State.accept_err (s : State) (w : Word) (n : Nat) : (s.accept w n).err = s.err := rfl
@[simp] theorem State.accept_pinv (s : State) (w : Word) (n : Nat) : (s.accept w n).pinv = s.pinv := rfl
@[simp] theorem State.accept_errCode (s : State) (w : Word) (n : Nat) : (s.accept w n).errCode = s.errCode := rfl
@[simp] theorem State.accept_ilen (s : State) (w : Word) (n : Nat) : (s.accept w n).ilen = s.ilen := rfl
@[simp] theorem State.accept_olen (s : State) (w : Word) (n : Nat) : (s.accept w n).olen = s.olen := rfl
@[simp] theorem State.accept_klen (s : State) (w : Word) (n : Nat) : (s.accept w n).klen = s.klen := rfl
@[simp] theorem State.accept_padbs (s : State) (w : Word) (n : Nat) : (s.accept w n).padbs = s.padbs := rfl
@[simp] theorem State.accept_mpn (s : State) (w : Word) (n : Nat) : (s.accept w n).mpn = s.mpn := rfl
@[simp] theorem State.accept_mpe (s : State) (w : Word) (n : Nat) : (s.accept w n).mpe = s.mpe := rfl
@[simp] theorem State.accept_mpa (s : State) (w : Word) (n : Nat) : (s.accept w n).mpa = s.mpa := rfl
@[simp] theorem State.accept_mpb (s : State) (w : Word) (n : Nat) : (s.accept w n).mpb = s.mpb := rfl
@[simp] theorem State.accept_mpr (s : State) (w : Word) (n : Nat) : (s.accept w n).mpr = s.mpr := rfl
@[simp] theorem State.accept_mem (s : State) (w : Word) (n : Nat) : (s.accept w n).mem = s.mem := rfl
@[simp] theorem State.accept_host (s : State) (w : Word) (n : Nat) : (s.accept w n).host = s.host := rfl
@[simp] theorem State.accept_latency (s : State) (w : Word) (n : Nat) : (s.accept w n).latency = s.latency := rfl
@[simp] theorem State.accept_observed (s : State) (w : Word) (n : Nat) : (s.accept w n).observed = s.observed := rfl
@[simp] theorem State.accept_mp (s : State) (w : Word) (n : Nat) (r : MpReg) : (s.accept w n).mp r = s.mp r := by cases r <;> rfl
@[simp] theorem State.accept_iv (s : State) (w : Word) (n : Nat) (k : Nat) : (s.accept w n).iv k = s.iv k := rfl
@[simp] theorem State.accept_key (s : State) (w : Word) (n : Nat) (k : Nat) : (s.accept w n).key k = s.key k := rfl
@[simp] theorem State.accept_ibuf (s : State) (w : Word) (n : Nat) (k : Nat) : (s.accept w n).ibuf k = s.ibuf k := rfl
@[simp] theorem State.accept_obuf (s : State) (w : Word) (n : Nat) (k : Nat) : (s.accept w n).obuf k = s.obuf k := rfl

/-! ### the environment's record of a read (20_memory.md R72) -/

@[simp] theorem State.observe_params (s : State) (w : Word) : (s.observe w).params = s.params := rfl
@[simp] theorem State.observe_inFlight (s : State) (w : Word) : (s.observe w).inFlight = s.inFlight := rfl
@[simp] theorem State.observe_done (s : State) (w : Word) : (s.observe w).done = s.done := rfl
@[simp] theorem State.observe_err (s : State) (w : Word) : (s.observe w).err = s.err := rfl
@[simp] theorem State.observe_pinv (s : State) (w : Word) : (s.observe w).pinv = s.pinv := rfl
@[simp] theorem State.observe_errCode (s : State) (w : Word) : (s.observe w).errCode = s.errCode := rfl
@[simp] theorem State.observe_ilen (s : State) (w : Word) : (s.observe w).ilen = s.ilen := rfl
@[simp] theorem State.observe_olen (s : State) (w : Word) : (s.observe w).olen = s.olen := rfl
@[simp] theorem State.observe_klen (s : State) (w : Word) : (s.observe w).klen = s.klen := rfl
@[simp] theorem State.observe_padbs (s : State) (w : Word) : (s.observe w).padbs = s.padbs := rfl
@[simp] theorem State.observe_mpn (s : State) (w : Word) : (s.observe w).mpn = s.mpn := rfl
@[simp] theorem State.observe_mpe (s : State) (w : Word) : (s.observe w).mpe = s.mpe := rfl
@[simp] theorem State.observe_mpa (s : State) (w : Word) : (s.observe w).mpa = s.mpa := rfl
@[simp] theorem State.observe_mpb (s : State) (w : Word) : (s.observe w).mpb = s.mpb := rfl
@[simp] theorem State.observe_mpr (s : State) (w : Word) : (s.observe w).mpr = s.mpr := rfl
@[simp] theorem State.observe_mem (s : State) (w : Word) : (s.observe w).mem = s.mem := rfl
@[simp] theorem State.observe_host (s : State) (w : Word) : (s.observe w).host = s.host := rfl
@[simp] theorem State.observe_latency (s : State) (w : Word) : (s.observe w).latency = s.latency := rfl
@[simp] theorem State.observe_observed (s : State) (w : Word) : (s.observe w).observed = w :: s.observed := rfl
@[simp] theorem State.observe_mp (s : State) (w : Word) (r : MpReg) : (s.observe w).mp r = s.mp r := by cases r <;> rfl
@[simp] theorem State.observe_iv (s : State) (w : Word) (k : Nat) : (s.observe w).iv k = s.iv k := rfl
@[simp] theorem State.observe_key (s : State) (w : Word) (k : Nat) : (s.observe w).key k = s.key k := rfl
@[simp] theorem State.observe_ibuf (s : State) (w : Word) (k : Nat) : (s.observe w).ibuf k = s.ibuf k := rfl
@[simp] theorem State.observe_obuf (s : State) (w : Word) (k : Nat) : (s.observe w).obuf k = s.obuf k := rfl

/-! ### `MP[i] <- v` (10_state.md R24) -/

@[simp] theorem State.setMp_params (s : State) (r : MpReg) (v : Nat) : (s.setMp r v).params = s.params := by cases r <;> rfl
@[simp] theorem State.setMp_inFlight (s : State) (r : MpReg) (v : Nat) : (s.setMp r v).inFlight = s.inFlight := by cases r <;> rfl
@[simp] theorem State.setMp_done (s : State) (r : MpReg) (v : Nat) : (s.setMp r v).done = s.done := by cases r <;> rfl
@[simp] theorem State.setMp_err (s : State) (r : MpReg) (v : Nat) : (s.setMp r v).err = s.err := by cases r <;> rfl
@[simp] theorem State.setMp_pinv (s : State) (r : MpReg) (v : Nat) : (s.setMp r v).pinv = s.pinv := by cases r <;> rfl
@[simp] theorem State.setMp_errCode (s : State) (r : MpReg) (v : Nat) : (s.setMp r v).errCode = s.errCode := by cases r <;> rfl
@[simp] theorem State.setMp_ilen (s : State) (r : MpReg) (v : Nat) : (s.setMp r v).ilen = s.ilen := by cases r <;> rfl
@[simp] theorem State.setMp_olen (s : State) (r : MpReg) (v : Nat) : (s.setMp r v).olen = s.olen := by cases r <;> rfl
@[simp] theorem State.setMp_klen (s : State) (r : MpReg) (v : Nat) : (s.setMp r v).klen = s.klen := by cases r <;> rfl
@[simp] theorem State.setMp_padbs (s : State) (r : MpReg) (v : Nat) : (s.setMp r v).padbs = s.padbs := by cases r <;> rfl
@[simp] theorem State.setMp_mem (s : State) (r : MpReg) (v : Nat) : (s.setMp r v).mem = s.mem := by cases r <;> rfl
@[simp] theorem State.setMp_host (s : State) (r : MpReg) (v : Nat) : (s.setMp r v).host = s.host := by cases r <;> rfl
@[simp] theorem State.setMp_latency (s : State) (r : MpReg) (v : Nat) : (s.setMp r v).latency = s.latency := by cases r <;> rfl
@[simp] theorem State.setMp_observed (s : State) (r : MpReg) (v : Nat) : (s.setMp r v).observed = s.observed := by cases r <;> rfl
@[simp] theorem State.setMp_iv (s : State) (r : MpReg) (v k : Nat) : (s.setMp r v).iv k = s.iv k := by cases r <;> rfl
@[simp] theorem State.setMp_key (s : State) (r : MpReg) (v k : Nat) : (s.setMp r v).key k = s.key k := by cases r <;> rfl
@[simp] theorem State.setMp_ibuf (s : State) (r : MpReg) (v k : Nat) : (s.setMp r v).ibuf k = s.ibuf k := by cases r <;> rfl
@[simp] theorem State.setMp_obuf (s : State) (r : MpReg) (v k : Nat) : (s.setMp r v).obuf k = s.obuf k := by cases r <;> rfl
@[simp] theorem State.setMp_mp_same (s : State) (r : MpReg) (v : Nat) : (s.setMp r v).mp r = v := by cases r <;> rfl

/-- Writing one multiprecision register leaves the others. -/
theorem State.setMp_mp (s : State) (r q : MpReg) (v : Nat) : (s.setMp r v).mp q = if q = r then v else s.mp q := by
  cases r <;> cases q <;> rfl

/-! ### The registers by name -/

@[simp] theorem State.mp_mpn (s : State) : s.mp .mpn = s.mpn := rfl
@[simp] theorem State.mp_mpe (s : State) : s.mp .mpe = s.mpe := rfl
@[simp] theorem State.mp_mpa (s : State) : s.mp .mpa = s.mpa := rfl
@[simp] theorem State.mp_mpb (s : State) : s.mp .mpb = s.mpb := rfl
@[simp] theorem State.mp_mpr (s : State) : s.mp .mpr = s.mpr := rfl

/-! ### BUSY -/

@[simp] theorem State.raise_busy (s : State) (e : ErrorKind) : (s.raise e).busy = false := rfl
@[simp] theorem State.complete_busy (s : State) : s.complete.busy = false := rfl
@[simp] theorem State.accept_busy (s : State) (w : Word) (n : Nat) : (s.accept w n).busy = true := rfl

/-- Two states with equal fields are equal. -/
theorem State.ext_fields {s t : State}
    (h0 : s.params = t.params)
    (h1 : s.inFlight = t.inFlight)
    (h2 : s.done = t.done)
    (h3 : s.err = t.err)
    (h4 : s.pinv = t.pinv)
    (h5 : s.errCode = t.errCode)
    (h6 : s.ilen = t.ilen)
    (h7 : s.olen = t.olen)
    (h8 : s.klen = t.klen)
    (h9 : s.padbs = t.padbs)
    (h10 : s.mpn = t.mpn)
    (h11 : s.mpe = t.mpe)
    (h12 : s.mpa = t.mpa)
    (h13 : s.mpb = t.mpb)
    (h14 : s.mpr = t.mpr)
    (h15 : s.mem = t.mem)
    (h16 : s.host = t.host)
    (h17 : s.latency = t.latency)
    (h18 : s.observed = t.observed)
    : s = t := by
  cases s; cases t; simp_all

end Sys2Proof.Machine
end

