-- ==== Sys2Proof/Laws/Exec.lean ====
section
/-! SUPPORT. What each shared operation of the commands answers, and, said once for all commands, every state an engine
step can lead to. -/

namespace Sys2Proof.Machine

/-! ### Operands -/

/-- The selectors that name a register (10_state.md R24). -/
theorem mpRegOf_eq_none {r : Selector} : mpRegOf r = none ↔ 5 ≤ r.toNat := by revert r; decide

theorem withMpReg_some {r : Selector} {q : MpReg} (h : mpRegOf r = some q) (s : State) (k : MpReg → Result) :
    withMpReg r s k = k q := by simp [withMpReg, h]

theorem withMpReg_none {r : Selector} (h : mpRegOf r = none) (s : State) (k : MpReg → Result) :
    withMpReg r s k = fails .illegalCommand s := by simp [withMpReg, h]

theorem withInput_ok {s : State} (h : s.ilen.toNat ≤ s.params.bufMax) (k : Buffer → Result) :
    withInput s k = k s.input := by simp [withInput, Nat.not_lt.2 h]

theorem withInput_range {s : State} (h : s.params.bufMax < s.ilen.toNat) (k : Buffer → Result) :
    withInput s k = fails .bufferRange s := by simp [withInput, h]

/-- The key check as its three conditions (42_aes_block.md R170). -/
theorem State.keyLengthOk_iff {s : State} : s.keyLengthOk = true ↔
    s.klen.toNat % 8 = 0 ∧ 16 ≤ s.klen.toNat ∧ s.klen.toNat ≤ s.params.keyBytesMax := by
  simp [State.keyLengthOk, and_assoc]

theorem withKey_ok {s : State} (h : s.keyLengthOk = true) (k : Buffer → Result) : withKey s k = k s.keyBytes := by
  simp [withKey, h]

theorem withKey_bad {s : State} (h : s.keyLengthOk = false) (k : Buffer → Result) :
    withKey s k = fails .invalidKeyLength s := by simp [withKey, h]

theorem withBlockSize_ok {s : State} (h : s.padbs ≠ 0) (k : Nat → Result) :
    withBlockSize s k = k s.padbs.toNat := by simp only [withBlockSize, if_neg h]

theorem withBlockSize_zero {s : State} (h : s.padbs = 0) (k : Nat → Result) :
    withBlockSize s k = fails .invalidBlockSize s := by simp only [withBlockSize, if_pos h]

@[simp] theorem State.length_input (s : State) : s.input.length = s.ilen.toNat := by simp [State.input]
@[simp] theorem State.length_keyBytes (s : State) : s.keyBytes.length = s.klen.toNat := by simp [State.keyBytes]
@[simp] theorem State.length_ivBytes (s : State) : s.ivBytes.length = 16 := by simp [State.ivBytes, Config.block]

/-- Byte `k` of the input buffer is IBUF[k]. -/
theorem State.getD_input (s : State) {k : Nat} (h : k < s.ilen.toNat) (d : Byte) : s.input.getD k d = s.ibuf k :=
  Memory.getD_readBytes _ _ _ _ _ h

/-- Byte `k` of the key is KEY[k]. -/
theorem State.getD_keyBytes (s : State) {k : Nat} (h : k < s.klen.toNat) (d : Byte) : s.keyBytes.getD k d = s.key k :=
  Memory.getD_readBytes _ _ _ _ _ h

/-! ### Output -/

theorem State.putOut_obuf_inside (s : State) (b : Buffer) {k : Nat} (h : k < b.length) :
    (s.putOut b).obuf k = b.getD k 0 := Memory.read_writeBytes_inside h

/-- `out <- b` leaves every byte outside OBUF's first `len(b)` (10_state.md R37). -/
theorem State.putOut_read_outside (s : State) (b : Buffer) {a : Nat} (h : a < obufBase ∨ obufBase + b.length ≤ a) :
    (s.putOut b).mem.read a = s.mem.read a := Memory.read_writeBytes_outside h

theorem State.putOut_olen_toNat (s : State) (b : Buffer) (h : b.length < 2 ^ 32) : (s.putOut b).olen.toNat = b.length := by
  simp only [State.putOut_olen, BitVec.toNat_ofNat]; exact Nat.mod_eq_of_lt h

/-! ### Frames of the two kinds of completion -/

/-- A command that produced `b` leaves everything but the output (10_state.md R37). -/
theorem State.putOut_complete_frame (s : State) (b : Buffer) (h : b.length < 2 ^ 32) :
    OutputFrame s (s.putOut b).complete where
  environment := ⟨rfl, rfl, rfl, rfl⟩
  control := ⟨rfl, rfl, rfl, rfl, rfl, rfl⟩
  registers r := by cases r <;> rfl
  memory a ha := State.putOut_read_outside _ _ (by
    rwa [State.complete_olen, State.putOut_olen_toNat s b h] at ha)

/-- A command that wrote the register `r` leaves everything else (10_state.md R26). -/
theorem State.setMp_complete_frame (s : State) (r : MpReg) (v : Nat) : RegisterFrame s (s.setMp r v).complete r where
  environment := by constructor <;> simp
  control := by constructor <;> simp
  olen := by simp
  registers q hq := by simp [State.setMp_mp, hq]
  memory a := by simp

/-! ### Every state an engine step can lead to -/

/-- The commands that produce an output buffer (10_state.md R37). -/
def producesOutput : Instr → Bool
  | .mpStore _ | .rsaEnc | .rsaDec | .aesKeyexp | .aesEncBlk | .aesDecBlk | .cbcEnc | .cbcDec | .pkcs7Pad | .pkcs7Unpad
  | .hexEnc | .hexDec => true
  | .nop | .clear | .xfer | .mpLoad _ | .mpMov _ _ | .montmul | .modexp | .pkcs7Check => false

/-- What the engine step of a command can leave: a fault, or the writes of the command and then completion. -/
inductive Effect (s : State) : Instr → State → Prop
  | fault (i : Instr) (e : ErrorKind) (h : e ∈ engineKinds) : Effect s i (s.raise e)
  | nop : Effect s .nop s.complete
  | clear : Effect s .clear s.cleared.complete
  | xfer : Effect s .xfer s.copyOutToIn.complete
  | load (rd : Selector) (r : MpReg) (v : Nat) (hr : mpRegOf rd = some r) (hv : v < 2 ^ s.params.mpBits) :
      Effect s (.mpLoad rd) (s.setMp r v).complete
  | move (rd rs : Selector) (d r : MpReg) (hd : mpRegOf rd = some d) (hr : mpRegOf rs = some r) :
      Effect s (.mpMov rd rs) (s.setMp d (s.mp r)).complete
  | product (i : Instr) (v : Nat) (hi : i = .montmul ∨ i = .modexp) (hv : v < s.mpn) :
      Effect s i (s.setMp .mpr v).complete
  | output (i : Instr) (b : Buffer) (hi : producesOutput i = true)
      (hb : s.params.Valid → (∀ r, s.mp r < 2 ^ s.params.mpBits) → b.length ≤ s.params.bufMax) :
      Effect s i (s.putOut b).complete
  | check (b : Bool) : Effect s .pkcs7Check (s.setPinv b).complete

/-- A register's export fits the output buffer. -/
theorem length_exportBytes_le_bufMax {p : Params} (hp : p.Valid) {v : Nat} (hv : v < 2 ^ p.mpBits) :
    (exportBytes v).length ≤ p.mpBits / 8 ∧ p.mpBits / 8 ≤ p.bufMax := by
  obtain ⟨⟨h1, h2⟩, -, h3⟩ := hp
  refine ⟨length_exportBytes_le _ _ ?_, by omega⟩
  have : (256 : Nat) ^ (p.mpBits / 8) = 2 ^ p.mpBits := by
    rw [show (256 : Nat) = 2 ^ 8 by norm_num, ← pow_mul]; congr 1; omega
  rwa [this]

theorem withInput_effect {s t : State} {i : Instr} {k : Buffer → Result}
    (hk : s.ilen.toNat ≤ s.params.bufMax → k s.input = .next t → Effect s i t) (h : withInput s k = .next t) :
    Effect s i t := by
  by_cases hr : s.params.bufMax < s.ilen.toNat
  · rw [withInput_range hr] at h; cases h; exact .fault _ _ (by decide)
  · rw [withInput_ok (Nat.not_lt.1 hr)] at h; exact hk (Nat.not_lt.1 hr) h

theorem withKey_effect {s t : State} {i : Instr} {k : Buffer → Result}
    (hk : s.keyLengthOk = true → k s.keyBytes = .next t → Effect s i t) (h : withKey s k = .next t) : Effect s i t := by
  by_cases hr : s.keyLengthOk = true
  · rw [withKey_ok hr] at h; exact hk hr h
  · rw [withKey_bad (by simpa using hr)] at h; cases h; exact .fault _ _ (by decide)

theorem withBlockSize_effect {s t : State} {i : Instr} {k : Nat → Result}
    (hk : s.padbs ≠ 0 → k s.padbs.toNat = .next t → Effect s i t) (h : withBlockSize s k = .next t) : Effect s i t := by
  by_cases hr : s.padbs = 0
  · rw [withBlockSize_zero hr] at h; cases h; exact .fault _ _ (by decide)
  · rw [withBlockSize_ok hr] at h; exact hk hr h

theorem withMpReg_effect {s t : State} {i : Instr} {r : Selector} {k : MpReg → Result}
    (hk : ∀ q, mpRegOf r = some q → k q = .next t → Effect s i t) (h : withMpReg r s k = .next t) : Effect s i t := by
  cases hr : mpRegOf r with
  | none => rw [withMpReg_none hr] at h; cases h; exact .fault _ _ (by decide)
  | some q => rw [withMpReg_some hr] at h; exact hk q hr h

theorem rsaCore_effect {s t : State} {i : Instr} {e : ErrorKind} (he : e ∈ engineKinds)
    (hi : producesOutput i = true) (h : rsaCore e s = .next t) : Effect s i t := by
  unfold rsaCore at h
  refine withInput_effect (fun _ h => ?_) h
  beta_reduce at h
  split at h
  · cases h; exact .fault _ _ he
  · next hlt =>
    cases h
    refine .output _ _ hi fun hp hr => ?_
    have hn : 0 < s.mpn := by omega
    have := length_exportBytes_le_bufMax hp (lt_trans (powMod_lt (importBytes s.input) s.mpe s.mpn hn) (hr .mpn))
    omega

theorem singleBlock_effect {s t : State} {i : Instr} {f : Buffer → Buffer → Buffer}
    (hf : ∀ a b, (f a b).length = 16) (hi : producesOutput i = true) (h : singleBlock s f = .next t) : Effect s i t := by
  unfold singleBlock at h
  refine withInput_effect (fun _ h => ?_) h
  beta_reduce at h
  split at h
  · cases h; exact .fault _ _ (by decide)
  · refine withKey_effect (fun _ h => ?_) h
    cases h
    refine .output _ _ hi fun hp _ => ?_
    obtain ⟨-, ⟨-, h2, -⟩, -, -, h3, -⟩ := hp
    rw [hf]; omega

theorem cbcCommand_effect {s t : State} {i : Instr} {f : Buffer → Buffer → Buffer → Buffer}
    (hf : ∀ a b c, (f a b c).length = 16 * (a.length / 16)) (hi : producesOutput i = true)
    (h : cbcCommand s f = .next t) : Effect s i t := by
  unfold cbcCommand at h
  refine withInput_effect (fun hl h => ?_) h
  beta_reduce at h
  split at h
  · cases h; exact .fault _ _ (by decide)
  · refine withKey_effect (fun _ h => ?_) h
    cases h
    refine .output _ _ hi fun _ _ => ?_
    rw [hf, State.length_input]; omega

/-- Everything an engine step can do, for every command: a fault, or the command's own writes and completion. -/
theorem exec_effect {i : Instr} {s t : State} (h : exec i s = .next t) : Effect s i t := by
  cases i with
  | nop => cases h; exact .nop
  | clear => cases h; exact .clear
  | xfer => cases h; exact .xfer
  | mpLoad rd =>
    simp only [exec, execMpLoad] at h
    refine withMpReg_effect (fun q hq h => withInput_effect (fun _ h => ?_) h) h
    beta_reduce at h
    split at h
    · cases h; exact .fault _ _ (by decide)
    · next hlt => cases h; exact .load rd q _ hq (Nat.not_le.1 hlt)
  | mpStore rs =>
    simp only [exec, execMpStore] at h
    refine withMpReg_effect (fun q hq h => ?_) h
    cases h
    refine .output _ _ rfl fun hp hr => ?_
    have := length_exportBytes_le_bufMax hp (hr q)
    omega
  | mpMov rd rs =>
    simp only [exec, execMpMov] at h
    refine withMpReg_effect (fun d hd h => withMpReg_effect (fun r hr h => ?_) h) h
    cases h; exact .move rd rs d r hd hr
  | montmul =>
    simp only [exec, execMontmul] at h
    split at h
    · cases h; exact .fault _ _ (by decide)
    · split at h
      · cases h; exact .fault _ _ (by decide)
      · cases h; exact .product _ _ (.inl rfl) (Nat.mod_lt _ (by omega))
  | modexp =>
    simp only [exec, execModexp] at h
    split at h
    · cases h; exact .fault _ _ (by decide)
    · cases h; exact .product _ _ (.inr rfl) (powMod_lt _ _ _ (by omega))
  | rsaEnc => exact rsaCore_effect (by decide) rfl h
  | rsaDec => exact rsaCore_effect (by decide) rfl h
  | aesKeyexp =>
    simp only [exec, execAesKeyexp] at h
    refine withKey_effect (fun hk h => ?_) h
    cases h
    refine .output _ _ rfl fun hp _ => ?_
    obtain ⟨-, h2, h3⟩ := State.keyLengthOk_iff.1 hk
    obtain ⟨-, -, -, -, h4, -⟩ := hp
    rw [length_keyExpansion, State.length_keyBytes]
    have := Nat.div_le_div_right (c := 4) h3
    omega
  | aesEncBlk => exact singleBlock_effect length_cipher rfl h
  | aesDecBlk => exact singleBlock_effect length_invCipher rfl h
  | cbcEnc => exact cbcCommand_effect length_cbcEncrypt rfl h
  | cbcDec => exact cbcCommand_effect length_cbcDecrypt rfl h
  | pkcs7Pad =>
    simp only [exec, execPkcs7Pad] at h
    refine withInput_effect (fun _ h => withBlockSize_effect (fun _ h => ?_) h) h
    beta_reduce at h
    split at h
    · cases h; exact .fault _ _ (by decide)
    · next hle =>
      cases h
      refine .output _ _ rfl fun _ _ => ?_
      rw [length_padBytes, State.length_input]; omega
  | pkcs7Check =>
    simp only [exec, execPkcs7Check] at h
    refine withInput_effect (fun _ h => withBlockSize_effect (fun _ h => ?_) h) h
    cases h; exact .check _
  | pkcs7Unpad =>
    simp only [exec, execPkcs7Unpad] at h
    refine withInput_effect (fun hl h => withBlockSize_effect (fun _ h => ?_) h) h
    dsimp only [unpadBytes] at h
    split at h
    · cases h; exact .fault _ _ (by decide)
    · next out ho =>
      cases h
      refine .output _ _ rfl fun _ _ => ?_
      split at ho
      · cases ho
      · cases ho
        simp only [stripPad, List.length_take, State.length_input]; omega
  | hexEnc =>
    simp only [exec, execHexEnc] at h
    refine withInput_effect (fun _ h => ?_) h
    beta_reduce at h
    split at h
    · cases h; exact .fault _ _ (by decide)
    · next hle =>
      cases h
      refine .output _ _ rfl fun _ _ => ?_
      rw [length_hexEncode, State.length_input]; omega
  | hexDec =>
    simp only [exec, execHexDec] at h
    refine withInput_effect (fun hl h => ?_) h
    beta_reduce at h
    split at h
    · cases h; exact .fault _ _ (by decide)
    · next out ho =>
      cases h
      refine .output _ _ rfl fun _ _ => ?_
      rw [length_hexDecode _ _ ho, State.length_input]; omega

end Sys2Proof.Machine
end

