-- ==== Sys2Proof/Laws/HostProgram.lean ====
section
/-! SUPPORT. What the buffer operations of a host program do to an idle engine: a run of window writes, a run of OBUF
reads, and the bytes their words carry. -/

namespace Sys2Proof.Machine

/-! ### Runs -/

/-- One more step at the front of a run. -/
theorem run_succ {s u : State} (h : step s = .next u) (n : Nat) : core.run (n + 1) s = core.run n u := by
  have h' : core.step s = .next u := h
  simp only [Host.Core.run]
  rw [h']

/-- A refusal ends a run. -/
theorem run_refused {s : State} {r : Refusal} (h : step s = .refused r) (n : Nat) : core.run (n + 1) s = .refused r := by
  have h' : core.step s = .refused r := h
  simp only [Host.Core.run]
  rw [h']

/-- A run continues where a shorter one ended. -/
theorem run_add {n : Nat} {s t : State} (h : core.run n s = .next t) (m : Nat) : core.run (n + m) s = core.run m t := by
  induction n generalizing s with
  | zero => cases h; rw [Nat.zero_add]
  | succ n ih =>
    rw [Nat.succ_add]
    cases hs : step s with
    | next u => rw [run_succ hs] at h ⊢; exact ih h
    | fault r => cases r
    | refused r => rw [run_refused hs] at h; cases h

/-! ### Writing a buffer to a window -/

/-- Lane `k` of word `j` is byte `4j + k` of the buffer (20_memory.md R67). -/
theorem lanes_laneWord (b : Buffer) (j : Nat) {k : Nat} (hk : k < 4) :
    (lanes (laneWord b j)).getD k 0 = b.getD (4 * j + k) 0 := by
  rw [lanes_getD _ hk, laneWord, toNat_lanes]
  apply BitVec.eq_of_toNat_eq
  have := (b.getD (4 * j) 0).isLt
  have := (b.getD (4 * j + 1) 0).isLt
  have := (b.getD (4 * j + 2) 0).isLt
  have := (b.getD (4 * j + 3) 0).isLt
  interval_cases k <;> simp only [BitVec.toNat_ofNat, Nat.add_zero] <;> omega

@[simp] theorem length_writeBuffer (base : Nat) (b : Buffer) : (writeBuffer base b).length = (b.length + 3) / 4 := by
  simp [writeBuffer]

/-- A write to a word of KEY, IV or IBUF of an idle engine (20_memory.md R64). -/
theorem busWrite_window {s : State} (h : s.inFlight = none) {a : Nat}
    (ha : regionOf s.params a = .iv ∨ regionOf s.params a = .key ∨ regionOf s.params a = .ibuf) (w : Word) :
    busWrite s a w = { s with mem := s.mem.writeBytes a (lanes w) } := by
  rcases ha with ha | ha | ha <;> simp [busWrite, State.busy, h, ha]

/-- A run of an idle engine whose next operation writes a word of KEY, IV or IBUF. -/
theorem run_window_write {s : State} (h : s.inFlight = none) {a : Nat} (ha : a < 65536) (h4 : a % 4 = 0)
    (hr : regionOf s.params a = .iv ∨ regionOf s.params a = .key ∨ regionOf s.params a = .ibuf) (w : Word)
    (rest : List HostOp) (n : Nat) :
    core.run (n + 1) { s with host := .write (BitVec.ofNat 16 a) w :: rest } =
      core.run n { s with host := rest, mem := s.mem.writeBytes a (lanes w) } := by
  apply run_succ
  rw [step_idle h, hostOp_write ha h4]
  exact congrArg _ (busWrite_window (s := { s with host := rest }) h hr w)

/-- The writes of a buffer to a window from word `i` on, the bytes before it already there. -/
theorem run_writeWords {base : Nat} (b : Buffer) (hb : base % 4 = 0) (rest : List HostOp) :
    ∀ n i (s : State), s.inFlight = none → base + 4 * (i + n) ≤ 65536 →
      (∀ j < i + n, regionOf s.params (base + 4 * j) = .iv ∨ regionOf s.params (base + 4 * j) = .key ∨
        regionOf s.params (base + 4 * j) = .ibuf) →
      (∀ k < 4 * i, s.mem.read (base + k) = b.getD k 0) →
      ∃ m : Memory,
        core.run n { s with
          host := (List.range' i n).map (fun j => .write (BitVec.ofNat 16 (base + 4 * j)) (laneWord b j)) ++ rest } =
          .next { s with host := rest, mem := m } ∧
        (∀ k < 4 * (i + n), m.read (base + k) = b.getD k 0) ∧
        ∀ a, (a < base ∨ base + 4 * (i + n) ≤ a) → m.read a = s.mem.read a := by
  intro n
  induction n with
  | zero => intro i s _ _ _ h1; exact ⟨s.mem, rfl, h1, fun _ _ => rfl⟩
  | succ n ih =>
    intro i s h0 hw hr h1
    have e : i + 1 + n = i + (n + 1) := by omega
    obtain ⟨m, h2, h3, h4⟩ := ih (i + 1) { s with mem := s.mem.writeBytes (base + 4 * i) (lanes (laneWord b i)) } h0
      (by omega) (by rw [e]; exact hr)
      (by
        intro k hk
        rw [Memory.read_writeBytes]
        split
        · next h =>
          rw [length_lanes] at h
          rw [show base + k - (base + 4 * i) = k - 4 * i by omega, lanes_laneWord _ _ (by omega)]
          congr 1; omega
        · next h => rw [length_lanes] at h; exact h1 k (by omega))
    rw [e] at h3 h4
    refine ⟨m, ?_, h3, fun a ha => ?_⟩
    · rw [List.range'_succ, List.map_cons, List.cons_append, run_window_write h0 (by omega) (by omega) (hr i (by omega))]
      exact h2
    · rw [h4 a ha, Memory.read_writeBytes_outside (by rw [length_lanes]; omega)]

/-- The writes of a whole buffer to a window of an idle engine: its bytes stand at the window's offsets, the bytes of the
last word past the buffer's end are 0, and every other byte is as before (30_encoding.md R100). -/
theorem run_writeBuffer {s : State} (h0 : s.inFlight = none) {base : Nat} (b : Buffer) (hb : base % 4 = 0)
    (hw : base + 4 * ((b.length + 3) / 4) ≤ 65536)
    (hr : ∀ j < (b.length + 3) / 4, regionOf s.params (base + 4 * j) = .iv ∨ regionOf s.params (base + 4 * j) = .key ∨
      regionOf s.params (base + 4 * j) = .ibuf) (rest : List HostOp) :
    ∃ m : Memory,
      core.run (writeBuffer base b).length { s with host := writeBuffer base b ++ rest } =
        .next { s with host := rest, mem := m } ∧
      (∀ k < 4 * ((b.length + 3) / 4), m.read (base + k) = b.getD k 0) ∧
      ∀ a, (a < base ∨ base + 4 * ((b.length + 3) / 4) ≤ a) → m.read a = s.mem.read a := by
  obtain ⟨m, h1, h2, h3⟩ := run_writeWords b hb rest ((b.length + 3) / 4) 0 s h0 (by omega)
    (by rw [Nat.zero_add]; exact hr) (fun k hk => by omega)
  rw [Nat.zero_add] at h2 h3
  rw [← List.range_eq_range'] at h1
  exact ⟨m, by rw [length_writeBuffer]; exact h1, h2, h3⟩

/-! ### RDBUF -/

/-- RDBUF reads OLEN and puts the reads of OBUF in its place (30_encoding.md R100). -/
theorem step_rdbuf {s : State} (h : s.inFlight = none) (rest : List HostOp) :
    step { s with host := .rdbuf :: rest } =
      .next { s with host := obufReads s.olen.toNat ++ rest, observed := s.olen :: s.observed } := by
  rw [step_idle h]
  simp [hostOp, busRead, State.busy, h, idleRead, regionOf, olenAddr, State.observe]

/-- A run of an idle engine whose next operation reads a word of OBUF. -/
theorem run_obuf_read {s : State} (h : s.inFlight = none) {a : Nat} (ha : a < 65536) (h4 : a % 4 = 0)
    (hr : regionOf s.params a = .obuf) (rest : List HostOp) (n : Nat) :
    core.run (n + 1) { s with host := .read (BitVec.ofNat 16 a) :: rest } =
      core.run n { s with host := rest, observed := s.mem.readWord a :: s.observed } := by
  apply run_succ
  rw [step_idle h, hostOp_read ha h4, busRead_idle (s := { s with host := rest }) h]
  simp only [idleRead, hr, State.observe]

/-- The reads of OBUF of an idle engine from word `i` on. -/
theorem run_obufWords (rest : List HostOp) :
    ∀ n i (s : State), s.inFlight = none → obufBase + 4 * (i + n) ≤ 65536 →
      (∀ j < i + n, regionOf s.params (obufBase + 4 * j) = .obuf) →
      core.run n { s with
        host := (List.range' i n).map (fun j => .read (BitVec.ofNat 16 (obufBase + 4 * j))) ++ rest } =
      .next { s with
        host := rest
        observed := ((List.range' i n).map fun j => s.mem.readWord (obufBase + 4 * j)).reverse ++ s.observed } := by
  intro n
  induction n with
  | zero => intro i s _ _ _; rfl
  | succ n ih =>
    intro i s h0 hw hr
    rw [List.range'_succ, List.map_cons, List.cons_append,
      run_obuf_read h0 (by omega) (by unfold obufBase; omega) (hr i (by omega))]
    have h := ih (i + 1) { s with observed := s.mem.readWord (obufBase + 4 * i) :: s.observed } h0 (by omega)
      (fun j hj => hr j (by omega))
    rw [List.map_cons, List.reverse_cons, List.append_assoc]
    exact h

/-- The reads of RDBUF of an idle engine return the words of OBUF, first word first. -/
theorem run_obufReads {s : State} (h0 : s.inFlight = none) (n : Nat) (hw : obufBase + 4 * ((n + 3) / 4) ≤ 65536)
    (hr : ∀ j < (n + 3) / 4, regionOf s.params (obufBase + 4 * j) = .obuf) (rest : List HostOp) :
    core.run ((n + 3) / 4) { s with host := obufReads n ++ rest } =
      .next { s with
        host := rest
        observed := ((List.range ((n + 3) / 4)).map fun j => s.mem.readWord (obufBase + 4 * j)).reverse ++ s.observed } := by
  have h := run_obufWords rest ((n + 3) / 4) 0 s h0 (by rwa [Nat.zero_add]) (by rwa [Nat.zero_add])
  rw [← List.range_eq_range'] at h
  exact h

/-- The four lanes of a word read from the window are the window's bytes (20_memory.md R67). -/
theorem lanes_readWord (m : Memory) (a : Nat) :
    lanes (m.readWord a) = [m.read a, m.read (a + 1), m.read (a + 2), m.read (a + 3)] := by
  have h : ∀ k < 4, (lanes (m.readWord a)).getD k 0 = m.read (a + k) := by
    intro k hk
    rw [lanes_getD _ hk, Memory.readWord, toNat_lanes]
    apply BitVec.eq_of_toNat_eq
    have := (m.read a).isLt
    have := (m.read (a + 1)).isLt
    have := (m.read (a + 2)).isLt
    have := (m.read (a + 3)).isLt
    interval_cases k <;> simp only [BitVec.toNat_ofNat, Nat.add_zero] <;> omega
  exact congrArg₂ List.cons (h 0 (by omega)) (congrArg₂ List.cons (h 1 (by omega))
    (congrArg₂ List.cons (h 2 (by omega)) (congrArg₂ List.cons (h 3 (by omega)) rfl)))

/-- The lanes of consecutive words are consecutive bytes. -/
theorem flatMap_lanes_readWord (m : Memory) (base n : Nat) :
    ((List.range n).map fun j => m.readWord (base + 4 * j)).flatMap lanes = (List.range (4 * n)).map fun k => m.read (base + k) := by
  induction n with
  | zero => rfl
  | succ n ih =>
    rw [List.range_succ, List.map_append, List.flatMap_append, ih, show 4 * (n + 1) = 4 * n + 1 + 1 + 1 + 1 by omega]
    simp only [List.range_succ, List.map_append, List.map_cons, List.map_nil, List.flatMap_cons, List.flatMap_nil,
      lanes_readWord, List.append_nil, List.append_assoc, List.cons_append, List.nil_append, Nat.add_assoc]

end Sys2Proof.Machine
end

