-- ==== Sys2Proof/Laws/PerInstr.lean ====
section
/-! SUPPORT. What holds of every command as syntax, one lemma per command. -/

namespace Sys2Proof.Laws.EncodeFields

open Sys2Proof

/-- The word of a term has `zero` clear (30_encoding.md R93), and the word of an ill-formed term is refused
(30_encoding.md R92, R95). -/
def Statement (i : Instr) : Prop :=
  zeroField (encode i) = 0 ∧ (i.wellFormed = false → ∃ r, decode (encode i) = .error r)

/-- A refusal, as a Bool that the kernel evaluates. -/
def refused (w : Word) : Bool :=
  match decode w with
  | .ok _ => false
  | .error _ => true

theorem exists_of_refused {w : Word} (h : refused w = true) : ∃ r, decode w = .error r := by
  unfold refused at h
  split at h
  · cases h
  · next r hr => exact ⟨r, hr⟩

theorem nop : Statement .nop := ⟨by decide, fun h => by cases h⟩

theorem clear : Statement .clear := ⟨by decide, fun h => by cases h⟩

theorem xfer : Statement .xfer := ⟨by decide, fun h => by cases h⟩

theorem mpLoad (r : Selector) : Statement (.mpLoad r) := by
  refine ⟨?_, fun h => exists_of_refused ?_⟩ <;> revert r <;> decide

theorem mpStore (r : Selector) : Statement (.mpStore r) := by
  refine ⟨?_, fun h => exists_of_refused ?_⟩ <;> revert r <;> decide

theorem mpMov (rd rs : Selector) : Statement (.mpMov rd rs) := by
  refine ⟨?_, fun h => exists_of_refused ?_⟩ <;> revert rd rs <;> decide

theorem montmul : Statement .montmul := ⟨by decide, fun h => by cases h⟩

theorem modexp : Statement .modexp := ⟨by decide, fun h => by cases h⟩

theorem rsaEnc : Statement .rsaEnc := ⟨by decide, fun h => by cases h⟩

theorem rsaDec : Statement .rsaDec := ⟨by decide, fun h => by cases h⟩

theorem aesKeyexp : Statement .aesKeyexp := ⟨by decide, fun h => by cases h⟩

theorem aesEncBlk : Statement .aesEncBlk := ⟨by decide, fun h => by cases h⟩

theorem aesDecBlk : Statement .aesDecBlk := ⟨by decide, fun h => by cases h⟩

theorem cbcEnc : Statement .cbcEnc := ⟨by decide, fun h => by cases h⟩

theorem cbcDec : Statement .cbcDec := ⟨by decide, fun h => by cases h⟩

theorem pkcs7Pad : Statement .pkcs7Pad := ⟨by decide, fun h => by cases h⟩

theorem pkcs7Check : Statement .pkcs7Check := ⟨by decide, fun h => by cases h⟩

theorem pkcs7Unpad : Statement .pkcs7Unpad := ⟨by decide, fun h => by cases h⟩

theorem hexEnc : Statement .hexEnc := ⟨by decide, fun h => by cases h⟩

theorem hexDec : Statement .hexDec := ⟨by decide, fun h => by cases h⟩

end Sys2Proof.Laws.EncodeFields
end

