-- ==== Sys2Proof/Tests/Slice0.lean ====
section
/-! SUPPORT. The model's own tests: ill-formed terms, words written out from the encoding, the spec's vectors, and a
witness for the hypotheses of every statement. Expected values come from spec/95_test_vectors.md unless said otherwise. -/

namespace Sys2Proof.Tests

-- The kernel evaluations below are checked one after another: many at once need more threads than the memory limit has room for.
set_option Elab.async false

open Sys2Proof.Machine

/-! ### Helpers -/

/-- The outcome is a next state of which `p` holds. -/
def nextWith (r : Result) (p : State → Bool) : Bool :=
  match r with
  | .next t => p t
  | .fault _ => false
  | .refused _ => false

/-- The outcome is the next state `t`. -/
def nextIs (r : Result) (t : State) : Bool := nextWith r fun u => u == t

theorem eq_of_nextIs {r : Result} {t : State} (h : nextIs r t = true) : r = .next t := by
  cases r <;> simp_all [nextIs, nextWith]

/-- `n` bytes written as one number, the first byte most significant. -/
def bytesOf (n v : Nat) : Buffer := (List.range n).map fun i => BitVec.ofNat 8 (v / 256 ^ (n - 1 - i))

/-- The state with `b` loaded as the input buffer. -/
def inputOf (s : State) (b : Buffer) : State :=
  { s with mem := s.mem.writeBytes ibufBase b, ilen := BitVec.ofNat 32 b.length }

/-- The state with `k` loaded as the key. -/
def keyOf (s : State) (k : Buffer) : State :=
  { s with mem := s.mem.writeBytes keyBase k, klen := BitVec.ofNat 32 k.length }

/-- The state with `v` loaded as the IV. -/
def ivOf (s : State) (v : Buffer) : State := { s with mem := s.mem.writeBytes ivBase v }

/-- The state with the word `w` in flight and `n` steps to its engine step. -/
def flying (s : State) (w : Word) (n : Nat) : State := { s with inFlight := some { word := w, wait := n } }

/-- The command completed and its output buffer is `b`. -/
def outIs (r : Result) (b : Buffer) : Bool :=
  nextWith r fun t => t.done && !t.busy && t.olen == BitVec.ofNat 32 b.length && t.outBytes == b

/-- The command completed and the register holds `v`. -/
def regIs (r : Result) (q : MpReg) (v : Nat) : Bool := nextWith r fun t => t.done && !t.busy && t.mp q == v

/-- The command faulted with code `c` on `s`, and wrote nothing else. -/
def faultIs (r : Result) (s : State) (c : Byte) : Bool := nextIs r (faulted s c)

/-- "hello" (2.6). -/
def hello : Buffer := [0x68, 0x65, 0x6C, 0x6C, 0x6F]

/-- "hello" padded to sixteen bytes (2.4, V1). -/
def helloPadded : Buffer := bytesOf 16 0x68656c6c6f0b0b0b0b0b0b0b0b0b0b0b

/-- The key 00 01 .. 0f (2.3). -/
def key16 : Buffer := bytesOf 16 0x000102030405060708090a0b0c0d0e0f

/-- The block 00 11 .. ff (2.3). -/
def block16 : Buffer := bytesOf 16 0x00112233445566778899aabbccddeeff

/-- The state with the small RSA key of 2.8. -/
def rsaState (e : Nat) (b : Buffer) : State := inputOf { State.reset with mpn := 3233, mpe := e } b

/-- The reset state with the three operands of a big-integer command. -/
def operands (n a b e : Nat) : State := { State.reset with mpn := n, mpa := a, mpb := b, mpe := e }

/-! ### WellFormed: an ill-formed term for each check -/

theorem test_illformed_mpLoad : Instr.wellFormed (.mpLoad 5) = false := by decide
theorem test_illformed_mpStore : Instr.wellFormed (.mpStore 15) = false := by decide
theorem test_illformed_mpMov_rd : Instr.wellFormed (.mpMov 5 0) = false := by decide
theorem test_illformed_mpMov_rs : Instr.wellFormed (.mpMov 0 5) = false := by decide
theorem test_wellformed_last_selector : Instr.wellFormed (.mpMov 4 4) = true := by decide

/-! ### Decoding: a word for each command, written out as zero, rs, rd, op (30_encoding.md R90, R94) -/

theorem test_decode_nop : decode 0b0000000000000000_0000_0000_00000000 = .ok .nop := by decide
theorem test_decode_clear : decode 0b0000000000000000_0000_0000_00000001 = .ok .clear := by decide
theorem test_decode_xfer : decode 0b0000000000000000_0000_0000_00000010 = .ok .xfer := by decide
theorem test_decode_mpLoad : decode 0b0000000000000000_0000_0011_00010000 = .ok (.mpLoad (selectorOf .mpb)) := by decide
theorem test_decode_mpStore : decode 0b0000000000000000_0100_0000_00010001 = .ok (.mpStore (selectorOf .mpr)) := by decide
theorem test_decode_mpMov :
    decode 0b0000000000000000_0001_0011_00010010 = .ok (.mpMov (selectorOf .mpb) (selectorOf .mpe)) := by decide
theorem test_decode_montmul : decode 0b0000000000000000_0000_0000_00011000 = .ok .montmul := by decide
theorem test_decode_modexp : decode 0b0000000000000000_0000_0000_00011001 = .ok .modexp := by decide
theorem test_decode_rsaEnc : decode 0b0000000000000000_0000_0000_00011010 = .ok .rsaEnc := by decide
theorem test_decode_rsaDec : decode 0b0000000000000000_0000_0000_00011011 = .ok .rsaDec := by decide
theorem test_decode_aesKeyexp : decode 0b0000000000000000_0000_0000_00100000 = .ok .aesKeyexp := by decide
theorem test_decode_aesEncBlk : decode 0b0000000000000000_0000_0000_00100001 = .ok .aesEncBlk := by decide
theorem test_decode_aesDecBlk : decode 0b0000000000000000_0000_0000_00100010 = .ok .aesDecBlk := by decide
theorem test_decode_cbcEnc : decode 0b0000000000000000_0000_0000_00101000 = .ok .cbcEnc := by decide
theorem test_decode_cbcDec : decode 0b0000000000000000_0000_0000_00101001 = .ok .cbcDec := by decide
theorem test_decode_pkcs7Pad : decode 0b0000000000000000_0000_0000_00110000 = .ok .pkcs7Pad := by decide
theorem test_decode_pkcs7Check : decode 0b0000000000000000_0000_0000_00110001 = .ok .pkcs7Check := by decide
theorem test_decode_pkcs7Unpad : decode 0b0000000000000000_0000_0000_00110010 = .ok .pkcs7Unpad := by decide
theorem test_decode_hexEnc : decode 0b0000000000000000_0000_0000_00111000 = .ok .hexEnc := by decide
theorem test_decode_hexDec : decode 0b0000000000000000_0000_0000_00111001 = .ok .hexDec := by decide

/-- The illegal words of 2.10, each for its own reason. -/
theorem test_decode_illegal :
    decode 0x000000FF = .error .unassignedOpcode ∧ decode 0x00010000 = .error .zeroFieldSet ∧
    decode 0x00000100 = .error .rdFieldSet ∧ decode 0x00000510 = .error .rdNotARegister ∧
    decode 0x00001010 = .error .rsFieldSet ∧ decode 0x00000111 = .error .rdFieldSet ∧
    decode 0x00005012 = .error .rsNotARegister ∧ decode 0x00000128 = .error .rdFieldSet := by decide

theorem test_decodeTableWord : decodeTableWord 32 0x4112 = some (.mpMov 1 4) := by decide

/-- The instruction placed in the reset state runs at the very next step (2.10: STATUS = 0x2). -/
theorem test_step_runs_placed_nop :
    nextWith (step (State.reset.withFetchWord 32 0)) (fun t => t.statusWord == 2) = true := by decide +kernel

/-- A placed illegal word faults IllegalCommand (2.10). -/
theorem test_step_illegal_word :
    nextWith (step (State.reset.withFetchWord 32 0x510)) (fun t => t.statusWord == 4 && t.errCode == 0x10) = true := by
  decide +kernel

/-! ### The bus (2.10, after reset) -/

theorem test_bus_constants :
    busRead State.reset 0x0000 = 0x434F5245 ∧ busRead State.reset 0x0004 = 0x10000800 ∧
    busRead State.reset 0x0008 = 0x00011020 ∧ busRead State.reset 0x0010 = 0 ∧ busRead State.reset 0x0014 = 0 ∧
    busRead State.reset 0x0028 = 0x00000010 ∧ busRead State.reset 0x0030 = 0 := by decide +kernel

theorem test_bus_lanes :
    (inputOf State.reset hello).mem = (busWrite (busWrite State.reset 0x1000 0x6C6C6568) 0x1004 0x0000006F).mem := by
  decide +kernel

theorem test_bus_ignored_writes :
    (busWrite State.reset 0x0028 0x00000108).padbs = 8 ∧ busWrite State.reset 0x2000 0xFFFFFFFF = State.reset ∧
    busWrite State.reset 0x0014 0 = State.reset := by decide +kernel

/-- While ERR = 1 NOP is dropped and CLEAR is accepted (P4). -/
theorem test_bus_command_while_err :
    busWrite { State.reset with err := true } 0x0010 0 = { State.reset with err := true } ∧
    (busWrite { State.reset with err := true } 0x0010 1).busy = true := by decide +kernel

/-! ### Control and transfer -/

theorem test_clear :
    nextIs (exec .clear { keyOf State.reset key16 with err := true, errCode := 1, pinv := true, mpr := 7 })
      { State.reset with done := true } = true := by decide +kernel

theorem test_xfer :
    nextWith (exec .xfer (State.reset.putOut hello)) (fun t => t.input == hello && t.outBytes == hello) = true := by
  decide +kernel

theorem test_mpLoad : regIs (exec (.mpLoad 0) (inputOf State.reset [0x00, 0x00, 0x0C, 0xA1])) .mpn 3233 = true := by
  decide +kernel

theorem test_mpLoad_too_large :
    faultIs (exec (.mpLoad 0) (inputOf State.reset (0x01 :: List.replicate 256 0)))
      (inputOf State.reset (0x01 :: List.replicate 256 0)) 0x13 = true := by decide +kernel

theorem test_mpStore : outIs (exec (.mpStore 4) { State.reset with mpr := 65537 }) [0x01, 0x00, 0x01] = true := by
  decide +kernel

theorem test_mpStore_zero : outIs (exec (.mpStore 0) State.reset) [] = true := by decide +kernel

/-- The destination is bits 11:8 and the source bits 15:12 (P5: word 0x00004212 copies MPR to MPA). -/
theorem test_mpMov :
    nextWith (step (({ State.reset with mpr := 1878, mpa := 65 }).withFetchWord 32 0x4212))
      (fun t => t.mpa == 1878 && t.mpr == 1878) = true := by decide +kernel

/-! ### Big integers and RSA (2.8, 2.9) -/

theorem test_montmul : regIs (exec .montmul (operands 3233 65 205 0)) .mpr 1878 = true := by decide +kernel

theorem test_montmul_sixtyFour :
    regIs (exec .montmul { operands 0xFFFFFFFFFFFFFFC5 2 3 0 with
      params := { Params.default with mpBits := 64 } }) .mpr 0xc797dd49c3411584 = true := by decide +kernel

theorem test_modexp : regIs (exec .modexp (operands 1000 123456789 0 65537)) .mpr 629 = true := by decide +kernel

theorem test_modexp_one : regIs (exec .modexp (operands 1 5 0 0)) .mpr 0 = true := by decide +kernel

theorem test_rsaEnc : outIs (exec .rsaEnc (rsaState 17 [0x00, 0x00, 0x41])) [0x0A, 0xE6] = true := by decide +kernel

theorem test_rsaEnc_modulus :
    faultIs (exec .rsaEnc (rsaState 17 [0x0C, 0xA1])) (rsaState 17 [0x0C, 0xA1]) 0x03 = true := by decide +kernel

theorem test_rsaDec : outIs (exec .rsaDec (rsaState 2753 [0x0A, 0xE6])) [0x41] = true := by decide +kernel

theorem test_rsaDec_modulus :
    faultIs (exec .rsaDec (rsaState 2753 [0x0C, 0xA1])) (rsaState 2753 [0x0C, 0xA1]) 0x04 = true := by decide +kernel

/-! ### AES and CBC (2.2 to 2.4) -/

/-- The first and the last round key of the schedule of the 32-byte zero key. -/
theorem test_aesKeyexp :
    nextWith (exec .aesKeyexp (keyOf State.reset (List.replicate 32 0))) (fun t => t.olen == 240 &&
      t.outBytes.drop 224 == bytesOf 16 0x10f80a1753bf729c45c979e7cb706385 &&
      (t.outBytes.drop 48).take 16 == bytesOf 16 0xaafbfbfbaafbfbfbaafbfbfbaafbfbfb) = true := by decide +kernel

theorem test_aesEncBlk :
    outIs (exec .aesEncBlk (inputOf (keyOf State.reset key16) block16))
      (bytesOf 16 0x69c4e0d86a7b0430d8cdb78070b4c55a) = true := by decide +kernel

theorem test_aesDecBlk :
    outIs (exec .aesDecBlk (inputOf (keyOf State.reset key16) (bytesOf 16 0x69c4e0d86a7b0430d8cdb78070b4c55a))) block16 = true := by
  decide +kernel

theorem test_cbcEnc :
    outIs (exec .cbcEnc (inputOf (ivOf (keyOf State.reset key16) (bytesOf 16 0x101112131415161718191a1b1c1d1e1f))
      (bytesOf 32 0x54686520717569636b2062726f776e20666f780d0d0d0d0d0d0d0d0d0d0d0d0d)))
      (bytesOf 32 0x3f619c6faefed52c801aa3d5ffd799788b023709b7fe7b39bc9440a73c4425ec) = true := by decide +kernel

/-- T1: the tampered ciphertext of "hello". -/
theorem test_cbcDec :
    outIs (exec .cbcDec (inputOf (keyOf State.reset (List.replicate 16 0)) (bytesOf 16 0x9834ed518cbc8fbe9af3c6ecb75eb8c1)))
      (bytesOf 16 0xb24a240a1af361bedd9f03a98107c8d0) = true := by decide +kernel

/-! ### PKCS7 and hex (2.6, 2.7) -/

theorem test_pkcs7Pad :
    outIs (exec .pkcs7Pad (inputOf { State.reset with padbs := 8 } hello)) (hello ++ [0x03, 0x03, 0x03]) = true := by
  decide +kernel

theorem test_pkcs7Pad_255 :
    outIs (exec .pkcs7Pad { State.reset with padbs := 255 }) (List.replicate 255 0xFF) = true := by decide +kernel

theorem test_pkcs7Check :
    nextWith (exec .pkcs7Check (inputOf State.reset (hello ++ [0x0A] ++ List.replicate 10 0x0B)))
      (fun t => t.statusWord == 0xA) = true := by decide +kernel

/-- U6: a pad value above the block size is valid. -/
theorem test_pkcs7Check_large_pad :
    nextWith (exec .pkcs7Check (inputOf State.reset (List.replicate 12 0x61 ++ List.replicate 20 0x14)))
      (fun t => t.statusWord == 0x2) = true := by decide +kernel

theorem test_pkcs7Unpad : outIs (exec .pkcs7Unpad (inputOf State.reset helloPadded)) hello = true := by decide +kernel

theorem test_pkcs7Unpad_invalid :
    faultIs (exec .pkcs7Unpad (inputOf State.reset (List.replicate 15 0x61 ++ [0x11])))
      (inputOf State.reset (List.replicate 15 0x61 ++ [0x11])) 0x01 = true := by decide +kernel

theorem test_hexEnc :
    outIs (exec .hexEnc (inputOf State.reset [0x98, 0x34, 0xED])) [0x39, 0x38, 0x33, 0x34, 0x65, 0x64] = true := by
  decide +kernel

theorem test_hexDec : outIs (exec .hexDec (inputOf State.reset [0x61, 0x62, 0x67])) [0xAB] = true := by decide +kernel

theorem test_hexDec_uppercase :
    faultIs (exec .hexDec (inputOf State.reset [0x30, 0x41])) (inputOf State.reset [0x30, 0x41]) 0x17 = true := by
  decide +kernel

/-! ### Witnesses: for each statement with hypotheses a state and operands that meet them together, and for each clause
values at the ends of its range -/

/-- The reset state with the lengths and the block size given. -/
def lengths (ilen klen : Word) (padbs : Byte) : State := { State.reset with ilen := ilen, klen := klen, padbs := padbs }

/-- An instance with the smallest registers and the buffer they need. -/
def smallInstance : State := { State.reset with params := { mpBits := 64, keyBytesMax := 16, bufMax := 176 } }

theorem default_valid : State.reset.params.Valid := by decide
theorem small_valid : smallInstance.params.Valid := by decide

theorem test_witness_DecodeOfEncodeIsTheInstruction :
    Instr.wellFormed (.mpMov 4 4) = true ∧ Instr.wellFormed (.mpLoad 0) = true ∧ Instr.wellFormed (.mpStore 4) = true ∧
    Instr.wellFormed .hexDec = true := by decide

theorem test_witness_EveryLegalWordIsAnEncoding :
    decode 0x00004412 = .ok (.mpMov 4 4) ∧ decode 0x00000010 = .ok (.mpLoad 0) := by decide

/-- A row that uses both selectors, with a word that matches it and one whose selectors are past the last register. -/
theorem test_witness_WordsMatchTheOpcodeMap :
    (∃ row ∈ opcodeRows, row.usesRd = true ∧ row.usesRs = true ∧ (0x00004412 : Word) &&& row.mask = row.matchWord ∧
      (0x00005512 : Word) &&& row.mask = row.matchWord) ∧
    (0x00004412 : Word).toNat / 256 % 16 ≤ 4 ∧ (0x00004412 : Word).toNat / 4096 % 16 ≤ 4 ∧
    ¬ (0x00005512 : Word).toNat / 256 % 16 ≤ 4 := by
  refine ⟨⟨{ matchWord := 0x00000012, mask := 0xFFFF00FF, command := (fun rd rs => .mpMov rd rs), usesRd := true, usesRs := true },
    by simp [opcodeRows], ?_⟩, ?_⟩ <;> decide

/-- Each way a word is illegal, and legal words beside them. -/
theorem test_witness_IllegalWordsFaultAndExecuteNothing :
    (∀ w ∈ ([0x00000003, 0x00010000, 0x00000100, 0x00001000, 0x00000510, 0x00005011] : List Nat), IllegalWord (BitVec.ofNat 32 w)) ∧
    (∀ w ∈ ([0x00000410, 0x00004011, 0x00004412] : List Nat), ¬ IllegalWord (BitVec.ofNat 32 w)) ∧
    (flying State.reset 0x00000003 0).inFlight = some { word := 0x00000003, wait := 0 } := by
  unfold IllegalWord; decide +kernel

theorem test_witness_StepRunsTheDecodedCommand :
    (flying State.reset 0x00000028 0).inFlight = some { word := 0x00000028, wait := 0 } ∧
    decode 0x00000028 = .ok .cbcEnc := by decide

theorem test_witness_WaitingCommandKeepsTheStateAtAcceptance :
    (flying State.reset 0x00000028 3).inFlight = some { word := 0x00000028, wait := 3 } ∧
    ∀ op ∈ [HostOp.read 0x0014, .write 0x0010 0, .wait, .rdbuf, .write 0x1000 7], op.plain = true := by decide

/-- Busy; idle with ERR; idle without, and idle with ERR and CLEAR's word. -/
theorem test_witness_AcceptanceOfACommandWrite :
    (flying State.reset 0x00000028 1).inFlight = some { word := 0x00000028, wait := 0 + 1 } ∧
    State.reset.inFlight = none ∧ ({ State.reset with err := true } : State).err = true ∧ State.reset.err = false ∧
    (0x00000000 : Word) ≠ 0x00000001 := by decide

/-- Both ends of each unmapped gap: the gap after IBUF is empty for the largest buffer and not for a smaller one. -/
theorem test_witness_IdleBusReads :
    State.reset.params.Valid ∧ State.reset.inFlight = none ∧
    (∀ a ∈ [0x000C, 0x002C, 0x005C, 0x0070, 0x007C, 0x00A0, 0x0FFC, 0x3000, 0xFFFC], Unmapped State.reset.params a) ∧
    (∀ a ∈ [0x0090, 0x10B0, 0x1FFC, 0x20B0], Unmapped smallInstance.params a) ∧
    (∀ a ∈ [0x0010, 0x0028, 0x0060, 0x006C, 0x0080, 0x009C, 0x1000, 0x1FFC, 0x2000, 0x2FFC],
      ¬ Unmapped State.reset.params a) := by
  unfold Unmapped; decide

theorem test_witness_BusyHazard :
    State.reset.params.Valid ∧ (flying State.reset 0x00000028 1).inFlight = some { word := 0x00000028, wait := 0 + 1 } ∧
    0xFFFC < 65536 ∧ 0xFFFC % 4 = 0 := by decide

/-- The first and the last word of each writable window, and of the read-only ones. -/
theorem test_witness_IdleBusWrites :
    State.reset.params.Valid ∧ State.reset.inFlight = none ∧
    (∀ a ∈ [0x0060, 0x006C, 0x0080, 0x009C, 0x1000, 0x1FFC], a % 4 = 0 ∧
      ((0x0060 ≤ a ∧ a < 0x0070) ∨ (0x0080 ≤ a ∧ a < 0x0080 + State.reset.params.keyBytesMax) ∨
        (0x1000 ≤ a ∧ a < 0x1000 + State.reset.params.bufMax))) ∧
    (∀ a ∈ [0x2000, 0x2FFC], a % 4 = 0 ∧ 0x2000 ≤ a ∧ a < 0x2000 + State.reset.params.bufMax) := by decide

theorem test_witness_WaitPollsStatus :
    State.reset.inFlight = none ∧ (flying State.reset 0 1).inFlight = some { word := 0, wait := 0 + 1 } := by decide

theorem test_witness_LdBufLoadsTheInput :
    State.reset.params.Valid ∧ State.reset.inFlight = none ∧ hello.length ≤ State.reset.params.bufMax ∧
    (List.replicate 4096 (0x61 : Byte)).length ≤ State.reset.params.bufMax := by
  refine ⟨by decide, rfl, by decide, ?_⟩
  rw [List.length_replicate]; decide

theorem test_witness_OtherAccessesAreRefused :
    State.reset.inFlight = none ∧ (0x1001 : Addr).toNat % 4 ≠ 0 ∧ (0xFFFF : Addr).toNat % 4 ≠ 0 := by decide

theorem test_witness_ResetEventRestoresResetValues :
    (∀ f, State.reset.inFlight = some f → f.wait ≠ 0) ∧
    (∀ f, (flying State.reset 0x28 1).inFlight = some f → f.wait ≠ 0) := by
  refine ⟨fun f h => (by cases h), fun f h => ?_⟩
  cases h; decide

theorem test_witness_FaultsWriteNothingElse :
    exec .modexp State.reset = .next (faulted State.reset 0x14) ∧ (faulted State.reset 0x14).done = false := ⟨rfl, rfl⟩

/-- ILEN = 15 and KLEN = 0: the length is checked first (P6). A valid single block passes every check. -/
theorem test_witness_ChecksInTheStatedOrder :
    FirstFailing (checksOf (lengths 15 0 16) .cbcEnc) 0x05 ∧ NoneFails (checksOf (lengths 16 16 16) .aesEncBlk) := by
  refine ⟨Or.inr ⟨by decide, Or.inl ⟨by decide, rfl⟩⟩, by decide, by decide, ?_, trivial⟩
  unfold ValidKeyLength; decide

/-- CLEAR with ERR set, a faulting command, PKCS7_CHECK of the empty buffer, and a reset: each changes its flag. -/
theorem test_witness_WhoWritesTheFlags :
    nextWith (step (flying { State.reset with err := true, errCode := 5, pinv := true } 1 0))
      (fun t => !t.err && t.errCode == 0 && !t.pinv) = true ∧
    nextWith (step (flying State.reset 0x19 0)) (fun t => t.errCode == 0x14) = true ∧
    nextWith (step (flying State.reset 0x31 0)) (fun t => t.pinv) = true ∧
    nextWith (step { State.reset with err := true, errCode := 5, host := [.reset] }) (fun t => !t.err && t.errCode == 0) = true := by
  decide +kernel

theorem test_witness_WhoWritesTheByteArrays :
    State.reset.params.Valid ∧ exec .nop State.reset = .next State.reset.complete ∧
    exec .xfer State.reset = .next State.reset.copyOutToIn.complete ∧
    exec (.mpStore 0) State.reset = .next (State.reset.putOut []).complete := ⟨by decide, rfl, rfl, rfl⟩

theorem test_witness_WhoWritesMpRegisters :
    nextWith (exec .clear (operands 1 2 3 4)) (fun t => t.mpn != 1) = true ∧
    nextWith (exec (.mpLoad 3) (inputOf State.reset hello)) (fun t => t.mpb != 0) = true ∧
    nextWith (exec (.mpMov 2 0) (operands 1 2 3 4)) (fun t => t.mpa != 2) = true ∧
    nextWith (exec .modexp (operands 3233 65 0 17)) (fun t => t.mpr != 0) = true := by decide +kernel

/-- A state that is not the reset state: a key byte, a register, a fault taken, CLEAR running. -/
theorem test_witness_EveryStepKeepsTheInvariant :
    ∃ s t : State, s.Inv ∧ step s = .next t ∧ s ≠ State.reset := by
  refine ⟨flying { smallInstance with mem := [(0x80, 1)], mpn := 7, err := true, errCode := 0x14 } 1 0, _, ?_, rfl, by decide⟩
  exact
    { params := by decide
      memCanonical := by decide
      memInArrays := by unfold arrayOffset; decide
      registers := by intro r; cases r <;> decide
      olen := by decide
      busyNotDone := by decide
      errNotDone := by decide
      busyErr := by intro f hf _; cases hf; rfl
      codeZero := by decide
      codeKind := by decide }

theorem test_witness_CanonicalMemoriesAreEqual :
    Memory.wf [(0x60, 1), (0x80, 2)] ∧ ∀ a, Memory.read [(0x60, 1), (0x80, 2)] a = Memory.read [(0x60, 1), (0x80, 2)] a :=
  ⟨by decide, fun _ => rfl⟩

theorem test_witness_NopCompletes :
    ({ State.reset with err := true } : State).inFlight = none ∧ ({ State.reset with err := true } : State).err = true := by
  decide

theorem test_witness_ClearRestoresResetValues :
    State.reset.inFlight = none ∧ ({ State.reset with err := true } : State).inFlight = none ∧
    exec .clear { State.reset with err := true } = .next State.reset.complete ∧ (0x00000000 : Word) ≠ 0x00000001 :=
  ⟨rfl, rfl, rfl, by decide⟩

theorem test_witness_XferCopiesOutputToInput :
    State.reset.params.Valid ∧ (State.reset.putOut hello).olen.toNat ≤ State.reset.params.bufMax ∧
    ({ State.reset with olen := 4096 } : State).olen.toNat ≤ State.reset.params.bufMax := by decide

/-- A word with `rs` set; a selector past the last register; an input past the buffer; one that does not fit the
register (nine bytes, the first of them 1); the largest one that does. -/
theorem test_witness_MpLoadImportsTheInput :
    ((0x00001010 : Word).toNat % 256 = 0x10 ∧ (0x00001010 : Word).toNat / 4096 % 16 ≠ 0) ∧
    5 ≤ (5 : Selector).toNat ∧ State.reset.params.bufMax < (lengths 4097 0 16).ilen.toNat ∧
    2 ^ smallInstance.params.mpBits ≤ bigEndian (inputOf smallInstance (1 :: List.replicate 8 0)).ibuf 9 ∧
    bigEndian (inputOf smallInstance (List.replicate 8 0xFF)).ibuf 8 < 2 ^ smallInstance.params.mpBits := by
  decide +kernel

theorem test_witness_MpStoreExportsTheRegister :
    ((0x00000111 : Word).toNat % 256 = 0x11 ∧ (0x00000111 : Word).toNat / 256 % 16 ≠ 0) ∧
    5 ≤ (5 : Selector).toNat ∧ smallInstance.params.Valid ∧
    ({ smallInstance with mpb := 2 ^ 64 - 1 } : State).mp .mpb < 2 ^ smallInstance.params.mpBits := by decide

theorem test_witness_MpMovCopiesTheRegister :
    (5 ≤ (5 : Selector).toNat ∨ 5 ≤ (4 : Selector).toNat) ∧ (5 ≤ (0 : Selector).toNat ∨ 5 ≤ (15 : Selector).toNat) := by
  decide

/-- An even modulus; an odd one with an operand equal to it; one with both operands below it. -/
theorem test_witness_MontmulIsTheMontgomeryProduct :
    (operands 0 0 0 0).mpn % 2 = 0 ∧ ¬ (operands 3233 3233 1 0).mpn % 2 = 0 ∧
    (operands 3233 3233 1 0).mpn ≤ (operands 3233 3233 1 0).mpa ∧
    ¬ ((operands 3233 3232 3232 0).mpn ≤ (operands 3233 3232 3232 0).mpa ∨
      (operands 3233 3232 3232 0).mpn ≤ (operands 3233 3232 3232 0).mpb) := by decide

theorem test_witness_ModexpIsTheModularPower : (operands 0 5 0 3).mpn = 0 ∧ (operands 1 5 0 3).mpn ≠ 0 := by decide

/-- The number n - 1 and the number n (2.8). -/
theorem test_witness_RsaIsRawExponentiation :
    State.reset.params.Valid ∧ (rsaState 17 [0x0C, 0xA0]).mpn < 2 ^ State.reset.params.mpBits ∧
    ¬ (rsaState 17 []).mpn ≤ bigEndian (rsaState 17 [0x0C, 0xA0]).ibuf 2 ∧
    (rsaState 17 []).mpn ≤ bigEndian (rsaState 17 [0x0C, 0xA1]).ibuf 2 ∧
    State.reset.params.bufMax < (lengths 4097 0 16).ilen.toNat := by decide +kernel

theorem test_witness_MontgomeryChainEqualsModexp :
    (operands 3233 0 0 0).mpn % 2 = 1 ∧ 3 ≤ (operands 3233 0 0 0).mpn ∧ 17 < 2 ^ 5 := by decide

/-- The small RSA key of 2.8. -/
theorem test_witness_RsaRoundTrip :
    State.reset.params.Valid ∧ (61 : Nat).Prime ∧ (53 : Nat).Prime ∧ (rsaState 17 [0x41]).mpn = 61 * 53 ∧
    (rsaState 17 [0x41]).mpe * 2753 % ((61 - 1) * (53 - 1)) = 1 % ((61 - 1) * (53 - 1)) ∧
    (rsaState 17 [0x41]).mpn < 2 ^ State.reset.params.mpBits ∧
    (rsaState 17 [0x41]).ilen.toNat ≤ State.reset.params.bufMax ∧
    bigEndian (rsaState 17 [0x41]).ibuf (rsaState 17 [0x41]).ilen.toNat < (rsaState 17 [0x41]).mpn :=
  ⟨by decide, by norm_num, by norm_num, rfl, rfl, by decide +kernel, by decide +kernel, by decide +kernel⟩

/-- The byte 0, and a byte with its inverse in the field. -/
theorem test_witness_SboxIsTheAffineInverse :
    (if (0 : Byte) = 0 then (0 : Byte) = 0 else gmul 0 0 = 1) ∧ (if (0x53 : Byte) = 0 then (0xCA : Byte) = 0 else gmul 0x53 0xCA = 1) := by
  decide +kernel

theorem test_witness_RoundStepsByteByByte : ∃ a : Nat → Byte, ∀ j < 4, a j = byteAt block16 (4 * 3 + j) :=
  ⟨fun j => byteAt block16 (4 * 3 + j), fun _ _ => rfl⟩

theorem test_witness_InverseCipherUndoesTheCipher : block16.length = 16 := by decide

/-- The key lengths accepted and refused by the default instance (2.2). -/
theorem test_witness_KeyexpWritesTheSchedule :
    State.reset.params.Valid ∧ (∀ n ∈ ([0, 8, 12, 15, 20, 28, 33, 40, 64, 0xFFFFFFF8] : List Nat), ¬ ValidKeyLength (lengths 0 (BitVec.ofNat 32 n) 16)) ∧
    (∀ n ∈ ([16, 24, 32] : List Nat), ValidKeyLength (lengths 0 (BitVec.ofNat 32 n) 16)) := by
  unfold ValidKeyLength; decide +kernel

/-- Too long; not a block, with any key; a block with a bad key; a block with a good one. -/
theorem test_witness_SingleBlockCommands :
    State.reset.params.Valid ∧ State.reset.params.bufMax < (lengths 4097 16 16).ilen.toNat ∧
    ((lengths 4096 16 16).ilen.toNat ≤ State.reset.params.bufMax ∧ (lengths 4096 16 16).ilen.toNat ≠ 16) ∧
    ((lengths 16 0 16).ilen.toNat = 16 ∧ ¬ ValidKeyLength (lengths 16 0 16)) ∧ ValidKeyLength (lengths 16 16 16) := by
  unfold ValidKeyLength; decide

/-- Each fault's lengths (2.4), and the shortest and the longest input accepted: for both CBC commands. -/
theorem test_witness_CbcEncChainsBlocks :
    State.reset.params.Valid ∧ State.reset.params.bufMax < (lengths 4112 16 16).ilen.toNat ∧
    ((lengths 0 20 16).ilen.toNat = 0 ∧ (lengths 5 20 16).ilen.toNat % 16 ≠ 0) ∧
    ¬ ValidKeyLength (lengths 16 20 16) ∧
    (lengths 16 16 16).ilen.toNat ≠ 0 ∧ (lengths 16 16 16).ilen.toNat % 16 = 0 ∧ ValidKeyLength (lengths 16 16 16) ∧
    (lengths 4096 16 16).ilen.toNat ≤ State.reset.params.bufMax ∧ (lengths 4096 16 16).ilen.toNat % 16 = 0 := by
  unfold ValidKeyLength; decide +kernel

theorem test_witness_CbcDecChainsBlocks :
    State.reset.params.Valid ∧ State.reset.params.bufMax < (lengths 4112 16 16).ilen.toNat ∧
    ((lengths 0 20 16).ilen.toNat = 0 ∧ (lengths 15 20 16).ilen.toNat % 16 ≠ 0) ∧ ¬ ValidKeyLength (lengths 16 20 16) ∧
    (lengths 32 16 16).ilen.toNat % 16 = 0 ∧ ValidKeyLength (lengths 32 16 16) := by
  unfold ValidKeyLength; decide

theorem test_witness_CbcRoundTrip :
    State.reset.params.Valid ∧ ValidKeyLength (lengths 32 24 16) ∧
    (lengths 32 24 16).ilen.toNat ≤ State.reset.params.bufMax ∧ (lengths 32 24 16).ilen.toNat ≠ 0 ∧
    (lengths 32 24 16).ilen.toNat % 16 = 0 := by
  unfold ValidKeyLength; decide

/-- Two ciphertexts of two blocks that differ in the first byte alone: block 0. -/
theorem test_witness_CbcDecErrorPropagation :
    ∃ (s s' t t' : State), s.params.Valid ∧ s'.params = s.params ∧ s'.ilen = s.ilen ∧ s'.klen = s.klen ∧
      (∀ k < s.klen.toNat, s'.key k = s.key k) ∧ (∀ k < 16, s'.iv k = s.iv k) ∧
      (∀ k < s.ilen.toNat, k / 16 ≠ 0 → s'.ibuf k = s.ibuf k) ∧ s'.ibuf 0 ≠ s.ibuf 0 ∧
      Completes .cbcDec s t ∧ Completes .cbcDec s' t' := by
  refine ⟨lengths 32 16 16, { lengths 32 16 16 with mem := [(0x1000, 1)] }, _, _, by decide, rfl, rfl, rfl, by decide,
    by decide, by decide, by decide, ⟨rfl, rfl, rfl⟩, ⟨rfl, rfl, rfl⟩⟩

/-- Two states with one key and block, and different IV, PADBS and registers. -/
theorem test_witness_SingleBlockDependsOnKeyAndBlock :
    ∃ (s s' t t' : State), s.params.Valid ∧ s'.params = s.params ∧ s'.ilen = s.ilen ∧ s'.klen = s.klen ∧
      (∀ k < s.klen.toNat, s'.key k = s.key k) ∧ (∀ k < 16, s'.ibuf k = s.ibuf k) ∧ s'.iv 0 ≠ s.iv 0 ∧
      exec .aesEncBlk s = .next t ∧ exec .aesEncBlk s' = .next t' ∧ t.done = true := by
  refine ⟨lengths 16 16 16, { lengths 16 16 8 with mem := [(0x60, 1)], mpn := 5 }, _, _, by decide, rfl, rfl, rfl,
    by decide, by decide, by decide, rfl, rfl, rfl⟩

/-- 4095 bytes still fit, 4096 overflow, 4097 are out of range; block size 0; block size 255 (2.6). -/
theorem test_witness_PadAppendsThePadding :
    State.reset.params.Valid ∧
    ¬ State.reset.params.bufMax < (lengths 4095 0 16).ilen.toNat + ((16 : Byte).toNat - (lengths 4095 0 16).ilen.toNat % (16 : Byte).toNat) ∧
    State.reset.params.bufMax < (lengths 4096 0 16).ilen.toNat + ((16 : Byte).toNat - (lengths 4096 0 16).ilen.toNat % (16 : Byte).toNat) ∧
    ¬ State.reset.params.bufMax < (lengths 4096 0 16).ilen.toNat ∧
    State.reset.params.bufMax < (lengths 4097 0 16).ilen.toNat ∧ (lengths 0 0 0).padbs = 0 ∧ (lengths 0 0 255).padbs ≠ 0 := by
  decide

/-- An invalid and a valid buffer (2.6). -/
theorem test_witness_CheckWritesPinv :
    InvalidPadded (inputOf State.reset hello).ibuf 5 16 ∧ ¬ InvalidPadded (inputOf State.reset helloPadded).ibuf 16 16 ∧
    (lengths 0 0 0).padbs = 0 ∧ State.reset.params.bufMax < (lengths 4097 0 16).ilen.toNat := by
  unfold InvalidPadded; decide +kernel

theorem test_witness_UnpadStripsThePadding :
    State.reset.params.Valid ∧ State.reset.params.bufMax < (lengths 4097 0 16).ilen.toNat ∧ (lengths 0 0 0).padbs = 0 ∧
    InvalidPadded (inputOf State.reset []).ibuf 0 16 ∧ ¬ InvalidPadded (inputOf State.reset (List.replicate 16 0x10)).ibuf 16 16 ∧
    ¬ InvalidPadded (inputOf State.reset (List.replicate 12 0x61 ++ List.replicate 20 0x14)).ibuf 32 16 := by
  unfold InvalidPadded; decide +kernel

theorem test_witness_PkcsRoundTrip :
    State.reset.params.Valid ∧ (lengths 0 0 1).padbs ≠ 0 ∧
    (lengths 0 0 1).ilen.toNat + (lengths 0 0 1).padbs.toNat ≤ State.reset.params.bufMax ∧
    (lengths 3841 0 255).ilen.toNat + (lengths 3841 0 255).padbs.toNat ≤ State.reset.params.bufMax := by decide

/-- 2048 bytes fit, 2049 overflow, 4097 are out of range (2.7). -/
theorem test_witness_HexEncWritesTwoCharactersAByte :
    State.reset.params.Valid ∧ ¬ State.reset.params.bufMax < 2 * (lengths 2048 0 16).ilen.toNat ∧
    State.reset.params.bufMax < 2 * (lengths 2049 0 16).ilen.toNat ∧ ¬ State.reset.params.bufMax < (lengths 2049 0 16).ilen.toNat ∧
    State.reset.params.bufMax < (lengths 4097 0 16).ilen.toNat := by decide

/-- "0A" holds a character that is none; "abg" holds one only in the place that is not looked at (2.7). -/
theorem test_witness_HexDecReadsTwoCharactersAByte :
    State.reset.params.Valid ∧ State.reset.params.bufMax < (lengths 4097 0 16).ilen.toNat ∧
    (∃ k < 2 * (2 / 2), (inputOf State.reset [0x30, 0x41]).ibuf k ∉ hexDigits) ∧
    (∀ k < 2 * (3 / 2), (inputOf State.reset [0x61, 0x62, 0x67]).ibuf k ∈ hexDigits) ∧
    (inputOf State.reset [0x61, 0x62, 0x67]).ibuf 0 = hexDigits.getD 10 0 ∧
    (inputOf State.reset [0x61, 0x62, 0x67]).ibuf 1 = hexDigits.getD 11 0 := by decide +kernel

theorem test_witness_HexRoundTrip :
    State.reset.params.Valid ∧ 2 * (lengths 2048 0 16).ilen.toNat ≤ State.reset.params.bufMax := by decide

/-- A pair with an inverse and one without (2.8: 17 × 2753 = 15 × 3120 + 1). -/
theorem test_witness_ModInverseOrNoInverse :
    2 ≤ 3120 ∧ Nat.gcd 17 3120 = 1 ∧ Nat.gcd 18 3120 ≠ 1 := by decide

/-- A key of the largest length, one too long, one that is no whole number of words; an IV and a shorter one; a full
output buffer and one whose length is no whole number of words. -/
theorem test_witness_KeyIvAndOutputPseudoOperations :
    State.reset.params.Valid ∧ State.reset.inFlight = none ∧
    KeyLoadable State.reset.params (List.replicate 32 1) ∧ ¬ KeyLoadable State.reset.params (List.replicate 36 1) ∧
    ¬ KeyLoadable State.reset.params (List.replicate 17 1) ∧
    (List.replicate 16 (1 : Byte)).length = 16 ∧ (List.replicate 12 (1 : Byte)).length ≠ 16 ∧
    (∀ n ∈ [0, 5, 4096], ({ State.reset with olen := BitVec.ofNat 32 n } : State).olen.toNat ≤ State.reset.params.bufMax) := by
  decide

/-- RDBUF of "hello": OLEN, then the two words of P1 (section 3); its result is the five bytes. -/
theorem test_rdbuf :
    nextWith (step { State.reset.putOut hello with host := rdBuf })
      (fun t => t.observed == [5] && t.host == [.read 0x2000, .read 0x2004]) = true ∧
    rdBufResult [5, 0x6C6C6568, 0x0000006F] = hello := by decide +kernel

theorem test_modInverse : modInverse 17 3120 = .ok 2753 := by decide +kernel

end Sys2Proof.Tests
end

/-! The invariant of Safety.lean: one lemma for each state operation that keeps it, then for the environment's turn,
the engine step and the whole step (10_state.md R23, R24, R28, R30, 00_scope.md R7). -/

namespace Sys2Proof.Machine

/-! ### The operations on a state -/

section Operations

variable {s : State}

/-- Reset leads to the invariant from every state with valid parameters, whatever else the state held
(70_reset_and_hazards.md R320). -/
theorem State.afterReset_inv (hp : s.params.Valid) : s.afterReset.Inv where
  params := hp
  memCanonical := Memory.wf_reset
  memInArrays := by simp
  registers r := by simp
  olen := Nat.zero_le _
  busyNotDone := by simp
  errNotDone := by simp
  busyErr := by simp
  codeZero := by simp
  codeKind := by simp

/-- The fields that the invariant does not speak of may take any value. -/
theorem State.Inv.unread (h : s.Inv) {pinv : Bool} {ilen klen : Word} {padbs : Byte} {host : List HostOp}
    {latency : List Nat} {observed : List Word} :
    State.Inv { s with pinv := pinv, ilen := ilen, klen := klen, padbs := padbs, host := host, latency := latency,
                       observed := observed } :=
  { h with }

/-- A fault takes DONE, ERR and ERRCODE to a combination of 10_state.md R23 and R28 from any other. -/
theorem State.Inv.raise (h : s.Inv) {e : ErrorKind} (he : e ∈ engineKinds) : (s.raise e).Inv :=
  { h with
    busyNotDone := fun _ => rfl
    errNotDone := fun _ => rfl
    busyErr := by simp
    codeZero := by simp
    codeKind := fun _ => ⟨e, he, rfl⟩ }

/-- Completion sets DONE, which 10_state.md R23 allows with ERR = 0 only. -/
theorem State.Inv.complete (h : s.Inv) (he : s.err = false) : s.complete.Inv :=
  { h with
    busyNotDone := by simp
    errNotDone := by simp [he]
    busyErr := by simp }

/-- Acceptance with ERR = 1 is for CLEAR's word only (60_exceptions.md R286). -/
theorem State.Inv.accept (h : s.Inv) {w : Word} (hw : s.err = true → w = encode .clear) (n : Nat) :
    (s.accept w n).Inv :=
  { h with
    busyNotDone := fun _ => rfl
    errNotDone := fun _ => rfl
    busyErr := by rintro f ⟨⟩ he; exact hw he }

/-- The command in flight comes nearer to its engine step. -/
theorem State.Inv.setWait (h : s.Inv) {f : Flight} (hf : s.inFlight = some f) (n : Nat) :
    State.Inv { s with inFlight := some { f with wait := n } } :=
  { h with
    busyNotDone := fun _ => h.busyNotDone (by simp [State.busy, hf])
    busyErr := by rintro _ ⟨⟩ he; exact h.busyErr f hf he }

theorem State.Inv.cleared (h : s.Inv) : s.cleared.Inv :=
  { State.afterReset_inv h.params with
    busyNotDone := h.busyNotDone
    errNotDone := by simp
    busyErr := by simp }

/-- A register takes a value within its width (10_state.md R24). -/
theorem State.Inv.setMp (h : s.Inv) (r : MpReg) {v : Nat} (hv : v < 2 ^ s.params.mpBits) : (s.setMp r v).Inv := by
  have width (q : MpReg) : (s.setMp r v).mp q < 2 ^ s.params.mpBits := by
    rw [State.setMp_mp]
    split
    · exact hv
    · exact h.registers q
  cases r <;> exact { h with registers := width }

/-- A buffer goes to a range of one of the four arrays. -/
theorem State.Inv.writeBytes (h : s.Inv) {base : Nat} {b : Buffer}
    (hb : ∀ x, base ≤ x → x < base + b.length → arrayOffset s.params x) :
    State.Inv { s with mem := s.mem.writeBytes base b } :=
  { h with
    memCanonical := Memory.wf_writeBytes h.memCanonical base b
    memInArrays := fun c hc => (Memory.mem_writeBytes hc).elim (fun hx => hb c.1 hx.1 hx.2) (h.memInArrays c) }

theorem State.Inv.putOut (h : s.Inv) {b : Buffer} (hb : b.length ≤ s.params.bufMax) : (s.putOut b).Inv := by
  have hlen : b.length < 2 ^ 32 := by have := h.params; omega
  have hmem := h.writeBytes (base := obufBase) (b := b) fun x h1 h2 => by
    unfold obufBase at h1 h2; unfold arrayOffset; omega
  exact { hmem with olen := (State.putOut_olen_toNat s b hlen).trans_le hb }

theorem State.length_outBytes_le (s : State) : s.outBytes.length ≤ s.params.bufMax := by
  simp [State.outBytes]

theorem State.Inv.copyOutToIn (h : s.Inv) : s.copyOutToIn.Inv :=
  (h.writeBytes (base := ibufBase) fun x h1 h2 => by
    have := s.length_outBytes_le
    unfold ibufBase at h1 h2; unfold arrayOffset; omega).unread

end Operations

/-! ### The environment's turn -/

/-- The regions a bus write reaches are the windows of IV, KEY and IBUF (20_memory.md R62, R64). -/
theorem window_of_regionOf {p : Params} {a : Nat}
    (h : regionOf p a = .iv ∨ regionOf p a = .key ∨ regionOf p a = .ibuf) :
    (0x0060 ≤ a ∧ a < 0x0070) ∨ (0x0080 ≤ a ∧ a < 0x0080 + p.keyBytesMax) ∨
    (0x1000 ≤ a ∧ a < 0x1000 + p.bufMax) := by
  simp only [regionOf, inWindow_iff, ivBase, keyBase, ibufBase, Config.block, ite_eq_iff, reduceCtorEq, and_false,
    and_true, false_or, or_false] at h
  omega

/-- All four bytes of a word in these windows lie in the array: the windows hold whole words (20_memory.md R62). -/
theorem arrayOffset_of_regionOf {p : Params} (hp : p.Valid) {a x : Nat} (h4 : a % 4 = 0)
    (h : regionOf p a = .iv ∨ regionOf p a = .key ∨ regionOf p a = .ibuf) (h1 : a ≤ x) (h2 : x < a + 4) :
    arrayOffset p x := by
  have := window_of_regionOf h
  unfold arrayOffset; omega

theorem writeCmd_keeps_inv {s : State} (h : s.Inv) (w : Word) : (writeCmd s w).Inv := by
  unfold writeCmd
  split
  · exact h
  · next hc => exact (h.accept (fun he => not_not.1 fun hw => hc ⟨he, hw⟩) _).unread

theorem busWrite_keeps_inv {s : State} (h : s.Inv) {a : Nat} (h4 : a % 4 = 0) (w : Word) :
    (busWrite s a w).Inv := by
  have window := fun hr => h.writeBytes (b := lanes w) fun _ => arrayOffset_of_regionOf h.params h4 hr
  unfold busWrite
  split
  · exact h
  · cases hr : regionOf s.params a with
    | cmd => exact writeCmd_keeps_inv h w
    | ilen | klen | padbs => exact h.unread
    | iv => exact window (.inl hr)
    | key => exact window (.inr (.inl hr))
    | ibuf => exact window (.inr (.inr hr))
    | id | cfg0 | cfg1 | status | errcode | olen | obuf | unmapped => exact h

/-- Every operation of the environment that is not refused keeps the invariant. -/
theorem hostOp_keeps_inv {s t : State} (h : s.Inv) {op : HostOp} (ho : hostOp s op = .next t) : t.Inv := by
  cases op with
  | read a =>
    simp only [hostOp] at ho
    split at ho
    · cases ho
    · cases ho; exact h.unread
  | write a w =>
    simp only [hostOp] at ho
    split at ho
    · cases ho
    · next h4 => cases ho; exact busWrite_keeps_inv h (not_not.1 h4) w
  | wait =>
    simp only [hostOp] at ho
    split at ho
    · cases ho; exact h.unread
    · cases ho; exact h.unread
  | rdbuf => cases ho; exact h.unread
  | reset => cases ho; exact State.afterReset_inv h.params
  | odd a n => cases ho

theorem hostTurn_keeps_inv {s t : State} (h : s.Inv) (ht : hostTurn s = .next t) : t.Inv := by
  unfold hostTurn at ht
  split at ht
  · cases ht; exact h
  · exact hostOp_keeps_inv h.unread ht

/-! ### The engine step -/

/-- The engine step of a command keeps the invariant where ERR = 1 admits CLEAR alone (10_state.md R23). -/
theorem exec_keeps_inv {s t : State} (h : s.Inv) {i : Instr} (hc : s.err = true → i = .clear)
    (hx : exec i s = .next t) : t.Inv := by
  have noErr (hi : i ≠ .clear) : s.err = false := Bool.eq_false_iff.2 fun he => hi (hc he)
  cases exec_effect hx with
  | fault _ e he => exact h.raise he
  | nop => exact h.complete (noErr nofun)
  | clear => exact h.cleared.complete rfl
  | xfer => exact h.copyOutToIn.complete (noErr nofun)
  | load rd r v hr hv => exact (h.setMp r hv).complete ((State.setMp_err ..).trans (noErr nofun))
  | move rd rs d r hd hr => exact (h.setMp d (h.registers r)).complete ((State.setMp_err ..).trans (noErr nofun))
  | product _ v hi hv =>
    have hn : i ≠ .clear := by rintro rfl; simp at hi
    exact (h.setMp .mpr (hv.trans (h.registers .mpn))).complete (noErr hn)
  | output _ b hi hb =>
    have hn : i ≠ .clear := by rintro rfl; cases hi
    exact (h.putOut (hb h.params h.registers)).complete (noErr hn)
  | check b => exact h.unread.complete (noErr nofun)

theorem engineStep_keeps_inv {s t : State} (h : s.Inv) {f : Flight} (hf : s.inFlight = some f)
    (ht : engineStep f.word s = .next t) : t.Inv := by
  unfold engineStep at ht
  split at ht
  · cases ht; exact h.raise (by decide)
  · next i hi =>
    refine exec_keeps_inv h (fun he => ?_) ht
    rw [h.busyErr f hf he] at hi
    cases hi; rfl

theorem step_keeps_inv {s t : State} (h : s.Inv) (ht : step s = .next t) : t.Inv := by
  unfold step machineStep at ht
  split at ht
  · exact hostTurn_keeps_inv h ht
  · next f hf =>
    split at ht
    · exact engineStep_keeps_inv h hf ht
    · exact hostTurn_keeps_inv (h.setWait hf _) ht

/-- Settles O25: each kind of step, the environment's turn and the engine step, keeps the invariant. -/
theorem everyStepKeepsTheInvariant : Obligations.EveryStepKeepsTheInvariant :=
  fun _ _ => step_keeps_inv

/-- Settles O26: the reset state is what a reset leaves of itself. -/
theorem resetMeetsTheInvariant : Obligations.ResetMeetsTheInvariant :=
  State.afterReset_inv (s := State.reset) (by decide)

end Sys2Proof.Machine

/-! Who writes what (10_state.md R23 to R37): the writers of the byte arrays and of the multiprecision registers over
every command, and of the flags over every step; that the memory's form is canonical; the values after reset (R45). -/

namespace Sys2Proof.Machine

/-! ### The writers of the byte arrays (10_state.md R34 to R37) -/

section OverEveryCommand

variable {s t : State} {i : Instr}

/-- XFER's copy leaves every byte outside IBUF (10_state.md R36). -/
theorem State.copyOutToIn_read_outside (s : State) {a : Nat} (h : a < ibufBase ∨ ibufBase + s.params.bufMax ≤ a) :
    s.copyOutToIn.mem.read a = s.mem.read a :=
  Memory.read_writeBytes_outside (by have := s.length_outBytes_le; omega)

/-- Only CLEAR changes what lies below IBUF, where IV and KEY are, or KLEN or PADBS (10_state.md R34, R35). -/
theorem Effect.keeps_key_iv (h : Effect s i t) (hi : i ≠ .clear) :
    (∀ a < ibufBase, t.mem.read a = s.mem.read a) ∧ t.klen = s.klen ∧ t.padbs = s.padbs := by
  cases h with
  | clear => exact absurd rfl hi
  | xfer => exact ⟨fun a ha => State.copyOutToIn_read_outside s (.inl ha), rfl, rfl⟩
  | output _ b => exact ⟨fun a ha => State.putOut_read_outside s b (.inl (ha.trans (by decide))), rfl, rfl⟩
  | fault | nop | load | move | product | check => simp

/-- Only XFER and CLEAR change what lies below OBUF, where IBUF is, or ILEN (10_state.md R36). -/
theorem Effect.keeps_ibuf (h : Effect s i t) (hi : i ≠ .clear) (hx : i ≠ .xfer) :
    (∀ a < obufBase, t.mem.read a = s.mem.read a) ∧ t.ilen = s.ilen := by
  cases h with
  | clear => exact absurd rfl hi
  | xfer => exact absurd rfl hx
  | output _ b => exact ⟨fun a ha => State.putOut_read_outside s b (.inl ha), rfl⟩
  | fault | nop | load | move | product | check => simp

/-- A command that produces no output, and one that faults, leaves OLEN and what lies from OBUF on (10_state.md R37). -/
theorem Effect.keeps_obuf (h : Effect s i t) (hw : s.params.bufMax ≤ 4096)
    (ho : (i ≠ .clear ∧ producesOutput i = false) ∨ t.done = false) :
    (∀ a, obufBase ≤ a → t.mem.read a = s.mem.read a) ∧ t.olen = s.olen := by
  cases h with
  | clear => simp at ho
  | xfer =>
    refine ⟨fun a ha => State.copyOutToIn_read_outside s (.inr ?_), rfl⟩
    unfold obufBase at ha; unfold ibufBase; omega
  | output _ b hi => simp [hi] at ho
  | fault | nop | load | move | product | check => simp

end OverEveryCommand

/-- Settles O23: the parameters keep the arrays apart, IV and KEY below IBUF, IBUF below OBUF. -/
theorem whoWritesTheByteArrays : Obligations.WhoWritesTheByteArrays := by
  intro i s t hp h
  have he := exec_effect h
  obtain ⟨-, ⟨-, -, hkey⟩, -, -, -, hbuf⟩ := hp
  refine ⟨fun hi => ?_, fun hi hx => ?_, fun ho => ?_⟩
  · obtain ⟨hmem, hklen, hpadbs⟩ := he.keeps_key_iv hi
    have hkeys (k) (hk : k < s.params.keyBytesMax) : keyBase + k < ibufBase := by unfold keyBase ibufBase; omega
    have hivs (k) (hk : k < 16) : ivBase + k < ibufBase := by unfold ivBase ibufBase; omega
    exact ⟨fun k hk => hmem _ (hkeys k hk), fun k hk => hmem _ (hivs k hk), hklen, hpadbs⟩
  · obtain ⟨hmem, hilen⟩ := he.keeps_ibuf hi hx
    exact ⟨fun k hk => hmem _ (by unfold ibufBase obufBase; omega), hilen⟩
  · have hout : (i ≠ .clear ∧ producesOutput i = false) ∨ t.done = false := by
      obtain rfl | ⟨rd, rfl⟩ | ⟨rd, rs, rfl⟩ | rfl | rfl | rfl | rfl | hd := ho
      iterate 7 exact .inl ⟨nofun, rfl⟩
      exact .inr hd
    obtain ⟨hmem, holen⟩ := he.keeps_obuf hbuf hout
    exact ⟨fun k _ => hmem _ (Nat.le_add_right ..), holen⟩

/-! ### The writers of the multiprecision registers (10_state.md R26) -/

/-- A selector names the register whose selector it is (10_state.md R24). -/
theorem eq_selectorOf_of_mpRegOf {rd : Selector} {r : MpReg} (h : mpRegOf rd = some r) : rd = selectorOf r := by
  revert rd; cases r <;> decide

/-- Writing a register changes no other. -/
theorem State.eq_of_setMp_mp_ne {s : State} {q r : MpReg} {v : Nat} (h : (s.setMp q v).mp r ≠ s.mp r) : r = q := by
  by_contra hr
  exact h (by rw [State.setMp_mp, if_neg hr])

/-- Settles O24: among the effects of a command only a load, a move or a product writes one register, and CLEAR all. -/
theorem whoWritesMpRegisters : Obligations.WhoWritesMpRegisters := by
  intro i s t r h hne
  cases exec_effect h with
  | clear => exact .inl rfl
  | load rd q v hq =>
    rw [State.complete_mp] at hne
    obtain rfl := State.eq_of_setMp_mp_ne hne
    exact .inr (.inl (by rw [eq_selectorOf_of_mpRegOf hq]))
  | move rd rs d q hd =>
    rw [State.complete_mp] at hne
    obtain rfl := State.eq_of_setMp_mp_ne hne
    exact .inr (.inr (.inl ⟨rs, by rw [eq_selectorOf_of_mpRegOf hd]⟩))
  | product _ v hi =>
    rw [State.complete_mp] at hne
    exact .inr (.inr (.inr ⟨State.eq_of_setMp_mp_ne hne, hi⟩))
  | fault | nop | xfer | output | check => simp at hne

/-! ### A command's word is the one that decodes to it (30_encoding.md R92 to R95) -/

/-- A word with `zero` clear is packed from the values of its other fields (30_encoding.md R90). -/
theorem packWord_eq {w : Word} {op : Nat} {rd rs : Selector} (hz : zeroField w = 0) (ho : (opField w).toNat = op)
    (hd : rdField w = rd) (hs : rsField w = rs) : packWord (BitVec.ofNat 8 op) rd rs = w := by
  subst ho hd hs
  conv_rhs => rw [word_eq_fields w, hz]
  rw [BitVec.ofNat_toNat, BitVec.setWidth_eq]
  rfl

section Formats

variable {w : Word} {i : Instr} {op : Nat}

/-- Format N accepts a word with both selector fields 0, so the command's word is that word. -/
theorem encode_of_formatN {j : Instr} (hz : zeroField w = 0) (ho : (opField w).toNat = op)
    (he : encode j = packWord (BitVec.ofNat 8 op) 0 0) (h : formatN w j = .ok i) : encode i = w := by
  unfold formatN at h
  split at h
  · cases h
  · next hd =>
    split at h
    · cases h
    · next hs => cases h; exact he.trans (packWord_eq hz ho (not_not.1 hd) (not_not.1 hs))

theorem encode_of_formatD {mk : Selector → Instr} (hz : zeroField w = 0) (ho : (opField w).toNat = op)
    (he : ∀ r, encode (mk r) = packWord (BitVec.ofNat 8 op) r 0) (h : formatD w mk = .ok i) : encode i = w := by
  unfold formatD at h
  split at h
  · cases h
  · next hs =>
    split at h
    · cases h; exact (he _).trans (packWord_eq hz ho rfl (not_not.1 hs))
    · cases h

theorem encode_of_formatS {mk : Selector → Instr} (hz : zeroField w = 0) (ho : (opField w).toNat = op)
    (he : ∀ r, encode (mk r) = packWord (BitVec.ofNat 8 op) 0 r) (h : formatS w mk = .ok i) : encode i = w := by
  unfold formatS at h
  split at h
  · cases h
  · next hd =>
    split at h
    · cases h; exact (he _).trans (packWord_eq hz ho (not_not.1 hd) rfl)
    · cases h

theorem encode_of_formatDS {mk : Selector → Selector → Instr} (hz : zeroField w = 0) (ho : (opField w).toNat = op)
    (he : ∀ rd rs, encode (mk rd rs) = packWord (BitVec.ofNat 8 op) rd rs) (h : formatDS w mk = .ok i) :
    encode i = w := by
  unfold formatDS at h
  split at h
  · split at h
    · cases h; exact (he _ _).trans (packWord_eq hz ho rfl rfl)
    · cases h
  · cases h

end Formats

/-- A word that decodes to a command is that command's word (30_encoding.md R92, R93, R94). -/
theorem encode_of_decode {w : Word} {i : Instr} (h : decode w = .ok i) : encode i = w := by
  unfold decode at h
  split at h
  · cases h
  · next hz =>
    rw [not_not] at hz
    unfold decodeOp at h
    split at h <;> rename_i ho
    case h_4 => exact encode_of_formatD hz ho (fun _ => rfl) h
    case h_5 => exact encode_of_formatS hz ho (fun _ => rfl) h
    case h_6 => exact encode_of_formatDS hz ho (fun _ _ => rfl) h
    case h_21 => cases h
    all_goals exact encode_of_formatN hz ho rfl h

/-! ### The writers of the flags over every step (10_state.md R23, R28, R33) -/

/-- ERR, ERRCODE and PINV are as before. -/
structure SameFlags (s t : State) : Prop where
  err : t.err = s.err
  errCode : t.errCode = s.errCode
  pinv : t.pinv = s.pinv

/-- ERR, ERRCODE and PINV have the values of 10_state.md R45. -/
structure FlagsAtReset (t : State) : Prop where
  err : t.err = false
  errCode : t.errCode = 0
  pinv : t.pinv = false

/-- What one step can do to ERR, ERRCODE and PINV: a reset, or the engine step of the word in flight, writes them. -/
inductive FlagEvent (s t : State) : Prop
  | kept (h : SameFlags s t)
  | reset (hs : ∃ rest, s.host = .reset :: rest) (ht : FlagsAtReset t)
  | clear (hs : s.inFlight = some { word := 0x00000001, wait := 0 }) (ht : FlagsAtReset t)
  | check (hs : s.inFlight = some { word := 0x00000031, wait := 0 }) (he : t.err = s.err) (hc : t.errCode = s.errCode)
  | fault (w : Word) (hs : s.inFlight = some { word := w, wait := 0 }) (he : t.err = true) (hd : t.done = false)
      (hp : t.pinv = s.pinv)

theorem writeCmd_sameFlags (s : State) (w : Word) : SameFlags s (writeCmd s w) := by
  unfold writeCmd
  split
  · exact ⟨rfl, rfl, rfl⟩
  · exact ⟨rfl, rfl, rfl⟩

/-- No bus write reaches a flag: STATUS and ERRCODE are read-only (20_memory.md R64, R65). -/
theorem busWrite_sameFlags (s : State) (a : Nat) (w : Word) : SameFlags s (busWrite s a w) := by
  unfold busWrite
  split
  · exact ⟨rfl, rfl, rfl⟩
  · cases regionOf s.params a with
    | cmd => exact writeCmd_sameFlags s w
    | _ => exact ⟨rfl, rfl, rfl⟩

/-- Of the environment's operations reset alone writes the flags. -/
theorem hostOp_flags {s t : State} {op : HostOp} (h : hostOp s op = .next t) :
    SameFlags s t ∨ (op = .reset ∧ FlagsAtReset t) := by
  cases op with
  | read a =>
    simp only [hostOp] at h
    split at h
    · cases h
    · cases h; exact .inl ⟨rfl, rfl, rfl⟩
  | write a w =>
    simp only [hostOp] at h
    split at h
    · cases h
    · cases h; exact .inl (busWrite_sameFlags ..)
  | wait =>
    simp only [hostOp] at h
    split at h
    · cases h; exact .inl ⟨rfl, rfl, rfl⟩
    · cases h; exact .inl ⟨rfl, rfl, rfl⟩
  | rdbuf => cases h; exact .inl ⟨rfl, rfl, rfl⟩
  | reset => cases h; exact .inr ⟨rfl, rfl, rfl, rfl⟩
  | odd a n => cases h

theorem hostTurn_flags {s t : State} (h : hostTurn s = .next t) :
    SameFlags s t ∨ ((∃ rest, s.host = .reset :: rest) ∧ FlagsAtReset t) := by
  unfold hostTurn at h
  split at h
  · cases h; exact .inl ⟨rfl, rfl, rfl⟩
  · next op rest hh =>
    obtain ⟨h1, h2, h3⟩ | ⟨rfl, hr⟩ := hostOp_flags h
    · exact .inl ⟨h1, h2, h3⟩
    · exact .inr ⟨⟨rest, hh⟩, hr⟩

/-- The engine step of the word in flight writes the flags as a fault, as CLEAR or as PKCS7_CHECK, or not at all. -/
theorem engineStep_flags {s t : State} {w : Word} (hs : s.inFlight = some { word := w, wait := 0 })
    (h : engineStep w s = .next t) : FlagEvent s t := by
  unfold engineStep at h
  split at h
  · cases h; exact .fault w hs rfl rfl rfl
  · next i hw =>
    have hi := encode_of_decode hw
    cases exec_effect h with
    | fault => exact .fault w hs rfl rfl rfl
    | clear => subst hi; exact .clear hs ⟨rfl, rfl, rfl⟩
    | check => subst hi; exact .check hs rfl rfl
    | nop | xfer | output | load | move | product => exact .kept (by constructor <;> simp)

/-- Every step is the environment's turn, on a state with the same flags, or an engine step. -/
theorem step_flags {s t : State} (h : step s = .next t) : FlagEvent s t := by
  have turn {u : State} (hu : hostTurn u = .next t) (hh : u.host = s.host) (hf : SameFlags s u) : FlagEvent s t := by
    obtain ⟨h1, h2, h3⟩ | ⟨hr, ht⟩ := hostTurn_flags hu
    · exact .kept ⟨h1.trans hf.err, h2.trans hf.errCode, h3.trans hf.pinv⟩
    · exact .reset (hh ▸ hr) ht
  unfold step machineStep at h
  split at h
  · exact turn h rfl ⟨rfl, rfl, rfl⟩
  · next f hf =>
    split at h
    · next hw => exact engineStep_flags (hf.trans (by rw [← hw])) h
    · exact turn h rfl ⟨rfl, rfl, rfl⟩

/-- Settles O22: what one step can do to the flags allows each change for the stated writers alone. -/
theorem whoWritesTheFlags : Obligations.WhoWritesTheFlags := by
  intro s t h
  cases step_flags h with
  | kept hk =>
    exact ⟨fun h1 h0 => by simp [hk.err, h1] at h0, fun hc => absurd hk.errCode hc, fun hp => absurd hk.pinv hp⟩
  | reset hs ht =>
    exact ⟨fun _ _ => .inr hs, fun _ => .inr ⟨ht.errCode, .inr hs⟩, fun _ => .inr ⟨ht.pinv, .inr hs⟩⟩
  | clear hs ht =>
    exact ⟨fun _ _ => .inl hs, fun _ => .inr ⟨ht.errCode, .inl hs⟩, fun _ => .inr ⟨ht.pinv, .inl hs⟩⟩
  | check hs he hc =>
    exact ⟨fun h1 h0 => by simp [he, h1] at h0, fun hne => absurd hc hne, fun _ => .inl hs⟩
  | fault w hs he hd hp =>
    exact ⟨fun _ h0 => by simp [he] at h0, fun _ => .inl ⟨he, hd, w, hs⟩, fun hne => absurd hp hne⟩

/-! ### The canonical form of a memory -/

/-- In a memory of canonical form an offset is listed with a byte exactly when it reads as that byte and the byte is
not the one that an unlisted offset reads as. -/
theorem Memory.mem_iff_read {m : Memory} (h : m.wf) {x : Nat} {v : Byte} :
    (x, v) ∈ m ↔ v ≠ Config.unlisted ∧ m.read x = v := by
  obtain ⟨hsorted, hlisted⟩ := h
  induction m with
  | nil => simp [eq_comm]
  | cons c m ih =>
    obtain ⟨a, b⟩ := c
    rw [List.map_cons, List.pairwise_cons] at hsorted
    rw [List.forall_mem_cons] at hlisted
    have ih := ih hsorted.2 hlisted.2
    have hfresh (u : Byte) : (a, u) ∉ m := fun hu => (hsorted.1 a (List.mem_map_of_mem hu)).false
    by_cases hx : a = x
    · subst hx
      simp only [List.mem_cons, Prod.mk.injEq, true_and, hfresh, or_false, Memory.read, if_true]
      exact ⟨fun hv => ⟨hv ▸ hlisted.1, hv.symm⟩, fun hv => hv.2.symm⟩
    · simpa [Memory.read, hx, Ne.symm hx] using ih

/-- Settles O27: both memories list the cells they read, each in rising order of the offsets. -/
theorem canonicalMemoriesAreEqual : Obligations.CanonicalMemoriesAreEqual := by
  intro m m' h h' hread
  have hmem (c : Host.Cell) : c ∈ m ↔ c ∈ m' := by
    rw [Memory.mem_iff_read h, Memory.mem_iff_read h', hread]
  have hlt := List.pairwise_map.1 h.1
  have hlt' := List.pairwise_map.1 h'.1
  have hperm : m.Perm m' := (List.perm_ext_iff_of_nodup (hlt.imp fun hc => ne_of_apply_ne _ hc.ne)
    (hlt'.imp fun hc => ne_of_apply_ne _ hc.ne)).2 hmem
  exact hperm.eq_of_pairwise (fun _ _ _ _ h1 h2 => (h1.asymm h2).elim) hlt hlt'

/-! ### The values after reset (10_state.md R45) -/

/-- Reset leaves every storage at its value of 10_state.md R45. -/
theorem State.afterReset_storages (s : State) : StoragesAtReset s.afterReset where
  err := rfl
  pinv := rfl
  errCode := rfl
  ilen := rfl
  olen := rfl
  klen := rfl
  padbs := rfl
  registers := State.afterReset_mp s
  iv _ := rfl
  key _ := rfl
  ibuf _ := rfl
  obuf _ := rfl

/-- With no command in flight a bus read returns what its offset shows (20_memory.md R63). -/
theorem reads_of_idleRead {s : State} (hs : s.inFlight = none) {a v : Nat} (ha : a < 65536) (h4 : a % 4 = 0)
    (hv : idleRead s a = BitVec.ofNat 32 v) : Reads s a v := by
  unfold Reads
  rw [step_idle hs, hostOp_read ha h4, busRead_idle (by exact hs), ← hv]
  rfl

/-- Settles O16: the reset state is what a reset leaves of itself, and its constants are read by an idle engine. -/
theorem resetStateValues : Obligations.ResetStateValues := by
  have reads {a v : Nat} := reads_of_idleRead (s := State.reset) rfl (a := a) (v := v)
  refine ⟨State.afterReset_storages State.reset, rfl, rfl, ?_, ?_, ?_, ?_⟩
  · exact reads (by decide) rfl (by decide)
  · exact reads (by decide) rfl (by decide)
  · exact reads (by decide) rfl (by decide)
  · exact reads (by decide) rfl (by decide)

end Sys2Proof.Machine

/-! The bus window of an idle engine, offset by offset (20_memory.md R62 to R70): what a read returns, what a write does,
and which accesses the host's turn refuses. -/

namespace Sys2Proof.Machine

/-! ### Accesses that are no part of the interface (20_memory.md R70) -/

theorem hostOp_read_misaligned (s : State) {a : Addr} (h : a.toNat % 4 ≠ 0) :
    hostOp s (.read a) = .refused (.misalignedAccess a) := if_pos h

theorem hostOp_write_misaligned (s : State) {a : Addr} (h : a.toNat % 4 ≠ 0) (w : Word) :
    hostOp s (.write a w) = .refused (.misalignedAccess a) := if_pos h

/-- Settles O14: an idle engine's step is the host's operation, which looks at the offset and the width first. -/
theorem otherAccessesAreRefused : Obligations.OtherAccessesAreRefused := by
  intro s a w n hs
  rw [step_idle hs, step_idle hs, step_idle hs]
  exact ⟨fun h => ⟨hostOp_read_misaligned _ h, hostOp_write_misaligned _ h w⟩, rfl⟩

/-! ### Which region an offset above the registers is in (20_memory.md R62) -/

section AddressMap

variable {p : Params} {a : Nat}

theorem regionOf_iv (h : 0x0060 ≤ a ∧ a < 0x0070) : regionOf p a = .iv := by
  rw [regionOf_above p (by omega), if_pos h]

theorem regionOf_key (h : 0x0080 ≤ a ∧ a < 0x0080 + p.keyBytesMax) : regionOf p a = .key := by
  rw [regionOf_above p (by omega), if_neg (by omega), if_pos h]

theorem regionOf_ibuf (hp : p.Valid) (h : 0x1000 ≤ a ∧ a < 0x1000 + p.bufMax) : regionOf p a = .ibuf := by
  obtain ⟨-, ⟨-, -, hkey⟩, -⟩ := hp
  rw [regionOf_above p (by omega), if_neg (by omega), if_neg (by omega), if_pos h]

theorem regionOf_obuf (hp : p.Valid) (h : 0x2000 ≤ a ∧ a < 0x2000 + p.bufMax) : regionOf p a = .obuf := by
  obtain ⟨-, ⟨-, -, hkey⟩, -, -, -, hbuf⟩ := hp
  rw [regionOf_above p (by omega), if_neg (by omega), if_neg (by omega), if_neg (by omega), if_pos h]

/-- The offsets listed as unmapped are those of no register and of no window. -/
theorem regionOf_unmapped (hp : p.Valid) (h : Unmapped p a) : regionOf p a = .unmapped := by
  obtain ⟨-, ⟨-, -, hkey⟩, -, -, -, hbuf⟩ := hp
  obtain rfl | h := h
  · rfl
  · rw [regionOf_above p (by omega), if_neg (by omega), if_neg (by omega), if_neg (by omega), if_neg (by omega)]

theorem lt_of_unmapped (hp : p.Valid) (h : Unmapped p a) : a < 65536 := by
  obtain ⟨-, ⟨-, -, hkey⟩, -, -, -, hbuf⟩ := hp
  unfold Unmapped at h
  omega

end AddressMap

/-! ### The words that reads return -/

theorem State.statusWord_eq (s : State) :
    s.statusWord = BitVec.ofNat 32 (statusNumber s.busy s.done s.err s.pinv) := by
  unfold State.statusWord
  generalize s.busy = busy, s.done = done, s.err = err, s.pinv = pinv
  revert busy done err pinv
  decide

/-- A word of a window is its four bytes, the byte of lowest index in the lowest lane (20_memory.md R67). -/
theorem Memory.readWord_eq (m : Memory) (base j : Nat) :
    m.readWord (base + 4 * j) = BitVec.ofNat 32 (laneNumber (fun k => m.read (base + k)) j) := by
  simp only [laneNumber, ← toNat_lanes]
  exact (BitVec.ofNat_toNat 32 (m.readWord _)).symm

theorem Params.mpBits_lt_of_valid {p : Params} (hp : p.Valid) : p.mpBits < 65536 := by
  obtain ⟨-, -, -, hmp, -, hbuf⟩ := hp
  omega

section Idle

variable {s : State} (hs : s.inFlight = none)
include hs

/-- A read of a word of IV, KEY, IBUF or OBUF returns the four bytes there (20_memory.md R63, R67). -/
theorem reads_window {base j : Nat} (ha : base + 4 * j < 65536) (hb : base % 4 = 0)
    {r : Region} (hr : regionOf s.params (base + 4 * j) = r) (hw : r ∈ [.iv, .key, .ibuf, .obuf]) :
    Reads s (base + 4 * j) (laneNumber (fun k => s.mem.read (base + k)) j) := by
  refine reads_of_idleRead hs ha (by omega) ?_
  rw [← Memory.readWord_eq]
  simp only [List.mem_cons, List.not_mem_nil, or_false] at hw
  obtain rfl | rfl | rfl | rfl := hw <;> simp only [idleRead, hr]

theorem reads_unmapped {a : Nat} (hp : s.params.Valid) (h4 : a % 4 = 0) (h : Unmapped s.params a) : Reads s a 0 :=
  reads_of_idleRead hs (lt_of_unmapped hp h) h4 (by rw [idleRead, regionOf_unmapped hp h]; rfl)

theorem reads_status : Reads s 0x0014 (statusNumber false s.done s.err s.pinv) := by
  refine reads_of_idleRead hs (by decide) rfl (s.statusWord_eq.trans ?_)
  rw [State.busy, hs]; rfl

/-- With no command in flight a write at an aligned offset is the bus's write (20_memory.md R64). -/
theorem writes_of_busWrite {t : State} {a : Nat} {w : Word} (ha : a < 65536) (h4 : a % 4 = 0)
    (h : busWrite s a w = t) : Writes s a w t := by
  unfold Writes
  rw [step_idle hs, hostOp_write ha h4, ← h]

/-- A write to a word of IV, KEY or IBUF takes the four lanes, and every other byte stays (20_memory.md R65, R67). -/
theorem writes_window {a : Nat} (ha : a < 65536) (h4 : a % 4 = 0)
    (hr : regionOf s.params a = .iv ∨ regionOf s.params a = .key ∨ regionOf s.params a = .ibuf) (w : Word) :
    ∃ m, Writes s a w { s with mem := m } ∧
      (∀ k < 4, m.read (a + k) = BitVec.ofNat 8 (w.toNat / 256 ^ k)) ∧
      ∀ b, (b < a ∨ a + 4 ≤ b) → m.read b = s.mem.read b := by
  refine ⟨s.mem.writeBytes a (lanes w), ?_, fun k hk => ?_, fun b hb => ?_⟩
  · exact writes_of_busWrite hs ha h4 (busWrite_window hs hr w)
  · rw [Memory.read_writeBytes_inside (by simpa using hk), lanes_getD w hk]
  · exact Memory.read_writeBytes_outside (by simpa using hb)

/-- A write to a read-only or an unmapped offset is ignored (20_memory.md R64). -/
theorem writes_ignored {a : Nat} (ha : a < 65536) (h4 : a % 4 = 0)
    (hr : regionOf s.params a ∈ [.id, .cfg0, .cfg1, .status, .errcode, .olen, .obuf, .unmapped]) (w : Word) :
    Writes s a w s := by
  refine writes_of_busWrite hs ha h4 ?_
  unfold busWrite
  split
  · rfl
  · generalize regionOf s.params a = r at hr
    cases r with
    | cmd | ilen | klen | padbs | iv | key | ibuf => simp at hr
    | id | cfg0 | cfg1 | status | errcode | olen | obuf | unmapped => rfl

end Idle

/-- Settles O9: each register's read by its offset, each window's by the region of its words. -/
theorem idleBusReads : Obligations.IdleBusReads := by
  intro s hp hs
  have register {a v : Nat} := reads_of_idleRead hs (a := a) (v := v)
  have ⟨_, ⟨_, _, hkey⟩, _, _, _, hbuf⟩ := hp
  refine ⟨?_, ?_, ?_, ?_, reads_status hs, ?_, ?_, ?_, ?_, ?_, ?_, ?_, ?_, ?_, ?_⟩
  · exact register (by decide) rfl rfl
  · exact register (by decide) rfl (cfg0Word_eq _ (Params.mpBits_lt_of_valid hp))
  · exact register (by decide) rfl (cfg1Word_eq _ (by omega))
  · exact register (by decide) rfl rfl
  · exact register (by decide) rfl (BitVec.ofNat_toNat 32 s.errCode).symm
  · exact register (by decide) rfl (BitVec.ofNat_toNat 32 s.ilen).symm
  · exact register (by decide) rfl (BitVec.ofNat_toNat 32 s.olen).symm
  · exact register (by decide) rfl (BitVec.ofNat_toNat 32 s.klen).symm
  · exact register (by decide) rfl (BitVec.ofNat_toNat 32 s.padbs).symm
  · exact fun j hj => reads_window hs (by omega) rfl (regionOf_iv (by omega)) (by decide)
  · exact fun j hj => reads_window hs (by omega) rfl (regionOf_key (by omega)) (by decide)
  · exact fun j hj => reads_window hs (by omega) rfl (regionOf_ibuf hp (by omega)) (by decide)
  · exact fun j hj => reads_window hs (by omega) rfl (regionOf_obuf hp (by omega)) (by decide)
  · exact fun _ => reads_unmapped hs hp

/-- Settles O11: each offset's write by its region, a window's at the four lanes of its word. -/
theorem idleBusWrites : Obligations.IdleBusWrites := by
  intro s w hp hs
  have ⟨_, ⟨_, _, hkey⟩, _, _, _, hbuf⟩ := hp
  have idle : ¬ s.busy = true := by simp [State.busy, hs]
  refine ⟨?_, ?_, ?_, fun a h4 h => ?_, fun a ha => ?_, fun a h4 h => ?_⟩
  · exact writes_of_busWrite hs (by decide) rfl (if_neg idle)
  · exact writes_of_busWrite hs (by decide) rfl (if_neg idle)
  · exact writes_of_busWrite hs (by decide) rfl (if_neg idle)
  · refine writes_window hs (by omega) h4 ?_ w
    obtain h | h | h := h
    · exact .inl (regionOf_iv h)
    · exact .inr (.inl (regionOf_key h))
    · exact .inr (.inr (regionOf_ibuf hp h))
  · simp only [List.mem_cons, List.not_mem_nil, or_false] at ha
    obtain rfl | rfl | rfl | rfl | rfl | rfl := ha <;> exact writes_ignored hs (by decide) rfl (by simp [regionOf]) w
  · obtain h | h := h
    · exact writes_ignored hs (by omega) h4 (by simp [regionOf_obuf hp h]) w
    · exact writes_ignored hs (lt_of_unmapped hp h) h4 (by simp [regionOf_unmapped hp h]) w

end Sys2Proof.Machine

/-! The encoding of 30_encoding.md: the decoder and the encoder are inverse to each other on the words of the opcode map
(R90 to R95), and what the pseudo-operations of R99 and R100 do to an idle engine. -/

namespace Sys2Proof.Machine

/-! ### Decoding the word of a command -/

section PackedWord

variable (op : BitVec 8) (rd rs : Selector)

@[simp] theorem zeroField_packWord : zeroField (packWord op rd rs) = 0 := (fields_packed 0 rs rd op).1

@[simp] theorem rsField_packWord : rsField (packWord op rd rs) = rs := (fields_packed 0 rs rd op).2.1

@[simp] theorem rdField_packWord : rdField (packWord op rd rs) = rd := (fields_packed 0 rs rd op).2.2.1

@[simp] theorem opField_packWord : opField (packWord op rd rs) = op := (fields_packed 0 rs rd op).2.2.2

end PackedWord

theorem decode_encode_mpLoad (rd : Selector) :
    decode (encode (.mpLoad rd)) = if rd.legal then .ok (.mpLoad rd) else .error .rdNotARegister := by
  simp [encode, decode, decodeOp, formatD]

theorem decode_encode_mpStore (rs : Selector) :
    decode (encode (.mpStore rs)) = if rs.legal then .ok (.mpStore rs) else .error .rsNotARegister := by
  simp [encode, decode, decodeOp, formatS]

theorem decode_encode_mpMov (rd rs : Selector) :
    decode (encode (.mpMov rd rs)) =
      if rd.legal then if rs.legal then .ok (.mpMov rd rs) else .error .rsNotARegister
      else .error .rdNotARegister := by
  simp [encode, decode, decodeOp, formatDS]

/-- The word of a command decodes to it when its selectors are legal, and only then. -/
theorem decode_encode_iff (i : Instr) : decode (encode i) = .ok i ↔ i.wellFormed = true := by
  cases i with
  | mpLoad rd => simp [decode_encode_mpLoad, Instr.wellFormed]
  | mpStore rs => simp [decode_encode_mpStore, Instr.wellFormed]
  | mpMov rd rs =>
    simp only [decode_encode_mpMov, Instr.wellFormed, Bool.and_eq_true]
    split <;> simp [*]
  | _ => exact iff_of_true rfl rfl

/-- Settles O1: a command's word decodes to it, each legal selector to itself. -/
theorem decodeOfEncodeIsTheInstruction : Obligations.DecodeOfEncodeIsTheInstruction :=
  fun i => (decode_encode_iff i).2

/-- The words that decode to a command are its own word, and that only when its selectors are legal. -/
theorem decode_eq_ok_iff {w : Word} {i : Instr} : decode w = .ok i ↔ encode i = w ∧ i.wellFormed = true := by
  constructor
  · intro h
    obtain rfl := encode_of_decode h
    exact ⟨rfl, (decode_encode_iff i).1 h⟩
  · rintro ⟨rfl, h⟩
    exact (decode_encode_iff i).2 h

/-- Settles O2: the decoder drops no bit of a word and lets no illegal selector pass. -/
theorem everyLegalWordIsAnEncoding : Obligations.EveryLegalWordIsAnEncoding :=
  fun _ _ => decode_eq_ok_iff.1

/-- Settles O5: the decoder evaluates on each of the eighteen words. -/
theorem specWordsDecode : Obligations.SpecWordsDecode := by
  unfold Obligations.SpecWordsDecode
  decide

/-! ### The rows of the opcode map -/

/-- What a row says of a selector field: 0..4 where the format uses it, 0 where it must be 0 (30_encoding.md R92). -/
def SelectorFits (uses : Bool) (r : Selector) : Prop := (uses = true → r.toNat ≤ 4) ∧ (uses = false → r = 0)

theorem selectorFits_cond {uses : Bool} {r : Selector} (h : uses = true → r.toNat ≤ 4) :
    SelectorFits uses (bif uses then r else 0) := by
  cases uses with
  | true => exact ⟨h, nofun⟩
  | false => exact ⟨nofun, fun _ => rfl⟩

theorem SelectorFits.cond_eq {uses : Bool} {r : Selector} (h : SelectorFits uses r) : (bif uses then r else 0) = r := by
  cases uses with
  | true => rfl
  | false => exact (h.2 rfl).symm

/-- The fields of a word are those of a row: its `op`, `zero` clear, fitting selectors (30_encoding.md R92 to R94). -/
structure OpcodeRow.Fits (row : OpcodeRow) (w : Word) : Prop where
  op : opField w = opField row.matchWord
  zero : zeroField w = 0
  rd : SelectorFits row.usesRd (rdField w)
  rs : SelectorFits row.usesRs (rsField w)

/-- How `match`, `mask` and the command of a row are made of its `op` and of the selector fields its format uses. -/
structure OpcodeRow.MadeOfFields (row : OpcodeRow) : Prop where
  matchWord : row.matchWord = packWord (opField row.matchWord) 0 0
  mask : row.mask = 0xFFFF#16 ++ (bif row.usesRs then 0#4 else 0xF#4) ++ (bif row.usesRd then 0#4 else 0xF#4) ++ 0xFF#8
  encode (rd rs : Selector) : encode (row.command rd rs) =
    packWord (opField row.matchWord) (bif row.usesRd then rd else 0) (bif row.usesRs then rs else 0)
  wellFormed (rd rs : Selector) : (row.command rd rs).wellFormed = true ↔
    (row.usesRd = true → rd.toNat ≤ 4) ∧ (row.usesRs = true → rs.toNat ≤ 4)

theorem madeOfFields_of_mem {row : OpcodeRow} (h : row ∈ opcodeRows) : row.MadeOfFields := by
  simp only [opcodeRows, List.mem_append, List.mem_cons, List.not_mem_nil, or_false, or_assoc] at h
  rcases h with rfl | rfl | rfl | rfl | rfl | rfl | rfl | rfl | rfl | rfl | rfl | rfl | rfl | rfl | rfl | rfl | rfl |
    rfl | rfl | rfl
  all_goals exact ⟨rfl, rfl, fun _ _ => rfl, fun _ _ => by simp [Instr.wellFormed, Selector.legal]⟩

/-- Every command stands in a row. -/
theorem exists_row_of_command (i : Instr) : ∃ row ∈ opcodeRows, ∃ rd rs, i = row.command rd rs := by
  cases i <;> simp [opcodeRows]

/-- The rows list the opcode values (30_encoding.md R94). -/
theorem opcodeValues_eq : opcodeValues = opcodeRows.map fun row => (opField row.matchWord).toNat := by decide

/-- The rows of MP_LOAD and MP_MOV use `rd`, those of MP_STORE and MP_MOV use `rs` (30_encoding.md R90). -/
theorem uses_of_mem : ∀ row ∈ opcodeRows,
    ((opField row.matchWord).toNat = 0x10 ∨ (opField row.matchWord).toNat = 0x12 ↔ row.usesRd = true) ∧
    ((opField row.matchWord).toNat = 0x11 ∨ (opField row.matchWord).toNat = 0x12 ↔ row.usesRs = true) := by decide

/-- A word is packed from given fields exactly when they are its fields and `zero` is clear (30_encoding.md R90). -/
theorem packWord_eq_iff {w : Word} {op : BitVec 8} {rd rs : Selector} :
    packWord op rd rs = w ↔ zeroField w = 0 ∧ rs = rsField w ∧ rd = rdField w ∧ op = opField w := by
  conv_lhs => rw [word_eq_fields w, packWord, fields_inj, eq_comm (a := (0 : BitVec 16))]

section Rows

variable {row : OpcodeRow} (hrow : row ∈ opcodeRows) {w : Word}
include hrow

/-- A word that decodes to the command of a row has the row's fields. -/
theorem fits_of_decode {rd rs : Selector} (h : decode w = .ok (row.command rd rs)) : row.Fits w := by
  have hf := madeOfFields_of_mem hrow
  rw [decode_eq_ok_iff, hf.encode, hf.wellFormed, packWord_eq_iff] at h
  obtain ⟨⟨hz, hs, hd, ho⟩, hrd, hrs⟩ := h
  exact ⟨ho.symm, hz, hd ▸ selectorFits_cond hrd, hs ▸ selectorFits_cond hrs⟩

/-- A word with a row's fields decodes to the row's command with the word's own selectors. -/
theorem decode_of_fits (h : row.Fits w) : decode w = .ok (row.command (rdField w) (rsField w)) := by
  have hf := madeOfFields_of_mem hrow
  rw [decode_eq_ok_iff, hf.encode, hf.wellFormed, packWord_eq_iff]
  exact ⟨⟨h.zero, h.rs.cond_eq, h.rd.cond_eq, h.op.symm⟩, h.rd.1, h.rs.1⟩

/-- `w & mask = match` says that `op` is the row's, `zero` is clear and the selector fields the format does not use are 0. -/
theorem masked_eq_match_iff : w &&& row.mask = row.matchWord ↔
    opField w = opField row.matchWord ∧ zeroField w = 0 ∧
      (row.usesRd = false → rdField w = 0) ∧ (row.usesRs = false → rsField w = 0) := by
  have hf := madeOfFields_of_mem hrow
  have hmask (uses : Bool) (r : Selector) : r &&& (bif uses then 0#4 else 0xF#4) = 0 ↔ (uses = false → r = 0) := by
    revert uses r; decide
  have hop : opField w &&& 0xFF#8 = opField w := BitVec.and_allOnes
  have hzero : zeroField w &&& 0xFFFF#16 = zeroField w := BitVec.and_allOnes
  conv_lhs => rw [hf.matchWord, hf.mask, word_eq_fields w, and_fields, packWord, fields_inj]
  rw [hmask, hmask, hop, hzero]
  exact ⟨fun ⟨hz, hs, hd, ho⟩ => ⟨ho, hz, hd, hs⟩, fun ⟨ho, hz, hd, hs⟩ => ⟨hz, hs, hd, ho⟩⟩

/-- A word with a row's `op` is legal when its other fields are the row's too. -/
theorem not_illegalWord_iff_fits (ho : opField w = opField row.matchWord) : ¬ IllegalWord w ↔ row.Fits w := by
  obtain ⟨hd, hs⟩ := uses_of_mem row hrow
  have hv : (opField row.matchWord).toNat ∈ opcodeValues := by
    rw [opcodeValues_eq]; exact List.mem_map_of_mem hrow
  have hfits (uses : Bool) (r : Selector) :
      ¬ (if uses = true then 5 ≤ r.toNat else r.toNat ≠ 0) ↔ SelectorFits uses r := by
    cases uses <;> simp [SelectorFits, Nat.lt_succ_iff, ← BitVec.toNat_inj]
  unfold IllegalWord
  rw [← opField_toNat, ← rdField_toNat, ← rsField_toNat, ← zeroField_toNat, ho]
  simp only [hd, hs, not_or, hfits]
  exact ⟨fun ⟨_, hz, hrd, hrs⟩ => ⟨ho, by simpa [← BitVec.toNat_inj] using hz, hrd, hrs⟩,
    fun ⟨_, hz, hrd, hrs⟩ => ⟨not_not.2 hv, by simp [hz], hrd, hrs⟩⟩

end Rows

/-- Settles O3: both sides say of each field what the row says of it. -/
theorem wordsMatchTheOpcodeMap : Obligations.WordsMatchTheOpcodeMap := by
  intro w row hrow
  have hrd : BitVec.ofNat 4 (w.toNat / 256) = rdField w := by
    rw [← BitVec.toNat_inj, rdField_toNat, BitVec.toNat_ofNat]
  have hrs : BitVec.ofNat 4 (w.toNat / 4096) = rsField w := by
    rw [← BitVec.toNat_inj, rsField_toNat, BitVec.toNat_ofNat]
  rw [hrd, hrs, masked_eq_match_iff hrow, ← rdField_toNat, ← rsField_toNat]
  constructor
  · intro h
    obtain ⟨ho, hz, hd, hs⟩ := fits_of_decode hrow h
    exact ⟨⟨ho, hz, hd.2, hs.2⟩, hd.1, hs.1⟩
  · rintro ⟨⟨ho, hz, hd0, hs0⟩, hd, hs⟩
    exact decode_of_fits hrow ⟨ho, hz, ⟨hd, hd0⟩, hs, hs0⟩

/-! ### Illegal words -/

/-- The words that decode to a command are those that are not illegal (30_encoding.md R95). -/
theorem exists_decode_ok_iff {w : Word} : (∃ i, decode w = .ok i) ↔ ¬ IllegalWord w := by
  constructor
  · rintro ⟨i, h⟩
    obtain ⟨row, hrow, rd, rs, rfl⟩ := exists_row_of_command i
    have hfits := fits_of_decode hrow h
    exact (not_illegalWord_iff_fits hrow hfits.op).2 hfits
  · intro h
    have hv : (opField w).toNat ∈ opcodeValues := by
      rw [opField_toNat]; exact not_not.1 fun hv => h (.inl hv)
    rw [opcodeValues_eq, List.mem_map] at hv
    obtain ⟨row, hrow, ho⟩ := hv
    have ho := (BitVec.eq_of_toNat_eq ho).symm
    exact ⟨_, decode_of_fits hrow ((not_illegalWord_iff_fits hrow ho).1 h)⟩

/-- An accepted illegal word faults IllegalCommand (0x10) and does nothing else (30_encoding.md R95). -/
theorem step_illegal {s : State} {w : Word} {r : Illegal} (hs : s.inFlight = some { word := w, wait := 0 })
    (hw : decode w = .error r) : step s = .next (faulted s 0x10) := by
  rw [step_due hs, engineStep, hw]
  rfl

/-- Settles O4: a word that decodes to no command is refused, and its engine step is the fault. -/
theorem illegalWordsFaultAndExecuteNothing : Obligations.IllegalWordsFaultAndExecuteNothing := by
  intro w
  have herr : (∃ r, decode w = .error r) ↔ IllegalWord w := by
    rw [← not_iff_not, ← exists_decode_ok_iff]
    cases decode w <;> simp
  refine ⟨herr, fun h => ?_, fun s hs h => ?_⟩
  · obtain ⟨i, hi⟩ := exists_decode_ok_iff.2 h
    exact ⟨i, hi, fun j hj => Except.ok.inj (hj.symm.trans hi)⟩
  · obtain ⟨r, hr⟩ := herr.2 h
    exact step_illegal hs hr

/-! ### WAIT (30_encoding.md R99) -/

/-- STATUS reads as its word whether or not a command runs (20_memory.md R63). -/
theorem busRead_status (s : State) : busRead s statusAddr = s.statusWord := by
  unfold busRead
  split <;> rfl

theorem hostOp_wait_idle {s : State} (h : s.inFlight = none) :
    hostOp s .wait = .next { s with observed := s.statusWord :: s.observed } := by
  rw [hostOp, busRead_status, if_neg (by simp [State.busy, h])]
  rfl

theorem hostOp_wait_busy {s : State} {f : Flight} (h : s.inFlight = some f) :
    hostOp s .wait = .next { s with host := .wait :: s.host, observed := s.statusWord :: s.observed } := by
  rw [hostOp, busRead_status, if_pos (by simp [State.busy, h])]
  rfl

/-- Settles O12: both kinds of step take the host's WAIT, whose STATUS word shows whether a command is in flight. -/
theorem waitPollsStatus : Obligations.WaitPollsStatus := by
  intro s
  refine ⟨fun hs => ?_, fun w n hs => ?_⟩
  · rw [step_idle hs, hostOp_wait_idle hs, State.statusWord_eq, State.busy, hs]
    rfl
  · rw [step_waiting hs, hostOp_wait_busy rfl, State.statusWord_eq]
    rfl

/-! ### Loading a buffer (30_encoding.md R100) -/

/-- An LDBUF or LDKEY of an idle engine: the writes of the buffer's words, then the write of its length, which gives
`t m` from a state whose memory is `m`. -/
theorem run_writeBuffer_then_write {s : State} (h0 : s.inFlight = none) {base : Nat} (b : Buffer) (hb : base % 4 = 0)
    (hw : base + 4 * ((b.length + 3) / 4) ≤ 65536)
    (hr : ∀ j < (b.length + 3) / 4, regionOf s.params (base + 4 * j) = .iv ∨ regionOf s.params (base + 4 * j) = .key ∨
      regionOf s.params (base + 4 * j) = .ibuf)
    {a : Nat} {w : Word} {t : Memory → State} (ht : ∀ m, Writes { s with mem := m } a w (t m)) :
    ∃ m : Memory,
      core.run (writeBuffer base b ++ [HostOp.write (BitVec.ofNat 16 a) w]).length
        { s with host := writeBuffer base b ++ [.write (BitVec.ofNat 16 a) w] ++ s.host } = .next (t m) ∧
      (∀ k < 4 * ((b.length + 3) / 4), m.read (base + k) = b.getD k 0) ∧
      ∀ a, (a < base ∨ base + 4 * ((b.length + 3) / 4) ≤ a) → m.read a = s.mem.read a := by
  obtain ⟨m, hrun, hin, hout⟩ := run_writeBuffer h0 b hb hw hr (.write (BitVec.ofNat 16 a) w :: s.host)
  refine ⟨m, ?_, hin, hout⟩
  rw [List.length_append, List.append_assoc, List.singleton_append, run_add hrun]
  exact run_succ (ht m) 0

/-- Settles O13: LDBUF's words lie in IBUF, and the write behind them sets ILEN. -/
theorem ldBufLoadsTheInput : Obligations.LdBufLoadsTheInput := by
  intro s b hp hs hlen
  have ⟨_, _, hmod, _, _, hbuf⟩ := hp
  obtain ⟨m, hrun, hin, hout⟩ := run_writeBuffer_then_write hs (base := ibufBase) b rfl
    (by unfold ibufBase; omega) (fun j hj => .inr (.inr (regionOf_ibuf hp (by unfold ibufBase; omega))))
    (t := fun m => { s with mem := m, ilen := BitVec.ofNat 32 b.length })
    (fun m => (idleBusWrites { s with mem := m } _ hp hs).1)
  refine ⟨_, hrun, ?_, fun k hk => hin k (by omega), fun a ha => hout a (by unfold ibufBase; omega), rfl⟩
  exact Nat.mod_eq_of_lt (by omega)

/-- LDKEY of a key it takes leaves its bytes in KEY and its length in KLEN. -/
theorem ldKey_loads {s : State} (hp : s.params.Valid) (hs : s.inFlight = none) {k : Buffer}
    (hk : KeyLoadable s.params k) :
    ∃ ops t, ldKey s.params k = some ops ∧ core.run ops.length { s with host := ops ++ s.host } = .next t ∧
      t.klen.toNat = k.length ∧ (∀ j < k.length, t.key j = k.getD j 0) ∧
      (∀ a, (a < 0x0080 ∨ 0x0080 + k.length ≤ a) → t.mem.read a = s.mem.read a) ∧
      { t with mem := s.mem, klen := s.klen } = s := by
  have ⟨hmod, hlen⟩ := hk
  have ⟨_, ⟨_, _, hmax⟩, _⟩ := hp
  obtain ⟨m, hrun, hin, hout⟩ := run_writeBuffer_then_write hs (base := keyBase) k rfl
    (by unfold keyBase; omega) (fun j hj => .inr (.inl (regionOf_key (by unfold keyBase; omega))))
    (t := fun m => { s with mem := m, klen := BitVec.ofNat 32 k.length })
    (fun m => (idleBusWrites { s with mem := m } _ hp hs).2.1)
  refine ⟨_, _, if_pos hk, hrun, ?_, fun j hj => hin j (by omega), fun a ha => hout a (by unfold keyBase; omega), rfl⟩
  exact Nat.mod_eq_of_lt (by omega)

/-- LDIV of sixteen bytes leaves them in IV. -/
theorem ldIv_loads {s : State} (hs : s.inFlight = none) {v : Buffer} (hv : v.length = Config.block) :
    ∃ ops t, ldIv v = some ops ∧ core.run ops.length { s with host := ops ++ s.host } = .next t ∧
      (∀ j < 16, t.iv j = v.getD j 0) ∧
      (∀ a, (a < 0x0060 ∨ 0x0070 ≤ a) → t.mem.read a = s.mem.read a) ∧ { t with mem := s.mem } = s := by
  have hlen : v.length = 16 := hv
  obtain ⟨m, hrun, hin, hout⟩ := run_writeBuffer hs (base := ivBase) v rfl (by unfold ivBase; omega)
    (fun j hj => .inl (regionOf_iv (by unfold ivBase; omega))) s.host
  exact ⟨_, _, if_pos hv, hrun, fun j hj => hin j (by omega), fun a ha => hout a (by unfold ivBase; omega), rfl⟩

/-! ### RDBUF (30_encoding.md R100) -/

/-- The words of OBUF that hold the bytes `OBUF[0 .. OLEN-1]`, first word first. -/
def State.obufWords (s : State) : List Word :=
  (List.range ((s.olen.toNat + 3) / 4)).map fun j => s.mem.readWord (obufBase + 4 * j)

/-- RDBUF of an idle engine reads OLEN and then the words of OBUF, first word first. -/
theorem run_rdBuf {s : State} (hp : s.params.Valid) (hs : s.inFlight = none) (ho : s.olen.toNat ≤ s.params.bufMax) :
    core.run (1 + (s.olen.toNat + 3) / 4) { s with host := rdBuf ++ s.host } =
      .next { s with observed := (s.olen :: s.obufWords).reverse ++ s.observed } := by
  have ⟨_, _, hmod, _, _, hbuf⟩ := hp
  have hregion (j) (hj : j < (s.olen.toNat + 3) / 4) : regionOf s.params (obufBase + 4 * j) = .obuf :=
    regionOf_obuf hp (by unfold obufBase; omega)
  rw [Nat.add_comm, rdBuf, List.singleton_append, run_succ (step_rdbuf hs s.host)]
  refine (run_obufReads (s := { s with observed := s.olen :: s.observed }) hs _ (by unfold obufBase; omega) hregion
    s.host).trans ?_
  rw [List.reverse_cons, List.append_assoc]
  rfl

/-- The result of RDBUF is the first OLEN bytes of OBUF. -/
theorem rdBufResult_obufWords (s : State) :
    rdBufResult (s.olen :: s.obufWords) = bufferOf s.obuf s.olen.toNat := by
  rw [rdBufResult, State.obufWords, flatMap_lanes_readWord, ← List.map_take, List.take_range, Nat.min_eq_left (by omega)]
  rfl

/-- Settles O60: the windows of KEY, IV and OBUF hold the words that the three operations write or read. -/
theorem keyIvAndOutputPseudoOperations : Obligations.KeyIvAndOutputPseudoOperations := by
  intro s hp hs
  refine ⟨fun k => ?_, fun v => ?_, fun ho => ⟨_, run_rdBuf hp hs ho, rdBufResult_obufWords s⟩⟩
  · split
    · next hk => exact ldKey_loads hp hs hk
    · next hk => exact if_neg hk
  · split
    · next hv => exact ldIv_loads hs hv
    · next hv => exact if_neg hv

end Sys2Proof.Machine

/-! Acceptance and the engine step of 40_control_and_transfer.md: a command write, the latency of an accepted command
(R110), and the control and transfer commands (R112 to R118). -/

namespace Sys2Proof.Machine

/-! ### A command that waits (40_control_and_transfer.md R110, 70_reset_and_hazards.md R326, R333) -/

/-- Settles O6: a due engine step of a word that decodes is the command's. -/
theorem stepRunsTheDecodedCommand : Obligations.StepRunsTheDecodedCommand := by
  intro s w i hs hw
  rw [step_due hs, engineStep, hw]

section Waiting

variable {s : State} {f : Flight}

/-- RDBUF of a busy engine reads OLEN as 0, so that no read of OBUF follows (20_memory.md R63). -/
theorem hostOp_rdbuf_busy (h : s.inFlight = some f) :
    hostOp s .rdbuf = .next { s with observed := 0 :: s.observed } := by
  have hread : busRead s olenAddr = 0 := busRead_busy h _
  rw [hostOp, hread]
  rfl

/-- The operations a program may use change nothing of a busy engine: a read and WAIT leave a word with the host, WAIT
stays in front, and a write is dropped (70_reset_and_hazards.md R326). -/
theorem hostOp_plain_busy (h : s.inFlight = some f) {op : HostOp} (hop : op.plain = true) :
    ∃ front observed, hostOp s op = .next { s with host := front ++ s.host, observed := observed } ∧
      ∀ o ∈ front, o.plain = true := by
  cases op with
  | read a => exact ⟨[], _, if_neg (not_not.2 (of_decide_eq_true hop)), by simp⟩
  | write a w =>
    refine ⟨[], s.observed, ?_, by simp⟩
    rw [hostOp, if_neg (not_not.2 (of_decide_eq_true hop)), busWrite_busy h]
    rfl
  | wait => exact ⟨[.wait], _, hostOp_wait_busy h, by simp [HostOp.plain]⟩
  | rdbuf => exact ⟨[], _, hostOp_rdbuf_busy h, by simp⟩
  | reset => cases hop
  | odd a n => cases hop

theorem hostTurn_plain_busy (h : s.inFlight = some f) (hp : ∀ op ∈ s.host, op.plain = true) :
    ∃ host observed, hostTurn s = .next { s with host := host, observed := observed } ∧
      ∀ op ∈ host, op.plain = true := by
  unfold hostTurn
  split
  · exact ⟨_, _, rfl, hp⟩
  · next op rest hh =>
    rw [hh, List.forall_mem_cons] at hp
    obtain ⟨hop, hrest⟩ := hp
    obtain ⟨front, observed, hstep, hfront⟩ := hostOp_plain_busy (s := { s with host := rest }) h hop
    exact ⟨_, _, hstep, List.forall_mem_append.2 ⟨hfront, hrest⟩⟩

/-- One step of a waiting command brings it nearer to its engine step and changes nothing of the engine. -/
theorem step_waiting_plain {w : Word} {n : Nat} (h : s.inFlight = some { word := w, wait := n + 1 })
    (hp : ∀ op ∈ s.host, op.plain = true) :
    ∃ host observed,
      step s = .next { s with inFlight := some { word := w, wait := n }, host := host, observed := observed } ∧
      ∀ op ∈ host, op.plain = true := by
  have hstep : step s = hostTurn { s with inFlight := some { word := w, wait := n } } := by
    simp [step, machineStep, h]
  rw [hstep]
  exact hostTurn_plain_busy rfl hp

end Waiting

/-- Settles O7, by induction on the latency. -/
theorem waitingCommandKeepsTheStateAtAcceptance : Obligations.WaitingCommandKeepsTheStateAtAcceptance := by
  intro n
  induction n with
  | zero => exact fun s w hs _ => ⟨s, rfl, hs, ⟨rfl, ⟨rfl, rfl, rfl⟩, rfl, ⟨rfl, rfl, rfl, rfl⟩, fun _ => rfl, rfl⟩⟩
  | succ n ih =>
    intro s w hs hp
    obtain ⟨host, observed, hstep, hhost⟩ := step_waiting_plain hs hp
    obtain ⟨t, hrun, ht, hsame⟩ := ih
      { s with inFlight := some { word := w, wait := n }, host := host, observed := observed } w rfl hhost
    exact ⟨t, (run_succ hstep n).trans hrun, ht, { hsame with }⟩

/-! ### A write to CMD (40_control_and_transfer.md R110, 60_exceptions.md R286) -/

/-- A busy engine drops every write at an aligned offset (70_reset_and_hazards.md R326). -/
theorem writes_waiting {s : State} {w : Word} {n : Nat} (h : s.inFlight = some { word := w, wait := n + 1 })
    {a : Nat} (ha : a < 65536) (h4 : a % 4 = 0) (x : Word) :
    Writes s a x { s with inFlight := some { word := w, wait := n } } := by
  unfold Writes
  rw [step_waiting h, hostOp_write ha h4, busWrite_busy rfl]

section Acceptance

variable {s : State} (hs : s.inFlight = none)
include hs

/-- An idle engine takes a write to CMD as a command (20_memory.md R64). -/
theorem writes_cmd (w : Word) : Writes s 0x0010 w (writeCmd s w) :=
  writes_of_busWrite hs (by decide) rfl (if_neg (by simp [State.busy, hs]))

/-- While ERR = 1 every word but CLEAR's is dropped (60_exceptions.md R286). -/
theorem writes_cmd_dropped {w : Word} (he : s.err = true) (hw : w ≠ 0x00000001) : Writes s 0x0010 w s := by
  have hdrop : writeCmd s w = s := if_pos ⟨he, hw⟩
  simpa only [hdrop] using writes_cmd hs w

/-- Acceptance sets BUSY and clears DONE (40_control_and_transfer.md R110). -/
theorem writes_cmd_accepted {w : Word} (h : s.err = false ∨ w = 0x00000001) :
    Writes s 0x0010 w { s.accept w (s.latency.headD 0) with latency := s.latency.tail } := by
  have haccept : writeCmd s w = { s.accept w (s.latency.headD 0) with latency := s.latency.tail } := by
    refine if_neg fun ⟨he, hw⟩ => ?_
    obtain h | h := h
    · simp [h] at he
    · exact hw h
  simpa only [haccept] using writes_cmd hs w

end Acceptance

/-- Settles O8: the three cases of a write to CMD. -/
theorem acceptanceOfACommandWrite : Obligations.AcceptanceOfACommandWrite := by
  intro s w
  refine ⟨fun f n hs => ?_, fun hs he hw => ?_, fun hs h => ?_⟩
  · exact writes_waiting hs (by decide) rfl w
  · exact writes_cmd_dropped hs he hw
  · exact ⟨_, writes_cmd_accepted hs h⟩

/-! ### NOP, CLEAR and XFER (40_control_and_transfer.md R112 to R114) -/

/-- Settles O28: NOP's writes are those of completion, and its word is not CLEAR's. -/
theorem nopCompletes : Obligations.NopCompletes :=
  ⟨rfl, fun _ => rfl, fun _ hs he => writes_cmd_dropped hs he (by decide)⟩

/-- CLEAR leaves what reset leaves, but for DONE (40_control_and_transfer.md R113). -/
theorem State.cleared_complete_storages (s : State) : StoragesAtReset s.cleared.complete :=
  { s.afterReset_storages with }

/-- No other command turns ERR to 0 (40_control_and_transfer.md R113). -/
theorem Effect.eq_clear_of_err {s t : State} {i : Instr} (h : Effect s i t) (hs : s.err = true) (ht : t.err = false) :
    i = .clear := by
  cases h with
  | clear => rfl
  | fault | nop | xfer | load | move | product | output | check => simp [hs] at ht

/-- Settles O29: CLEAR's writes are those of a reset, and its word passes the check of ERR at acceptance. -/
theorem clearRestoresResetValues : Obligations.ClearRestoresResetValues := by
  refine ⟨rfl, fun s => ?_, fun s hs => ⟨?_, fun w => writes_cmd_dropped hs, fun i t h => ?_⟩⟩
  · exact ⟨s.cleared.complete, ⟨rfl, rfl, rfl⟩, s.cleared_complete_storages, rfl, rfl, rfl, rfl⟩
  · exact ⟨_, _, writes_cmd_accepted hs (.inr rfl), rfl⟩
  · exact (exec_effect h).eq_clear_of_err

section CopyOutToIn

variable {s : State} (h : s.olen.toNat ≤ s.params.bufMax)
include h

theorem State.length_outBytes : s.outBytes.length = s.olen.toNat := by simp [State.outBytes, h]

/-- XFER's copy puts OBUF[k] at IBUF[k] for `k < OLEN`. -/
theorem State.copyOutToIn_ibuf {k : Nat} (hk : k < s.olen.toNat) : s.copyOutToIn.ibuf k = s.obuf k := by
  have hread : s.copyOutToIn.ibuf k = s.outBytes.getD k 0 :=
    Memory.read_writeBytes_inside (by rwa [State.length_outBytes h])
  rw [hread, State.outBytes, Memory.getD_readBytes _ _ _ _ _ (by omega)]
  rfl

/-- XFER's copy leaves every byte but the first OLEN of IBUF. -/
theorem State.copyOutToIn_read_of_olen {a : Nat} (ha : a < ibufBase ∨ ibufBase + s.olen.toNat ≤ a) :
    s.copyOutToIn.mem.read a = s.mem.read a :=
  Memory.read_writeBytes_outside (by rwa [State.length_outBytes h])

end CopyOutToIn

/-- Settles O30: XFER's one write of memory is the copy; OBUF lies past IBUF's end. -/
theorem xferCopiesOutputToInput : Obligations.XferCopiesOutputToInput := by
  refine ⟨rfl, fun s hp h => ⟨s.copyOutToIn.complete, ⟨rfl, rfl, rfl⟩, rfl, rfl, ?_⟩⟩
  obtain ⟨-, -, -, -, -, hbuf⟩ := hp
  have hobuf (k : Nat) : s.copyOutToIn.obuf k = s.obuf k :=
    State.copyOutToIn_read_of_olen h (.inr (by unfold ibufBase obufBase; omega))
  exact ⟨fun k hk => State.copyOutToIn_ibuf h hk, fun a ha => State.copyOutToIn_read_of_olen h ha,
    fun k _ => hobuf k, fun r => by simp, rfl, rfl, rfl, rfl, rfl, ⟨rfl, rfl, rfl, rfl⟩⟩

/-! ### Numbers in buffers (41_bigint_rsa.md R130, R131) -/

/-- One more byte behind a big-endian number. -/
theorem bigEndian_succ (f : Nat → Byte) (n : Nat) : bigEndian f (n + 1) = bigEndian f n * 256 + (f n).toNat := by
  have hshift : ∀ k ∈ List.range n, (f k).toNat * 256 ^ (n + 1 - 1 - k) = (f k).toNat * 256 ^ (n - 1 - k) * 256 := by
    intro k hk
    rw [List.mem_range] at hk
    rw [mul_assoc, ← pow_succ, show n - 1 - k + 1 = n + 1 - 1 - k by omega]
  unfold bigEndian
  rw [List.range_succ, List.map_append, List.sum_append, List.map_congr_left hshift, List.sum_map_mul_right]
  simp

theorem bigEndian_congr {f g : Nat → Byte} {n : Nat} (h : ∀ k < n, f k = g k) : bigEndian f n = bigEndian g n := by
  unfold bigEndian
  exact congrArg List.sum (List.map_congr_left fun k hk => by rw [h k (List.mem_range.1 hk)])

/-- The number of a buffer is the big-endian number of its bytes (41_bigint_rsa.md R130). -/
theorem importBytes_eq_bigEndian (b : Buffer) : importBytes b = bigEndian (fun k => b.getD k 0) b.length := by
  induction b using List.reverseRecOn with
  | nil => rfl
  | append_singleton b x ih =>
    have hprefix : bigEndian (fun k => (b ++ [x]).getD k 0) b.length = bigEndian (fun k => b.getD k 0) b.length :=
      bigEndian_congr fun k hk => List.getD_append _ _ _ _ hk
    rw [importBytes_append, List.length_append, List.length_singleton, bigEndian_succ, hprefix, ih]
    simp

/-- The number of the input buffer (00_scope.md R13). -/
theorem State.importBytes_input (s : State) : importBytes s.input = bigEndian s.ibuf s.ilen.toNat := by
  rw [importBytes_eq_bigEndian, State.length_input]
  exact bigEndian_congr fun k hk => s.getD_input hk 0

/-- Output of the encoding of `v` leaves OBUF with the minimal one (41_bigint_rsa.md R131). -/
theorem State.putOut_exportBytes_minimal (s : State) {v : Nat} (h : (exportBytes v).length < 2 ^ 32) :
    MinimalOutput (s.putOut (exportBytes v)).complete v := by
  have holen : (s.putOut (exportBytes v)).complete.olen.toNat = (exportBytes v).length := State.putOut_olen_toNat s _ h
  have hbyte (k : Nat) (hk : k < (exportBytes v).length) :
      (s.putOut (exportBytes v)).complete.obuf k = (exportBytes v).getD k 0 := State.putOut_obuf_inside s _ hk
  refine ⟨?_, fun h0 => ?_⟩
  · rw [holen, bigEndian_congr hbyte, ← importBytes_eq_bigEndian, importBytes_exportBytes]
  · have hv : v ≠ 0 := by rintro rfl; simp at h0
    obtain ⟨hfirst, hne⟩ := exportBytes_first v hv
    rwa [hbyte 0 (List.length_pos_iff.2 hne)]

/-! ### MP_LOAD, MP_STORE and MP_MOV (40_control_and_transfer.md R116 to R118) -/

/-- The word of a command by its fields' places (30_encoding.md R90). -/
theorem packWord_eq_or (op : BitVec 8) (rd rs : Selector) :
    packWord op rd rs = op.setWidth 32 ||| (rd.setWidth 32 <<< 8) ||| (rs.setWidth 32 <<< 12) := by
  apply BitVec.eq_of_getLsbD_eq
  intro i hi
  simp only [packWord, BitVec.getLsbD_append, BitVec.getLsbD_or, BitVec.getLsbD_shiftLeft, BitVec.getLsbD_setWidth]
  grind

theorem decode_error_of_illegalWord {w : Word} (h : IllegalWord w) : ∃ r, decode w = .error r := by
  obtain ⟨herr, -, -⟩ := illegalWordsFaultAndExecuteNothing w
  exact herr.2 h

/-- The register of a register's selector (10_state.md R24). -/
@[simp] theorem mpRegOf_selectorOf (r : MpReg) : mpRegOf (selectorOf r) = some r := by cases r <;> rfl

/-- A selector of no register faults IllegalCommand (0x10) (30_encoding.md R92). -/
theorem withMpReg_illegal {r : Selector} (h : 5 ≤ r.toNat) (s : State) (k : MpReg → Result) :
    withMpReg r s k = .next (faulted s 0x10) :=
  withMpReg_none (mpRegOf_eq_none.2 h) s k

theorem withMpReg_selectorOf (r : MpReg) (s : State) (k : MpReg → Result) : withMpReg (selectorOf r) s k = k r :=
  withMpReg_some (mpRegOf_selectorOf r) s k

/-- MP_LOAD with a selector that names a register, by its two other checks. -/
theorem exec_mpLoad_selectorOf (r : MpReg) (s : State) : exec (.mpLoad (selectorOf r)) s =
    withInput s fun b =>
      if 2 ^ s.params.mpBits ≤ importBytes b then fails .operandTooLarge s else finish (s.setMp r (importBytes b)) :=
  withMpReg_selectorOf r s _

/-- Settles O31: the checks in their order, and the register written with the number of the input. -/
theorem mpLoadImportsTheInput : Obligations.MpLoadImportsTheInput := by
  refine ⟨fun rd => ?_, fun w hop hrs => ?_, fun rd s h => withMpReg_illegal h s _, fun r s => ?_⟩
  · simpa [encode] using packWord_eq_or 0x10 rd 0
  · refine decode_error_of_illegalWord (.inr (.inr (.inr ?_)))
    rwa [if_neg (by omega)]
  · unfold FaultsWith Completes
    rw [exec_mpLoad_selectorOf, ← s.importBytes_input]
    split_ifs with hrange hlarge
    · exact withInput_range hrange _
    · exact (withInput_ok (Nat.not_lt.1 hrange) _).trans (if_pos hlarge)
    · rw [withInput_ok (Nat.not_lt.1 hrange), if_neg hlarge]
      exact ⟨_, ⟨rfl, rfl, rfl⟩, by simp, s.setMp_complete_frame r _⟩

/-- Settles O32: MP_STORE's output is the minimal encoding of the register, which its width keeps within OBUF. -/
theorem mpStoreExportsTheRegister : Obligations.MpStoreExportsTheRegister := by
  refine ⟨fun rs => ?_, fun w hop hrd => ?_, fun rs s h => withMpReg_illegal h s _, fun r s hp hr => ?_⟩
  · simpa [encode] using packWord_eq_or 0x11 0 rs
  · refine decode_error_of_illegalWord (.inr (.inr (.inl ?_)))
    rwa [if_neg (by omega)]
  · obtain ⟨hbytes, hmax⟩ := length_exportBytes_le_bufMax hp hr
    obtain ⟨-, -, -, -, -, hbuf⟩ := hp
    have hlen : (exportBytes (s.mp r)).length < 2 ^ 32 := by omega
    refine ⟨(s.putOut (exportBytes (s.mp r))).complete, ⟨withMpReg_selectorOf r s _, rfl, rfl⟩,
      s.putOut_exportBytes_minimal hlen, ?_, s.putOut_complete_frame _ hlen⟩
    exact (State.putOut_olen_toNat s _ hlen).trans_le hbytes

/-- Settles O33: MP_MOV writes its destination with the source as it was. -/
theorem mpMovCopiesTheRegister : Obligations.MpMovCopiesTheRegister := by
  refine ⟨fun rd rs => packWord_eq_or 0x12 rd rs, fun rd rs s h => ?_, fun d r s => ?_⟩
  · cases hd : mpRegOf rd with
    | none => exact withMpReg_none hd s _
    | some d =>
      have hrs : 5 ≤ rs.toNat := h.resolve_left fun h5 => by simp [mpRegOf_eq_none.2 h5] at hd
      exact (withMpReg_some hd s _).trans (withMpReg_illegal hrs s _)
  · have hexec : exec (.mpMov (selectorOf d) (selectorOf r)) s = finish (s.setMp d (s.mp r)) :=
      (withMpReg_selectorOf d s _).trans (withMpReg_selectorOf r s _)
    exact ⟨_, ⟨hexec, rfl, rfl⟩, by simp, s.setMp_complete_frame d _⟩

end Sys2Proof.Machine

/-! The big-integer commands of 41_bigint_rsa.md: buffers and the numbers they denote, the Montgomery product and its
square-and-multiply chain, the modular power, and raw RSA with its round trip. -/

namespace Sys2Proof.Machine

/-! ### Minimal encodings (41_bigint_rsa.md R130, R131) -/

/-- A first byte that is not 0 gives the number the buffer's full length. -/
theorem pow_le_importBytes {b : Buffer} (h : b.getD 0 0 ≠ 0) : 256 ^ (b.length - 1) ≤ importBytes b := by
  cases b with
  | nil => simp at h
  | cons x b =>
    have hx : 0 < x.toNat := Nat.pos_of_ne_zero fun h0 => h (BitVec.eq_of_toNat_eq h0)
    rw [importBytes_cons]
    exact (Nat.le_mul_of_pos_left _ hx).trans (Nat.le_add_right _ _)

/-- A buffer with no leading zero byte is the minimal encoding of its number: both have one number and one length. -/
theorem exportBytes_importBytes_of_first {b : Buffer} (h : b.getD 0 0 ≠ 0) : exportBytes (importBytes b) = b := by
  have hle : (exportBytes (importBytes b)).length ≤ b.length := length_exportBytes_le _ _ (importBytes_lt b)
  have hlt : 256 ^ (b.length - 1) < 256 ^ (exportBytes (importBytes b)).length :=
    calc 256 ^ (b.length - 1) ≤ importBytes (exportBytes (importBytes b)) := by
          rw [importBytes_exportBytes]; exact pow_le_importBytes h
      _ < 256 ^ (exportBytes (importBytes b)).length := importBytes_lt _
  have hlen : b.length - 1 < (exportBytes (importBytes b)).length := (Nat.pow_lt_pow_iff_right (by norm_num)).1 hlt
  exact importBytes_inj (by omega) (importBytes_exportBytes _)

/-- A minimal encoding has no leading zero byte. -/
theorem exportBytes_eq_nil_or_first (v : Nat) : exportBytes v = [] ∨ (exportBytes v).getD 0 0 ≠ 0 := by
  by_cases h : v = 0
  · exact .inl (h ▸ exportBytes_zero)
  · exact .inr (exportBytes_first v h).1

/-- Settles O37: a buffer is a minimal encoding exactly when it has no leading zero byte. -/
theorem importAndExportAreInverse : Obligations.ImportAndExportAreInverse := by
  refine ⟨fun v => ?_, fun b => ⟨fun h => h ▸ exportBytes_eq_nil_or_first _, ?_⟩, importBytes_eq_bigEndian⟩
  · rw [← importBytes_eq_bigEndian, importBytes_exportBytes]
  · rintro (rfl | h)
    · exact exportBytes_zero
    · exact exportBytes_importBytes_of_first h

/-! ### MONTMUL (41_bigint_rsa.md R134, R135) -/

section MontgomeryProduct

variable {n : Nat} (hodd : n % 2 = 1)
include hodd

theorem montMul_lt (k a b : Nat) : montMul k a b n < n := Nat.mod_lt _ (by omega)

/-- The radix is a unit modulo an odd number. -/
theorem modEq_of_mul_radix {k a b : Nat} (h : a * 2 ^ k ≡ b * 2 ^ k [MOD n]) : a ≡ b [MOD n] :=
  h.cancel_right_of_coprime (coprime_radix k hodd)

/-- One number below the modulus alone is the Montgomery product (41_bigint_rsa.md R134). -/
theorem eq_montMul {k a b v : Nat} (hv : v < n) (h : v * 2 ^ k ≡ a * b [MOD n]) : v = montMul k a b n :=
  (modEq_of_mul_radix hodd (h.trans (montMul_spec a b hodd).symm)).eq_of_lt_of_lt hv (montMul_lt hodd k a b)

end MontgomeryProduct

/-- MONTMUL whose checks pass (41_bigint_rsa.md R135). -/
theorem exec_montmul_ok {s : State} (hodd : s.mpn % 2 = 1) (ha : s.mpa < s.mpn) (hb : s.mpb < s.mpn) :
    exec .montmul s = .next (s.setMp .mpr (montMul s.params.mpBits s.mpa s.mpb s.mpn)).complete :=
  (if_neg (by omega)).trans (if_neg (by omega))

/-- Settles O34: the modulus is odd past the first check, so that the radix cancels. -/
theorem montmulIsTheMontgomeryProduct : Obligations.MontmulIsTheMontgomeryProduct := by
  refine ⟨rfl, fun s => ?_⟩
  split_ifs with heven hrange
  · exact if_pos heven
  · exact (if_neg heven).trans (if_pos hrange)
  · have hodd : s.mpn % 2 = 1 := by omega
    exact ⟨_, ⟨exec_montmul_ok hodd (by omega) (by omega), rfl, rfl⟩, montMul_lt hodd _ _ _,
      montMul_spec _ _ hodd, fun v hv h => eq_montMul hodd hv h, s.setMp_complete_frame .mpr _⟩

/-! ### MODEXP (41_bigint_rsa.md R133, R136) -/

/-- MODEXP whose check passes (41_bigint_rsa.md R136). -/
theorem exec_modexp_ok {s : State} (h : s.mpn ≠ 0) :
    exec .modexp s = .next (s.setMp .mpr (s.mpa ^ s.mpe % s.mpn)).complete := by
  rw [← powMod_eq _ _ _ (Nat.pos_of_ne_zero h)]
  exact if_neg h

/-- Settles O35: past the one check MPR takes the power. -/
theorem modexpIsTheModularPower : Obligations.ModexpIsTheModularPower := by
  refine ⟨rfl, fun s => ?_⟩
  split_ifs with h
  · exact if_pos h
  · exact ⟨_, ⟨exec_modexp_ok h, rfl, rfl⟩, rfl, s.setMp_complete_frame .mpr _⟩

/-! ### MODEXP as a chain of MONTMUL commands (41_bigint_rsa.md R139) -/

theorem modexpResult_eq {s : State} (h : s.mpn ≠ 0) (a e : Nat) : modexpResult s a e = a ^ e % s.mpn := by
  unfold modexpResult
  rw [exec_modexp_ok (s := { s with mpa := a, mpe := e }) h]
  rfl

/-- `x` is the Montgomery form of `v` for the modulus and the radix of `s` (41_bigint_rsa.md R134). -/
structure MontForm (s : State) (x v : Nat) : Prop where
  lt : x < s.mpn
  modEq : x ≡ v * 2 ^ s.params.mpBits [MOD s.mpn]

section MontgomeryChain

variable {s : State} (hodd : s.mpn % 2 = 1)
include hodd

theorem montmulResult_eq {x y : Nat} (hx : x < s.mpn) (hy : y < s.mpn) :
    montmulResult s x y = montMul s.params.mpBits x y s.mpn := by
  unfold montmulResult
  rw [exec_montmul_ok (s := { s with mpa := x, mpb := y }) hodd hx hy]
  rfl

/-- MONTMUL takes one factor of the radix off a product. -/
theorem montmulResult_modEq {x y v : Nat} (hx : x < s.mpn) (hy : y < s.mpn)
    (h : x * y ≡ v * 2 ^ s.params.mpBits [MOD s.mpn]) :
    montmulResult s x y < s.mpn ∧ montmulResult s x y ≡ v [MOD s.mpn] := by
  rw [montmulResult_eq hodd hx hy]
  exact ⟨montMul_lt hodd _ _ _, modEq_of_mul_radix hodd ((montMul_spec x y hodd).trans h)⟩

/-- Into Montgomery form: MONTMUL with the square of the radix. -/
theorem montForm_montmulResult_radixSq {a v : Nat} (ha : a < s.mpn) (hv : a ≡ v [MOD s.mpn]) :
    MontForm s (montmulResult s a ((2 ^ s.params.mpBits) ^ 2 % s.mpn)) v := by
  have hprod : a * ((2 ^ s.params.mpBits) ^ 2 % s.mpn) ≡
      v * 2 ^ s.params.mpBits * 2 ^ s.params.mpBits [MOD s.mpn] := by
    rw [mul_assoc, ← sq]
    exact hv.mul (Nat.mod_modEq _ _)
  exact (montmulResult_modEq hodd ha (Nat.mod_lt _ (by omega)) hprod).elim .mk

/-- MONTMUL multiplies in Montgomery form. -/
theorem MontForm.mul {x y u v : Nat} (hx : MontForm s x u) (hy : MontForm s y v) :
    MontForm s (montmulResult s x y) (u * v) := by
  have hprod : x * y ≡ u * v * 2 ^ s.params.mpBits * 2 ^ s.params.mpBits [MOD s.mpn] := by
    convert hx.modEq.mul hy.modEq using 1
    ring
  exact (montmulResult_modEq hodd hx.lt hy.lt hprod).elim .mk

/-- Out of Montgomery form: MONTMUL with 1. -/
theorem MontForm.montmulResult_one {x v : Nat} (hx : MontForm s x v) (h1 : 1 < s.mpn) :
    montmulResult s x 1 = v % s.mpn := by
  obtain ⟨hlt, hmod⟩ := montmulResult_modEq hodd hx.lt h1 (by rw [mul_one]; exact hx.modEq)
  exact (Nat.mod_eq_of_lt hlt).symm.trans hmod

/-- The chain over the bits below `n` turns the power by the bits from `n` on into the whole power. -/
theorem MontForm.montChain_pow {x a : Nat} (hx : MontForm s x a) (e n : Nat) {acc : Nat}
    (hacc : MontForm s acc (a ^ (e / 2 ^ n))) : MontForm s (montChain s x n e acc) (a ^ e) := by
  induction n generalizing acc with
  | zero => simpa [montChain] using hacc
  | succ n ih =>
    have hsq := hacc.mul hodd hacc
    rw [← pow_add] at hsq
    have hhalf : e / 2 ^ (n + 1) = e / 2 ^ n / 2 := by rw [pow_succ, Nat.div_div_eq_div_mul]
    refine ih ?_
    cases hbit : e.testBit n with
    | true =>
      rw [Nat.testBit_eq_decide_div_mod_eq, decide_eq_true_iff] at hbit
      have hexp : e / 2 ^ n = e / 2 ^ (n + 1) + e / 2 ^ (n + 1) + 1 := by omega
      rw [hexp, pow_succ]
      exact hsq.mul hodd hx
    | false =>
      rw [Nat.testBit_eq_decide_div_mod_eq, decide_eq_false_iff_not] at hbit
      have hexp : e / 2 ^ n = e / 2 ^ (n + 1) + e / 2 ^ (n + 1) := by omega
      rw [hexp]
      exact hsq

end MontgomeryChain

/-- Settles O38: the chain stays in Montgomery form, where its accumulator ends as the power. -/
theorem montgomeryChainEqualsModexp : Obligations.MontgomeryChainEqualsModexp := by
  intro s a e n hodd h3 he
  have hx := montForm_montmulResult_radixSq hodd (Nat.mod_lt a (by omega)) (Nat.mod_modEq a s.mpn)
  have hone := montForm_montmulResult_radixSq hodd (show 1 < s.mpn by omega) (Nat.ModEq.refl 1)
  rw [modexpResult_eq (by omega)]
  refine (hx.montChain_pow hodd e n ?_).montmulResult_one hodd (by omega)
  rwa [Nat.div_eq_of_lt he, pow_zero]

/-! ### RSA_ENC and RSA_DEC (41_bigint_rsa.md R137, R138) -/

/-- Both commands compute raw RSA, each with its own fault (41_bigint_rsa.md R137, R138). -/
theorem exec_rsa {i : Instr} {c : Byte} (h : i = .rsaEnc ∧ c = 0x03 ∨ i = .rsaDec ∧ c = 0x04) (s : State) :
    ∃ e, exec i s = rsaCore e s ∧ s.raise e = faulted s c := by
  obtain ⟨rfl, rfl⟩ | ⟨rfl, rfl⟩ := h
  · exact ⟨.plaintextTooLarge, rfl, rfl⟩
  · exact ⟨.ciphertextTooLarge, rfl, rfl⟩

/-- Raw RSA completes, for either command, with the minimal encoding of the power (41_bigint_rsa.md R137, R138). -/
theorem rsa_completes {s : State} {i : Instr} (hi : i = .rsaEnc ∨ i = .rsaDec) (hp : s.params.Valid)
    (hn : s.mpn < 2 ^ s.params.mpBits) (hl : s.ilen.toNat ≤ s.params.bufMax)
    (hm : bigEndian s.ibuf s.ilen.toNat < s.mpn) :
    ∃ t, Completes i s t ∧ MinimalOutput t (bigEndian s.ibuf s.ilen.toNat ^ s.mpe % s.mpn) ∧
      t.olen.toNat ≤ s.params.mpBits / 8 ∧ OutputFrame s t := by
  rw [← s.importBytes_input] at hm ⊢
  have hpos : 0 < s.mpn := by omega
  obtain ⟨hbytes, hmax⟩ := length_exportBytes_le_bufMax hp ((powMod_lt (importBytes s.input) s.mpe _ hpos).trans hn)
  rw [powMod_eq _ _ _ hpos] at hbytes
  obtain ⟨-, -, -, -, -, hbuf⟩ := hp
  have hlen : (exportBytes (importBytes s.input ^ s.mpe % s.mpn)).length < 2 ^ 32 := by omega
  have hcore (e : ErrorKind) :
      rsaCore e s = finish (s.putOut (exportBytes (importBytes s.input ^ s.mpe % s.mpn))) := by
    rw [← powMod_eq _ _ _ hpos]
    exact (withInput_ok hl _).trans (if_neg (by omega))
  refine ⟨_, ⟨?_, rfl, rfl⟩, s.putOut_exportBytes_minimal hlen, ?_, s.putOut_complete_frame _ hlen⟩
  · rcases hi with rfl | rfl <;> exact hcore _
  · exact (State.putOut_olen_toNat s _ hlen).trans_le hbytes

/-- Settles O36: the two checks in their order, and then the completion both commands share. -/
theorem rsaIsRawExponentiation : Obligations.RsaIsRawExponentiation := by
  refine ⟨rfl, rfl, fun s i c hic hp hn => ?_⟩
  obtain ⟨e, hexec, hraise⟩ := exec_rsa hic s
  split_ifs with hrange hlarge
  · exact hexec.trans (withInput_range hrange _)
  · rw [← s.importBytes_input] at hlarge
    rw [FaultsWith, hexec, ← hraise]
    exact (withInput_ok (by omega) _).trans (if_pos hlarge)
  · exact rsa_completes (hic.imp And.left And.left) hp hn (by omega) (by omega)

/-! ### The RSA round trip (41_bigint_rsa.md R140) -/

/-- An exponent that is 1 modulo `(p-1)(q-1)`, for distinct primes, is not 0. -/
theorem one_le_of_modEq_one {p q x : Nat} (hp : p.Prime) (hq : q.Prime) (hpq : p ≠ q)
    (h : x ≡ 1 [MOD (p - 1) * (q - 1)]) : 1 ≤ x := by
  by_contra hx
  obtain rfl : x = 0 := by omega
  have hdvd : (p - 1) * (q - 1) ∣ 1 := Nat.modEq_zero_iff_dvd.1 h.symm
  obtain ⟨hp1, hq1⟩ := mul_eq_one.1 (Nat.dvd_one.1 hdvd)
  have hp2 := hp.two_le
  have hq2 := hq.two_le
  omega

/-- Fermat's little theorem for every base, also one that the prime divides. -/
theorem pow_modEq_self {p x : Nat} (hp : p.Prime) (hx : 1 ≤ x) (h : p - 1 ∣ x - 1) (m : Nat) :
    m ^ x ≡ m [MOD p] := by
  simpa [← Int.natCast_modEq_iff] using Int.ModEq.pow_eq_pow hp h hx one_pos m

/-- Raising to both exponents in turn gives a number below the modulus back, be it coprime to the modulus or not. -/
theorem rsa_pow_pow_mod {p q e d m : Nat} (hp : p.Prime) (hq : q.Prime) (hpq : p ≠ q)
    (h : e * d ≡ 1 [MOD (p - 1) * (q - 1)]) (hm : m < p * q) : (m ^ e % (p * q)) ^ d % (p * q) = m := by
  have hed : 1 ≤ e * d := one_le_of_modEq_one hp hq hpq h
  have hdvd : (p - 1) * (q - 1) ∣ e * d - 1 := (Nat.modEq_iff_dvd' hed).1 h.symm
  have hmodp : m ^ (e * d) ≡ m [MOD p] := pow_modEq_self hp hed (dvd_of_mul_right_dvd hdvd) m
  have hmodq : m ^ (e * d) ≡ m [MOD q] := pow_modEq_self hq hed (dvd_of_mul_left_dvd hdvd) m
  have hmod : m ^ (e * d) ≡ m [MOD p * q] :=
    (Nat.modEq_and_modEq_iff_modEq_mul ((Nat.coprime_primes hp hq).2 hpq)).1 ⟨hmodp, hmodq⟩
  rw [← Nat.pow_mod, ← pow_mul, hmod, Nat.mod_eq_of_lt hm]

/-- XFER moves the number in the output buffer to the input buffer (40_control_and_transfer.md R114). -/
theorem State.copyOutToIn_number {s : State} (h : s.olen.toNat ≤ s.params.bufMax) :
    bigEndian s.copyOutToIn.complete.ibuf s.copyOutToIn.complete.ilen.toNat = bigEndian s.obuf s.olen.toNat :=
  bigEndian_congr fun _ hk => State.copyOutToIn_ibuf h hk

/-- Settles O39: the second power undoes the first, and the number between them is below the modulus. -/
theorem rsaRoundTrip : Obligations.RsaRoundTrip := by
  intro s p q d hp hprime hqprime hpq hpn hn hed hl hm
  obtain ⟨t, ht, ⟨htout, -⟩, htlen, ⟨henv, -, hregs, -⟩⟩ := rsa_completes (.inl rfl) hp hn hl hm
  have hparams : t.params = s.params := henv.params
  have hmpn : t.mpn = s.mpn := hregs .mpn
  have htbuf : t.olen.toNat ≤ t.params.bufMax := by
    obtain ⟨-, -, -, hbuf, -⟩ := hp
    rw [hparams]
    omega
  have hnumber := (State.copyOutToIn_number htbuf).trans htout
  obtain ⟨v, hv, hvout, -⟩ := rsa_completes (s := { t.copyOutToIn.complete with mpe := d }) (.inr rfl)
    (by rwa [← hparams] at hp) (by rwa [← hparams, ← hmpn] at hn) htbuf
    (hnumber.trans_lt ((Nat.mod_lt _ (by omega)).trans_eq hmpn.symm))
  refine ⟨t, _, v, ht, ⟨rfl, rfl, rfl⟩, hv, ?_⟩
  convert hvout using 1
  have hpower := rsa_pow_pow_mod hprime hqprime hpq hed (hpn ▸ hm)
  rw [← hpn, ← hnumber, ← hmpn] at hpower
  exact hpower.symm

end Sys2Proof.Machine

/-! The AES functions and single-block commands of 42_aes_block.md: the field and the S-box (R161 to R163), the round
steps (R164 to R169), the cipher and its inverse (R172, R173), the key schedule (R168 to R171), and the three
commands (R174 to R176). -/

namespace Sys2Proof.Machine

/-! ### Multiplication in the field (42_aes_block.md R161) -/

theorem gmul_additive (a : Byte) : Additive (gmul a) := gmul_xor a

theorem Additive.comp {f g : Byte → Byte} (hf : Additive f) (hg : Additive g) : Additive (f ∘ g) := fun x y => by
  simp only [Function.comp_apply, hg x y, hf _ _]

/-- Two maps that keep XOR and agree at the eight powers of `x` are equal. -/
theorem Additive.eq_of_two_pow {f g : Byte → Byte} (hf : Additive f) (hg : Additive g)
    (h : ∀ i < 8, f (BitVec.ofNat 8 (2 ^ i)) = g (BitVec.ofNat 8 (2 ^ i))) : f = g := by
  refine funext (Additive.ext hf hg fun b hb => ?_)
  obtain ⟨i, hi, rfl⟩ : ∃ i < 8, b = 2 ^ i := by revert b; decide
  exact h i hi

theorem gmul_one (a : Byte) : gmul a 1 = a := by simp [gmul_eq, xtimes]

theorem one_gmul (x : Byte) : gmul 1 x = x :=
  congrFun ((gmul_additive 1).eq_of_two_pow (g := id) (fun _ _ => rfl) (by decide)) x

theorem xtime_additive : Additive xtime := by
  intro x y
  have bit7 (a : Byte) : a &&& 0x80 ≠ 0 ↔ a.getLsbD 7 = true := by revert a; decide
  have reduction (p q : Bool) :
      (if (p ^^ q) then (0x1B : Byte) else 0) = (if p then 0x1B else 0) ^^^ if q then 0x1B else 0 := by
    revert p q; decide
  simp only [xtime, bit7, BitVec.getLsbD_xor, BitVec.shiftLeft_xor_distrib, reduction]
  ac_rfl

theorem xtime_two_pow : ∀ i < 7, xtime (BitVec.ofNat 8 (2 ^ i)) = BitVec.ofNat 8 (2 ^ (i + 1)) := by decide

theorem xtimes_succ (i : Nat) (a : Byte) : xtimes (i + 1) a = xtime (xtimes i a) := by
  induction i generalizing a with
  | zero => rfl
  | succ i ih => exact ih (xtime a)

theorem gmul_two_pow (a : Byte) {i : Nat} (hi : i < 8) : gmul a (BitVec.ofNat 8 (2 ^ i)) = xtimes i a := by
  interval_cases i <;> simp [gmul_eq]

/-- The reduction of the field: `x` to the eighth is the reduction constant. -/
theorem xtimes_eight (a : Byte) : xtimes 8 a = gmul a 0x1B := by revert a; decide +kernel

theorem gmul_xtime (a b : Byte) : gmul a (xtime b) = xtime (gmul a b) := by
  refine congrFun (((gmul_additive a).comp xtime_additive).eq_of_two_pow (xtime_additive.comp (gmul_additive a))
    fun i hi => ?_) b
  rw [Function.comp_apply, Function.comp_apply, gmul_two_pow a hi, ← xtimes_succ]
  obtain hi | rfl : i < 7 ∨ i = 7 := by omega
  · rw [xtime_two_pow i hi, gmul_two_pow a (by omega)]
  · exact (xtimes_eight a).symm

theorem gmul_xtimes (a b : Byte) (i : Nat) : gmul a (xtimes i b) = xtimes i (gmul a b) := by
  induction i generalizing b with
  | zero => rfl
  | succ i ih => rw [xtimes, ih, gmul_xtime, xtimes]

theorem gmul_assoc (a b x : Byte) : gmul (gmul a b) x = gmul a (gmul b x) := by
  refine congrFun ((gmul_additive _).eq_of_two_pow ((gmul_additive a).comp (gmul_additive b)) fun i hi => ?_) x
  rw [Function.comp_apply, gmul_two_pow _ hi, gmul_two_pow _ hi, gmul_xtimes]

/-! ### The S-box (42_aes_block.md R162, R163) -/

/-- The byte that the affine map of the S-box takes to `z`. -/
def affinePreimage (z : Byte) : Byte := rotl8 z 1 ^^^ rotl8 z 3 ^^^ rotl8 z 6 ^^^ 0x05

theorem affine_affinePreimage (z : Byte) :
    affinePreimage z ^^^ rotl8 (affinePreimage z) 1 ^^^ rotl8 (affinePreimage z) 2 ^^^ rotl8 (affinePreimage z) 3 ^^^
      rotl8 (affinePreimage z) 4 ^^^ 0x63 = z := by
  revert z; decide +kernel

/-- The table, with the affine map taken off, holds a left inverse of each byte but 0. -/
theorem affinePreimage_sbox_gmul (a : Byte) : gmul (affinePreimage (sbox a)) a = if a = 0 then 0 else 1 := by
  revert a; decide +kernel

/-- A right inverse is that left inverse, since the product is associative. -/
theorem eq_affinePreimage_sbox {a y : Byte} (h : if a = 0 then y = 0 else gmul a y = 1) :
    y = affinePreimage (sbox a) := by
  have hleft := affinePreimage_sbox_gmul a
  split_ifs at h hleft with ha
  · subst ha h; decide
  · calc y = gmul (gmul (affinePreimage (sbox a)) a) y := by rw [hleft, one_gmul]
      _ = affinePreimage (sbox a) := by rw [gmul_assoc, h, gmul_one]

/-- Settles O40: the field inverse is what the affine map takes to the table's entry. -/
theorem sboxIsTheAffineInverse : Obligations.SboxIsTheAffineInverse := by
  intro a y h
  rw [eq_affinePreimage_sbox h, affine_affinePreimage]
  exact ⟨rfl, invSbox_sbox a⟩

/-! ### The round steps byte by byte (42_aes_block.md R164 to R167, R169) -/

/-- A byte of a mixed block is the product of a row of the matrix with the column `a`. -/
theorem byteAt_mixWith_column (m : Nat → Byte) (s : Buffer) {a : Nat → Byte} {c r : Nat} (hc : c < 4) (hr : r < 4)
    (ha : ∀ j < 4, a j = byteAt s (4 * c + j)) :
    byteAt (mixWith m s) (4 * c + r) = gmul (m ((r + 4) % 4)) (a 0) ^^^ gmul (m ((r + 3) % 4)) (a 1) ^^^
      gmul (m ((r + 2) % 4)) (a 2) ^^^ gmul (m ((r + 1) % 4)) (a 3) := by
  rw [byteAt_mixWith m s hc hr, ha 0 (by decide), ha 1 (by decide), ha 2 (by decide), ha 3 (by decide)]
  rfl

theorem byteAt_shiftRows (s : Buffer) {r c : Nat} (hr : r < 4) (hc : c < 4) :
    byteAt (shiftRows s) (r + 4 * c) = byteAt s (r + 4 * ((c + r) % 4)) := by
  rw [shiftRows, byteAt_blockOf _ (by omega)]
  congr 1
  omega

theorem byteAt_invShiftRows (s : Buffer) {r c : Nat} (hr : r < 4) (hc : c < 4) :
    byteAt (invShiftRows s) (r + 4 * ((c + r) % 4)) = byteAt s (r + 4 * c) := by
  rw [invShiftRows, byteAt_blockOf _ (by omega)]
  congr 1
  omega

/-- Settles O41: each step by its byte; a coefficient 1 of MixColumns leaves its byte. -/
theorem roundStepsByteByByte : Obligations.RoundStepsByteByByte := by
  intro s rk n
  refine ⟨fun i hi => ?_, fun r hr c hc => ?_, fun c hc a ha => ?_⟩
  · exact ⟨byteAt_blockOf _ hi, byteAt_blockOf _ hi, byteAt_blockOf _ hi⟩
  · exact ⟨byteAt_shiftRows s hr hc, byteAt_invShiftRows s hr hc⟩
  · have mixed (r : Nat) (hr : r < 4) := byteAt_mixWith_column mixCoeff s hc hr ha
    have unmixed (r : Nat) (hr : r < 4) := byteAt_mixWith_column invMixCoeff s hc hr ha
    refine ⟨?_, ?_, ?_, ?_, unmixed 0 (by decide), unmixed 1 (by decide), unmixed 2 (by decide),
      unmixed 3 (by decide)⟩
    · rw [← one_gmul (a 2), ← one_gmul (a 3)]; exact mixed 0 (by decide)
    · rw [← one_gmul (a 0), ← one_gmul (a 3)]; exact mixed 1 (by decide)
    · rw [← one_gmul (a 0), ← one_gmul (a 1)]; exact mixed 2 (by decide)
    · rw [← one_gmul (a 1), ← one_gmul (a 2)]; exact mixed 3 (by decide)

/-! ### The rounds of the cipher and of its inverse (42_aes_block.md R172, R173) -/

section Rounds

variable (rk : Buffer) {nr r : Nat} (s : Buffer)

theorem encRound_final : encRound rk nr nr s = addRoundKey (shiftRows (subBytes s)) rk nr := by
  rw [encRound, if_pos rfl]

theorem encRound_of_ne (h : r ≠ nr) :
    encRound rk nr r s = addRoundKey (mixColumns (shiftRows (subBytes s))) rk r := by rw [encRound, if_neg h]

theorem decRound_final : decRound rk nr nr s = invSubBytes (invShiftRows (addRoundKey s rk nr)) := by
  rw [decRound, if_pos rfl]

theorem decRound_of_ne (h : r ≠ nr) :
    decRound rk nr r s = invSubBytes (invShiftRows (invMixColumns (addRoundKey s rk r))) := by
  rw [decRound, if_neg h]

/-- The block in the inverse cipher once the rounds from `nr` down to `r` are done. -/
def decRoundsFrom (nr : Nat) (b : Buffer) (r : Nat) : Buffer :=
  (List.range' r (nr + 1 - r)).foldr (decRound rk nr) b

theorem decRoundsFrom_none : decRoundsFrom rk nr s (nr + 1) = s := by simp [decRoundsFrom]

theorem decRoundsFrom_of_le (h : r ≤ nr) :
    decRoundsFrom rk nr s r = decRound rk nr r (decRoundsFrom rk nr s (r + 1)) := by
  rw [decRoundsFrom, show nr + 1 - r = nr + 1 - (r + 1) + 1 by omega, List.range'_succ]
  rfl

/-- The rounds below the ones that are done lead to all rounds done. -/
theorem decRounds_decRoundsFrom (h : r ≤ nr) :
    decRounds rk nr r (decRoundsFrom rk nr s (r + 1)) = decRoundsFrom rk nr s 1 := by
  induction r with
  | zero => rfl
  | succ r ih => rw [decRounds, ← decRoundsFrom_of_le rk s h, ih (by omega)]

theorem decRounds_eq_decRoundsFrom (nr : Nat) : decRounds rk nr nr s = decRoundsFrom rk nr s 1 := by
  rw [← decRounds_decRoundsFrom rk s nr.le_refl, decRoundsFrom_none]

end Rounds

/-- Settles O42: `f` and `g` are the blocks after each round. -/
theorem cipherIsTheRoundSequence : Obligations.CipherIsTheRoundSequence := by
  intro b key
  refine ⟨fun r => encRounds (keyExpansion key) (roundCount key) r (addRoundKey b (keyExpansion key) 0),
    decRoundsFrom (keyExpansion key) (roundCount key) b, rfl, fun r h1 hr => ?_, ?_, ?_, fun r h1 hr => ?_, ?_⟩
  · obtain ⟨r, rfl⟩ := Nat.exists_eq_add_of_le' h1
    exact encRound_of_ne _ _ hr.ne
  · exact encRound_final _ _
  · refine (decRoundsFrom_of_le _ _ le_rfl).trans ?_
    rw [decRoundsFrom_none]
    exact decRound_final _ _
  · exact (decRoundsFrom_of_le _ _ hr.le).trans (decRound_of_ne _ _ hr.ne)
  · rw [invCipher, decRounds_eq_decRoundsFrom]

/-! ### The inverse cipher undoes the cipher (42_aes_block.md R173) -/

theorem length_decRound (rk : Buffer) (nr r : Nat) (s : Buffer) : (decRound rk nr r s).length = 16 :=
  length_invSubBytes _

section Inverse

variable (rk : Buffer) (nr r : Nat) {s : Buffer} (h : s.length = 16)
include h

theorem length_decRounds : (decRounds rk nr r s).length = 16 := by
  induction r generalizing s with
  | zero => exact h
  | succ r ih => exact ih (length_decRound ..)

/-- A round of the inverse cipher undoes the steps of the cipher's round from the last to the first. -/
theorem decRound_encRound : decRound rk nr r (encRound rk nr r s) = s := by
  obtain rfl | hr := eq_or_ne r nr
  · rw [encRound_final, decRound_final, addRoundKey_addRoundKey _ _ (length_shiftRows _),
      invShiftRows_shiftRows (length_subBytes _), invSubBytes_subBytes h]
  · rw [encRound_of_ne _ _ hr, decRound_of_ne _ _ hr, addRoundKey_addRoundKey _ _ (length_mixColumns _),
      invMixColumns_mixColumns (length_shiftRows _), invShiftRows_shiftRows (length_subBytes _),
      invSubBytes_subBytes h]

theorem encRound_decRound : encRound rk nr r (decRound rk nr r s) = s := by
  obtain rfl | hr := eq_or_ne r nr
  · rw [encRound_final, decRound_final, subBytes_invSubBytes (length_invShiftRows _),
      shiftRows_invShiftRows (length_addRoundKey ..), addRoundKey_addRoundKey _ _ h]
  · rw [encRound_of_ne _ _ hr, decRound_of_ne _ _ hr, subBytes_invSubBytes (length_invShiftRows _),
      shiftRows_invShiftRows (length_invMixColumns _), mixColumns_invMixColumns (length_addRoundKey ..),
      addRoundKey_addRoundKey _ _ h]

theorem decRounds_encRounds : decRounds rk nr r (encRounds rk nr r s) = s := by
  induction r with
  | zero => rfl
  | succ r ih => rw [encRounds, decRounds, decRound_encRound _ _ _ (length_encRounds _ _ _ h), ih]

theorem encRounds_decRounds : encRounds rk nr r (decRounds rk nr r s) = s := by
  induction r generalizing s with
  | zero => rfl
  | succ r ih => rw [encRounds, decRounds, ih (length_decRound ..), encRound_decRound _ _ _ h]

end Inverse

/-- Settles O43: the rounds undo each other, and AddRoundKey with round key 0 undoes itself. -/
theorem inverseCipherUndoesTheCipher : Obligations.InverseCipherUndoesTheCipher := by
  intro b key h
  unfold cipher invCipher
  constructor
  · rw [decRounds_encRounds _ _ _ (length_addRoundKey ..), addRoundKey_addRoundKey _ _ h]
  · rw [addRoundKey_addRoundKey _ _ (length_decRounds _ _ _ h), encRounds_decRounds _ _ _ h]

/-! ### The words of the key schedule (42_aes_block.md R168, R171) -/

/-- More words leave the words so far. -/
theorem getD_scheduleMore (nk n : Nat) (ws : List KeyWord) {i : Nat} (h : i < ws.length) :
    (scheduleMore nk n ws).getD i zeroWord = ws.getD i zeroWord := by
  induction n generalizing ws with
  | zero => rfl
  | succ n ih =>
    rw [scheduleMore, ih _ (by rw [length_scheduleNext]; omega), scheduleNext, List.getD_append _ _ _ _ h]

theorem getD_scheduleNext (nk : Nat) (ws : List KeyWord) :
    (scheduleNext nk ws).getD ws.length zeroWord =
      xorWord (scheduleCore nk ws.length (ws.getD (ws.length - 1) zeroWord)) (ws.getD (ws.length - nk) zeroWord) := by
  rw [scheduleNext, List.getD_append_right _ _ _ _ le_rfl, Nat.sub_self]
  rfl

/-- Every word that was added is made of the word before it and the word `Nk` before it. -/
theorem getD_scheduleMore_next {nk : Nat} (hk : 0 < nk) (n : Nat) (ws : List KeyWord) (hw : nk ≤ ws.length) {i : Nat}
    (h1 : ws.length ≤ i) (h2 : i < ws.length + n) :
    (scheduleMore nk n ws).getD i zeroWord =
      xorWord (scheduleCore nk i ((scheduleMore nk n ws).getD (i - 1) zeroWord))
        ((scheduleMore nk n ws).getD (i - nk) zeroWord) := by
  induction n generalizing ws with
  | zero => omega
  | succ n ih =>
    have hlen := length_scheduleNext nk ws
    obtain rfl | hlt := h1.eq_or_lt
    · have hnew : (scheduleMore nk (n + 1) ws).getD ws.length zeroWord =
          (scheduleNext nk ws).getD ws.length zeroWord :=
        getD_scheduleMore nk n _ (by omega)
      rw [hnew, getD_scheduleNext, getD_scheduleMore _ _ _ (by omega), getD_scheduleMore _ _ _ (by omega)]
    · exact ih (scheduleNext nk ws) (by omega) (by omega) (by omega)

/-- Word `i` of the key schedule. -/
def scheduleWord (key : Buffer) (i : Nat) : KeyWord := (scheduleWords key).getD i zeroWord

section Schedule

variable {key : Buffer} {i : Nat}

theorem scheduleWord_raw (h : i < key.length / 4) : scheduleWord key i = rawKeyWord key i := by
  rw [scheduleWord, scheduleWords, getD_scheduleMore _ _ _ (by simpa using h)]
  simp [List.getD_eq_getElem?_getD, h]

theorem scheduleWord_next (hk : 4 ≤ key.length) (h1 : key.length / 4 ≤ i) (h2 : i < 4 * (key.length / 4 + 7)) :
    scheduleWord key i = xorWord (scheduleCore (key.length / 4) i (scheduleWord key (i - 1)))
      (scheduleWord key (i - key.length / 4)) :=
  getD_scheduleMore_next (by omega) _ _ (by simp) (by simpa using h1) (by simp; omega)

end Schedule

/-- A round constant is the stated one for every index that is used. -/
theorem rcon_eq : ∀ j < 10, rcon j = rconList.getD j 0 := by decide

/-- Ten round constants suffice (42_aes_block.md R171). -/
theorem rcon_index_lt {nk i : Nat} (hk : 4 ≤ nk) (h : i < 4 * (nk + 7)) : i / nk - 1 < 10 := by
  have hdiv : i / nk < 11 := (Nat.div_lt_iff_lt_mul (by omega)).2 (by omega)
  omega

theorem keyWordBytes_xorWord (t u : KeyWord) :
    keyWordBytes (xorWord t u) = List.zipWith (· ^^^ ·) (keyWordBytes t) (keyWordBytes u) := rfl

theorem keyWordBytes_scheduleCore {nk i : Nat} (h : i / nk - 1 < 10) (t : KeyWord) :
    keyWordBytes (scheduleCore nk i t) = scheduleT nk i (keyWordBytes t) := by
  unfold scheduleCore scheduleT
  rw [rcon_eq _ h]
  split_ifs <;> rfl

/-- Byte `c` of word `j` among the bytes of the words in order. -/
theorem byteAt_flatMap_keyWordBytes (ws : List KeyWord) (j : Nat) {c : Nat} (hc : c < 4) :
    byteAt (ws.flatMap keyWordBytes) (4 * j + c) = byteAt (keyWordBytes (ws.getD j zeroWord)) c := by
  induction ws generalizing j with
  | nil => interval_cases c <;> rfl
  | cons w ws ih =>
    have hlen : (keyWordBytes w).length = 4 := rfl
    rw [List.flatMap_cons]
    cases j with
    | zero => rw [byteAt_append_left (by omega), Nat.mul_zero, Nat.zero_add]; rfl
    | succ j => rw [byteAt_append_right (by omega), hlen, show 4 * (j + 1) + c - 4 = 4 * j + c by omega, ih]; rfl

/-! ### AES_KEYEXP (42_aes_block.md R170, R174) -/

theorem withKey_valid {s : State} (h : ValidKeyLength s) (k : Buffer → Result) : withKey s k = k s.keyBytes :=
  withKey_ok (State.keyLengthOk_iff.2 h) k

theorem withKey_invalid {s : State} (h : ¬ ValidKeyLength s) (k : Buffer → Result) :
    withKey s k = .next (faulted s 0x02) :=
  withKey_bad (Bool.eq_false_iff.2 fun hk => h (State.keyLengthOk_iff.1 hk)) k

/-- A buffer word whose four bytes are those of `w`. -/
theorem word_eq_keyWordBytes {f : Nat → Byte} {j : Nat} {w : KeyWord}
    (h : ∀ c < 4, f (4 * j + c) = byteAt (keyWordBytes w) c) :
    [f (4 * j), f (4 * j + 1), f (4 * j + 2), f (4 * j + 3)] = keyWordBytes w := by
  rw [h 1 (by decide), h 2 (by decide), h 3 (by decide), ← Nat.add_zero (4 * j), h 0 (by decide)]
  rfl

theorem outWord_keyExpansion (s : State) {key : Buffer} {j : Nat} (h : j < 4 * (key.length / 4 + 7)) :
    outWord (s.putOut (keyExpansion key)).complete j = keyWordBytes (scheduleWord key j) :=
  word_eq_keyWordBytes fun c hc =>
    (s.putOut_obuf_inside _ (by rw [length_keyExpansion]; omega)).trans (byteAt_flatMap_keyWordBytes _ j hc)

theorem keyWordBytes_rawKeyWord_keyBytes (s : State) {i : Nat} (h : i < s.klen.toNat / 4) :
    keyWordBytes (rawKeyWord s.keyBytes i) =
      [s.key (4 * i), s.key (4 * i + 1), s.key (4 * i + 2), s.key (4 * i + 3)] := by
  refine (word_eq_keyWordBytes fun c hc => ?_).symm
  rw [← s.getD_keyBytes (by omega) 0]
  interval_cases c <;> rfl

/-- Settles O44: the output's words are the schedule's, and the schedule's are the key's and then the recurrence's. -/
theorem keyexpWritesTheSchedule : Obligations.KeyexpWritesTheSchedule := by
  have exec_eq (s : State) : exec .aesKeyexp s = withKey s fun key => finish (s.putOut (keyExpansion key)) := rfl
  refine ⟨rfl, fun s hp => ⟨fun hk => (exec_eq s).trans (withKey_invalid hk _), fun hk => ?_⟩⟩
  have ⟨_, hmin, hmax⟩ := hk
  obtain ⟨-, ⟨-, -, hkey⟩, -⟩ := hp
  have hlen := length_keyExpansion s.keyBytes
  have hword {j : Nat} := outWord_keyExpansion s (key := s.keyBytes) (j := j)
  have hraw {i : Nat} := scheduleWord_raw (key := s.keyBytes) (i := i)
  have hnext {i : Nat} := scheduleWord_next (key := s.keyBytes) (i := i)
  rw [s.length_keyBytes] at hlen hword hraw hnext
  refine ⟨(s.putOut (keyExpansion s.keyBytes)).complete, ⟨(exec_eq s).trans (withKey_valid hk _), rfl, rfl⟩, ?_,
    fun i hi => ?_, fun i h1 h2 => ?_, s.putOut_complete_frame _ (by omega)⟩
  · exact (s.putOut_olen_toNat _ (by omega)).trans hlen
  · rw [hword (by omega), hraw hi, keyWordBytes_rawKeyWord_keyBytes s hi]
  · rw [hword h2, hword (by omega), hword (by omega), hnext (by omega) h1 h2, keyWordBytes_xorWord,
      keyWordBytes_scheduleCore (rcon_index_lt (by omega) h2)]

/-! ### AES_ENC_BLK and AES_DEC_BLK (42_aes_block.md R175, R176) -/

theorem bufferOf_congr {f g : Nat → Byte} {n : Nat} (h : ∀ k < n, f k = g k) : bufferOf f n = bufferOf g n :=
  List.map_congr_left fun k hk => h k (List.mem_range.1 hk)

theorem Memory.readBytes_eq_bufferOf (m : Memory) (base n : Nat) :
    m.readBytes base n = bufferOf (fun k => m.read (base + k)) n := by
  refine List.ext_getElem (by simp [bufferOf]) fun k h1 h2 => ?_
  simp [bufferOf, Memory.getElem_readBytes]

theorem State.input_eq_bufferOf (s : State) : s.input = bufferOf s.ibuf s.ilen.toNat :=
  Memory.readBytes_eq_bufferOf ..

theorem State.keyBytes_eq_bufferOf (s : State) : s.keyBytes = bufferOf s.key s.klen.toNat :=
  Memory.readBytes_eq_bufferOf ..

/-- `i` is the single-block command of the block function `f`. -/
abbrev BlockCommand (i : Instr) (f : Buffer → Buffer → Buffer) : Prop :=
  i = .aesEncBlk ∧ f = cipher ∨ i = .aesDecBlk ∧ f = invCipher

section BlockCommand

variable {i : Instr} {f : Buffer → Buffer → Buffer} (hf : BlockCommand i f)
include hf

theorem BlockCommand.exec_eq (s : State) : exec i s = singleBlock s f := by
  obtain ⟨rfl, rfl⟩ | ⟨rfl, rfl⟩ := hf <;> rfl

theorem BlockCommand.length (b key : Buffer) : (f b key).length = 16 := by
  obtain ⟨-, rfl⟩ | ⟨-, rfl⟩ := hf
  · exact length_cipher b key
  · exact length_invCipher b key

variable {s : State}

theorem BlockCommand.exec_range (h : s.params.bufMax < s.ilen.toNat) : FaultsWith i s 0x11 :=
  (hf.exec_eq s).trans (withInput_range h _)

theorem BlockCommand.exec_length (hr : s.ilen.toNat ≤ s.params.bufMax) (hl : s.ilen.toNat ≠ 16) :
    FaultsWith i s 0x05 :=
  (hf.exec_eq s).trans ((withInput_ok hr _).trans (if_pos hl))

/-- With a whole block the key check alone is left (60_exceptions.md R289). -/
theorem BlockCommand.exec_block (hp : s.params.Valid) (hl : s.ilen.toNat = 16) :
    exec i s = withKey s fun key => finish (s.putOut (f s.input key)) := by
  obtain ⟨-, -, -, -, hbuf, -⟩ := hp
  exact (hf.exec_eq s).trans ((withInput_ok (by omega) _).trans (if_neg (not_not.2 hl)))

end BlockCommand

/-- Settles O45: the checks in their order, and then the block function of the input and the key. -/
theorem singleBlockCommands : Obligations.SingleBlockCommands := by
  refine ⟨rfl, rfl, fun s i f (hf : BlockCommand i f) hp => ⟨hf.exec_range, hf.exec_length, fun hl hk => ?_,
    fun hl hk => ?_⟩⟩
  · exact (hf.exec_block hp hl).trans (withKey_invalid hk _)
  · have hexec := (hf.exec_block hp hl).trans (withKey_valid hk _)
    rw [s.input_eq_bufferOf, hl, s.keyBytes_eq_bufferOf] at hexec
    have hlen := hf.length (bufferOf s.ibuf 16) (bufferOf s.key s.klen.toNat)
    refine ⟨_, ⟨hexec, rfl, rfl⟩, ?_, fun k hk => ?_, s.putOut_complete_frame _ (by omega)⟩
    · exact (s.putOut_olen_toNat _ (by omega)).trans hlen
    · exact s.putOut_obuf_inside _ (by omega)

/-! ### What a single-block command depends on (42_aes_block.md R175, R176, 10_state.md R34) -/

/-- Two engine steps answered alike: with the same fault, or with the same block of output. -/
def SameAnswer (t t' : State) : Prop :=
  t'.done = t.done ∧ (t.done = false → t'.errCode = t.errCode) ∧
    (t.done = true → t'.olen = t.olen ∧ ∀ k < 16, t'.obuf k = t.obuf k)

theorem sameAnswer_faulted (s s' : State) (c : Byte) : SameAnswer (faulted s c) (faulted s' c) :=
  ⟨rfl, fun _ => rfl, nofun⟩

theorem sameAnswer_of_done {t t' : State} (hd : t.done = true) (hd' : t'.done = true)
    (ho : t'.olen.toNat = t.olen.toNat) (hb : ∀ k < 16, t'.obuf k = t.obuf k) : SameAnswer t t' :=
  ⟨hd'.trans hd.symm, fun h => by simp [hd] at h, fun _ => ⟨BitVec.eq_of_toNat_eq ho, hb⟩⟩

/-- The operands of a single-block command are equal in two states. -/
structure SameBlockOperands (s s' : State) : Prop where
  params : s'.params = s.params
  ilen : s'.ilen = s.ilen
  klen : s'.klen = s.klen
  key : ∀ k < s.klen.toNat, s'.key k = s.key k
  ibuf : ∀ k < 16, s'.ibuf k = s.ibuf k

theorem SameBlockOperands.validKeyLength_iff {s s' : State} (h : SameBlockOperands s s') :
    ValidKeyLength s' ↔ ValidKeyLength s := by
  unfold ValidKeyLength
  rw [h.params, h.klen]

/-- Equal operands lead to the same answer, case by case of `singleBlockCommands`. -/
theorem SameBlockOperands.sameAnswer {s s' : State} (h : SameBlockOperands s s') {i : Instr}
    {f : Buffer → Buffer → Buffer} (hf : BlockCommand i f) (hp : s.params.Valid) :
    ∃ t t', exec i s = .next t ∧ exec i s' = .next t' ∧ SameAnswer t t' := by
  obtain ⟨-, -, hspec⟩ := singleBlockCommands
  obtain ⟨hrange, hlength, hbadkey, hok⟩ := hspec s i f hf hp
  obtain ⟨hrange', hlength', hbadkey', hok'⟩ := hspec s' i f hf (h.params ▸ hp)
  rw [h.params, h.ilen] at hrange' hlength'
  rw [h.ilen, h.validKeyLength_iff] at hbadkey' hok'
  by_cases hr : s.params.bufMax < s.ilen.toNat
  · exact ⟨_, _, hrange hr, hrange' hr, sameAnswer_faulted ..⟩
  by_cases hl : s.ilen.toNat = 16
  · by_cases hk : ValidKeyLength s
    · obtain ⟨t, ⟨ht, -, hdone⟩, holen, hobuf, -⟩ := hok hl hk
      obtain ⟨t', ⟨ht', -, hdone'⟩, holen', hobuf', -⟩ := hok' hl hk
      rw [h.klen, bufferOf_congr h.key, bufferOf_congr h.ibuf] at hobuf'
      exact ⟨t, t', ht, ht', sameAnswer_of_done hdone hdone' (holen'.trans holen.symm) fun k hk =>
        (hobuf' k hk).trans (hobuf k hk).symm⟩
    · exact ⟨_, _, hbadkey hl hk, hbadkey' hl hk, sameAnswer_faulted ..⟩
  · exact ⟨_, _, hlength (by omega) hl, hlength' (by omega) hl, sameAnswer_faulted ..⟩

/-- Settles O50: the two states agree on the operands, and an engine step has one answer. -/
theorem singleBlockDependsOnKeyAndBlock : Obligations.SingleBlockDependsOnKeyAndBlock := by
  intro i s s' t t' hi hp hparams hilen hklen hkey hibuf ht ht'
  obtain ⟨f, hf⟩ : ∃ f, BlockCommand i f := by
    obtain rfl | rfl := hi
    · exact ⟨cipher, .inl ⟨rfl, rfl⟩⟩
    · exact ⟨invCipher, .inr ⟨rfl, rfl⟩⟩
  obtain ⟨u, u', hu, hu', hsame⟩ := SameBlockOperands.sameAnswer ⟨hparams, hilen, hklen, hkey, hibuf⟩ hf hp
  obtain rfl := Host.Outcome.next.inj (ht.symm.trans hu)
  obtain rfl := Host.Outcome.next.inj (ht'.symm.trans hu')
  exact hsame

end Sys2Proof.Machine

/-! The CBC commands of 43_cbc.md: their checks and outputs (R200 to R203), that decryption undoes encryption (R205),
and how far a changed ciphertext block reaches (R206). -/

namespace Sys2Proof.Machine

/-! ### What a CBC command answers (43_cbc.md R202, R203) -/

theorem Completes.not_faultsWith {i : Instr} {s t : State} (h : Completes i s t) (c : Byte) : ¬ FaultsWith i s c := by
  intro hc
  obtain ⟨hexec, -, hdone⟩ := h
  obtain rfl := Host.Outcome.next.inj (hexec.symm.trans hc)
  exact Bool.false_ne_true hdone

theorem Completes.unique {i : Instr} {s t t' : State} (h : Completes i s t) (h' : Completes i s t') : t = t' :=
  Host.Outcome.next.inj (h.1.symm.trans h'.1)

/-- `i` is the CBC command that computes `f`. -/
abbrev CbcCommand (i : Instr) (f : Buffer → Buffer → Buffer → Buffer) : Prop :=
  i = .cbcEnc ∧ f = cbcEncrypt ∨ i = .cbcDec ∧ f = cbcDecrypt

/-- The input and the key pass the checks of the CBC commands. -/
structure CbcOperands (s : State) : Prop where
  range : s.ilen.toNat ≤ s.params.bufMax
  nonempty : s.ilen.toNat ≠ 0
  blocks : s.ilen.toNat % 16 = 0
  key : ValidKeyLength s

section CbcCommand

variable {i : Instr} {f : Buffer → Buffer → Buffer → Buffer} (hf : CbcCommand i f) {s t : State}
include hf

theorem CbcCommand.exec_eq (s : State) : exec i s = cbcCommand s f := by
  obtain ⟨rfl, rfl⟩ | ⟨rfl, rfl⟩ := hf <;> rfl

/-- The output is as many whole blocks as the input. -/
theorem CbcCommand.length (b key iv : Buffer) : (f b key iv).length = 16 * (b.length / 16) := by
  obtain ⟨-, rfl⟩ | ⟨-, rfl⟩ := hf
  · exact length_cbcEncrypt b key iv
  · exact length_cbcDecrypt b key iv

theorem CbcCommand.exec_range (h : s.params.bufMax < s.ilen.toNat) : FaultsWith i s 0x11 :=
  (hf.exec_eq s).trans (withInput_range h _)

theorem CbcCommand.exec_length (hr : s.ilen.toNat ≤ s.params.bufMax)
    (hl : s.ilen.toNat = 0 ∨ s.ilen.toNat % 16 ≠ 0) : FaultsWith i s 0x05 :=
  (hf.exec_eq s).trans ((withInput_ok hr _).trans (if_pos hl))

/-- With whole blocks the key check alone is left (60_exceptions.md R289). -/
theorem CbcCommand.exec_blocks (hr : s.ilen.toNat ≤ s.params.bufMax) (h0 : s.ilen.toNat ≠ 0)
    (h16 : s.ilen.toNat % 16 = 0) :
    exec i s = withKey s fun key => finish (s.putOut (f s.input key s.ivBytes)) :=
  (hf.exec_eq s).trans ((withInput_ok hr _).trans (if_neg (not_or.2 ⟨h0, not_not.2 h16⟩)))

theorem CbcCommand.exec_badKey (hr : s.ilen.toNat ≤ s.params.bufMax) (h0 : s.ilen.toNat ≠ 0)
    (h16 : s.ilen.toNat % 16 = 0) (hk : ¬ ValidKeyLength s) : FaultsWith i s 0x02 :=
  (hf.exec_blocks hr h0 h16).trans (withKey_invalid hk _)

/-- Past the checks the command writes `f` of the input, the key and the IV, and nothing else. -/
theorem CbcCommand.completes (h : CbcOperands s) : ∃ t, Completes i s t ∧ t.olen = s.ilen ∧
    (∀ k < s.ilen.toNat, t.obuf k = byteAt (f s.input s.keyBytes s.ivBytes) k) ∧ OutputFrame s t := by
  obtain ⟨hr, h0, h16, hk⟩ := h
  have hlen := hf.length s.input s.keyBytes s.ivBytes
  rw [s.length_input, Nat.mul_div_cancel' (Nat.dvd_of_mod_eq_zero h16)] at hlen
  refine ⟨_, ⟨(hf.exec_blocks hr h0 h16).trans (withKey_valid hk _), rfl, rfl⟩, ?_, fun k hk => ?_,
    s.putOut_complete_frame _ (by omega)⟩
  · exact BitVec.eq_of_toNat_eq ((s.putOut_olen_toNat _ (by omega)).trans hlen)
  · exact s.putOut_obuf_inside _ (by omega)

/-- Only operands that pass the checks lead to completion. -/
theorem CbcCommand.operands_of_completes (h : Completes i s t) : CbcOperands s := by
  have hr := le_of_not_gt fun hr => h.not_faultsWith _ (hf.exec_range hr)
  obtain ⟨h0, h16⟩ := not_or.1 fun hl => h.not_faultsWith _ (hf.exec_length hr hl)
  have h16 := not_not.1 h16
  exact ⟨hr, h0, h16, not_not.1 fun hk => h.not_faultsWith _ (hf.exec_badKey hr h0 h16 hk)⟩

end CbcCommand

/-! ### The bytes of the output (43_cbc.md R200, R201) -/

theorem State.byteAt_input (s : State) {k : Nat} (h : k < s.ilen.toNat) : byteAt s.input k = s.ibuf k :=
  s.getD_input h 0

theorem State.byteAt_ivBytes (s : State) {k : Nat} (h : k < 16) : byteAt s.ivBytes k = s.iv k :=
  Memory.getD_readBytes _ _ _ _ _ h

/-- Settles O46: the checks in their order, and then CBC encryption byte by byte. -/
theorem cbcEncChainsBlocks : Obligations.CbcEncChainsBlocks := by
  have hf : CbcCommand .cbcEnc cbcEncrypt := .inl ⟨rfl, rfl⟩
  refine ⟨rfl, fun s _ => ⟨hf.exec_range, hf.exec_length, hf.exec_badKey, fun hr h0 h16 hk => ?_⟩⟩
  obtain ⟨t, hc, holen, hobuf, hframe⟩ := hf.completes ⟨hr, h0, h16, hk⟩
  refine ⟨t, hc, holen, fun j hj i hi => ?_, hframe⟩
  rw [hobuf _ (by omega), cbcEncrypt, byteAt_cbcEncryptGo _ _ _ _ (by rwa [s.length_input]) hi,
    s.keyBytes_eq_bufferOf]
  refine congrArg (fun b => byteAt (cipher b _) i) (blockOf_congr fun k hk => ?_)
  rw [s.byteAt_input (by omega), s.byteAt_ivBytes hk]
  split_ifs with hj0
  · rfl
  · rw [hobuf _ (by omega), cbcEncrypt, s.keyBytes_eq_bufferOf]

/-- Block `j` of the input buffer. -/
def State.inBlock (s : State) (j : Nat) : Buffer := bufferOf (fun k => s.ibuf (16 * j + k)) 16

/-- Byte `i` of what the received ciphertext puts in front of block `j`: the block before it, the IV for the first
(43_cbc.md R201). -/
def State.chainByte (s : State) (j i : Nat) : Byte := if j = 0 then s.iv i else s.ibuf (16 * (j - 1) + i)

@[simp] theorem State.length_inBlock (s : State) (j : Nat) : (s.inBlock j).length = 16 := by
  simp [State.inBlock, bufferOf]

theorem State.byteAt_inBlock (s : State) (j : Nat) {i : Nat} (hi : i < 16) :
    byteAt (s.inBlock j) i = s.ibuf (16 * j + i) := byteAt_blockOf _ hi

theorem State.take_drop_input (s : State) {j : Nat} (h : 16 * j + 16 ≤ s.ilen.toNat) :
    (s.input.drop (16 * j)).take 16 = s.inBlock j :=
  block_ext (by simp; omega) (by simp) fun i hi => by
    rw [byteAt_take hi, byteAt_drop, s.byteAt_input (by omega), s.byteAt_inBlock j hi]

/-- Settles O47: the checks in their order, and then CBC decryption byte by byte. -/
theorem cbcDecChainsBlocks : Obligations.CbcDecChainsBlocks := by
  have hf : CbcCommand .cbcDec cbcDecrypt := .inr ⟨rfl, rfl⟩
  refine ⟨rfl, fun s _ => ⟨hf.exec_range, hf.exec_length, hf.exec_badKey, fun hr h0 h16 hk => ?_⟩⟩
  obtain ⟨t, hc, holen, hobuf, hframe⟩ := hf.completes ⟨hr, h0, h16, hk⟩
  refine ⟨t, hc, holen, fun j hj i hi => ?_, hframe⟩
  rw [hobuf _ (by omega), cbcDecrypt, byteAt_cbcDecryptGo _ _ _ _ (by rwa [s.length_input]) hi,
    s.take_drop_input (by omega), s.byteAt_ivBytes hi, s.keyBytes_eq_bufferOf]
  split_ifs with hj0
  · rfl
  · rw [s.byteAt_input (by omega)]; rfl

/-! ### CBC_DEC undoes CBC_ENC (43_cbc.md R205) -/

/-- IBUF of `u` holds what CBC_ENC makes of the input of `s`, with the key of `s` and chained from the IV of `u`. -/
structure HoldsCiphertext (s u : State) : Prop where
  params : u.params = s.params
  operands : CbcOperands u
  ilen : u.ilen = s.ilen
  key : bufferOf u.key u.klen.toNat = bufferOf s.key s.klen.toNat
  block : ∀ j < s.ilen.toNat / 16, u.inBlock j =
    cipher (bufferOf (fun k => s.ibuf (16 * j + k) ^^^ u.chainByte j k) 16) (bufferOf s.key s.klen.toNat)

/-- XFER moves the ciphertext of CBC_ENC to IBUF; neither command writes KEY or IV. -/
theorem cbcEnc_xfer_holdsCiphertext {s : State} (hp : s.params.Valid) (hs : CbcOperands s) :
    ∃ t u, Completes .cbcEnc s t ∧ Completes .xfer t u ∧ HoldsCiphertext s u := by
  obtain ⟨hr, h0, h16, hkl⟩ := hs
  obtain ⟨-, hencrypts⟩ := cbcEncChainsBlocks
  obtain ⟨-, -, -, hencrypts⟩ := hencrypts s hp
  obtain ⟨t, hst, holen, hcipher, ⟨henv, hctl, -, hmem⟩⟩ := hencrypts hr h0 h16 hkl
  obtain ⟨-, hcopies⟩ := xferCopiesOutputToInput
  obtain ⟨u, htu, hilen, -, hibuf, hmem', -, -, -, -, -, hklen, -, henv'⟩ :=
    hcopies t (henv.params ▸ hp) (by rwa [holen, henv.params])
  rw [holen] at hilen hibuf
  have hparams : u.params = s.params := henv'.params.trans henv.params
  have hklen : u.klen = s.klen := hklen.trans hctl.klen
  have hbelow (a : Nat) (ha : a < ibufBase) : u.mem.read a = s.mem.read a :=
    (hmem' a (.inl ha)).trans (hmem a (.inl (ha.trans (by decide))))
  have hiv {k : Nat} (hk : k < 16) : u.iv k = s.iv k := hbelow _ (by unfold ivBase ibufBase; omega)
  have hkey (k : Nat) (hk : k < s.klen.toNat) : u.key k = s.key k := by
    obtain ⟨-, -, hmax⟩ := hkl
    exact hbelow _ (by unfold keyBase ibufBase; omega)
  refine ⟨t, u, hst, htu, hparams, ⟨by rwa [hilen, hparams], by rwa [hilen], by rwa [hilen], ?_⟩, hilen, ?_,
    fun j hj => ?_⟩
  · unfold ValidKeyLength; rwa [hklen, hparams]
  · rw [hklen]; exact bufferOf_congr hkey
  · refine block_ext (by simp) (by simp) fun i hi => ?_
    rw [u.byteAt_inBlock j hi, hibuf _ (by omega), hcipher j hj i hi]
    refine congrArg (fun b => byteAt (cipher b _) i) (bufferOf_congr fun k hk => ?_)
    unfold State.chainByte
    split_ifs with hj0
    · rw [hiv hk]
    · rw [hibuf _ (by omega)]

/-- The inverse cipher gives back the input XORed with the chain, and CBC_DEC takes the same chain off again. -/
theorem HoldsCiphertext.cbcDec {s u : State} (hp : s.params.Valid) (h : HoldsCiphertext s u) :
    ∃ v, Completes .cbcDec u v ∧ v.olen = s.ilen ∧ ∀ k < s.ilen.toNat, v.obuf k = s.ibuf k := by
  obtain ⟨hparams, ⟨hr, h0, h16, hkl⟩, hilen, hkey, hblock⟩ := h
  obtain ⟨-, hdecrypts⟩ := cbcDecChainsBlocks
  obtain ⟨-, -, -, hdecrypts⟩ := hdecrypts u (hparams ▸ hp)
  obtain ⟨v, huv, holen, hplain, -⟩ := hdecrypts hr h0 h16 hkl
  rw [hilen] at holen hplain h16
  refine ⟨v, huv, holen, fun k hk => ?_⟩
  have hdec (j : Nat) (hj : j < s.ilen.toNat / 16) (i : Nat) (hi : i < 16) :
      v.obuf (16 * j + i) = s.ibuf (16 * j + i) :=
    calc v.obuf (16 * j + i)
      _ = byteAt (invCipher (u.inBlock j) (bufferOf s.key s.klen.toNat)) i ^^^ u.chainByte j i := by
        rw [← hkey]; exact hplain j hj i hi
      _ = (s.ibuf (16 * j + i) ^^^ u.chainByte j i) ^^^ u.chainByte j i := by
        rw [hblock j hj, (inverseCipherUndoesTheCipher _ _ (by simp [bufferOf])).1]
        exact congrArg (· ^^^ _) (byteAt_blockOf _ hi)
      _ = s.ibuf (16 * j + i) := by rw [BitVec.xor_assoc, BitVec.xor_self, BitVec.xor_zero]
  rw [← Nat.div_add_mod k 16]
  exact hdec _ (by omega) _ (by omega)

/-- Settles O48: XFER moves the ciphertext to IBUF, where CBC_DEC undoes CBC_ENC. -/
theorem cbcRoundTrip : Obligations.CbcRoundTrip := by
  intro s hp hk hr h0 h16
  obtain ⟨t, u, hst, htu, hu⟩ := cbcEnc_xfer_holdsCiphertext hp ⟨hr, h0, h16, hk⟩
  obtain ⟨v, huv, holen, hobuf⟩ := hu.cbcDec hp
  exact ⟨t, u, v, hst, htu, huv, holen, hobuf⟩

/-! ### How far a changed ciphertext block reaches (43_cbc.md R206) -/

/-- Where CBC_DEC completes, each output byte is the inverse cipher's XORed with the chain's (43_cbc.md R201). -/
theorem cbcDec_obuf {s t : State} (hp : s.params.Valid) (h : Completes .cbcDec s t) {k : Nat} (hk : k < s.ilen.toNat) :
    t.obuf k = byteAt (invCipher (s.inBlock (k / 16)) (bufferOf s.key s.klen.toNat)) (k % 16) ^^^
      s.chainByte (k / 16) (k % 16) := by
  obtain ⟨hr, h0, h16, hkl⟩ := CbcCommand.operands_of_completes (.inr ⟨rfl, rfl⟩) h
  obtain ⟨-, hdecrypts⟩ := cbcDecChainsBlocks
  obtain ⟨-, -, -, hdecrypts⟩ := hdecrypts s hp
  obtain ⟨u, hu, -, hobuf, -⟩ := hdecrypts hr h0 h16 hkl
  obtain rfl := h.unique hu
  conv_lhs => rw [← Nat.div_add_mod k 16]
  exact hobuf _ (by omega) _ (by omega)

theorem State.chainByte_of_le (s : State) {k : Nat} (h : 16 ≤ k) :
    s.chainByte (k / 16) (k % 16) = s.ibuf (k - 16) := by
  rw [State.chainByte, if_neg (by omega), show 16 * (k / 16 - 1) + k % 16 = k - 16 by omega]

/-- The inverse cipher loses no bit of a block (42_aes_block.md R173). -/
theorem invCipher_inj {b b' key : Buffer} (hb : b.length = 16) (hb' : b'.length = 16)
    (h : invCipher b key = invCipher b' key) : b = b' := by
  rw [← (inverseCipherUndoesTheCipher b key hb).2, h, (inverseCipherUndoesTheCipher b' key hb').2]

/-- The operands of CBC_DEC are equal in two states, but for block `j` of the ciphertext. -/
structure SameButBlock (j : Nat) (s s' : State) : Prop where
  params : s'.params = s.params
  ilen : s'.ilen = s.ilen
  klen : s'.klen = s.klen
  key : ∀ k < s.klen.toNat, s'.key k = s.key k
  iv : ∀ k < 16, s'.iv k = s.iv k
  ibuf : ∀ k < s.ilen.toNat, k / 16 ≠ j → s'.ibuf k = s.ibuf k

section SameButBlock

variable {j : Nat} {s s' t t' : State} (h : SameButBlock j s s')
include h

theorem SameButBlock.keyBuffer : bufferOf s'.key s'.klen.toNat = bufferOf s.key s.klen.toNat := by
  rw [h.klen, bufferOf_congr h.key]

theorem SameButBlock.inBlock {b : Nat} (hb : 16 * b + 16 ≤ s.ilen.toNat) (hj : b ≠ j) :
    s'.inBlock b = s.inBlock b :=
  bufferOf_congr fun k hk => h.ibuf _ (by omega) (by omega)

theorem SameButBlock.chainByte {b i : Nat} (hb : 16 * b ≤ s.ilen.toNat) (hi : i < 16) (hj : b ≠ j + 1) :
    s'.chainByte b i = s.chainByte b i := by
  unfold State.chainByte
  split_ifs with hb0
  · exact h.iv i hi
  · exact h.ibuf _ (by omega) (by omega)

variable (hp : s.params.Valid)
include hp

theorem SameButBlock.changed_obuf (hst' : Completes .cbcDec s' t') {k : Nat} (hk : k < s.ilen.toNat) :
    t'.obuf k = byteAt (invCipher (s'.inBlock (k / 16)) (bufferOf s.key s.klen.toNat)) (k % 16) ^^^
      s'.chainByte (k / 16) (k % 16) := by
  rw [cbcDec_obuf (h.params ▸ hp) hst' (by rwa [h.ilen]), h.keyBuffer]

/-- Block `j` of both plaintexts is XORed with the same chain bytes, so that equal plaintext blocks come from equal
ciphertext blocks. -/
theorem SameButBlock.inBlock_eq_of_obuf (hst : Completes .cbcDec s t) (hst' : Completes .cbcDec s' t')
    (hj : 16 * j + 16 ≤ s.ilen.toNat) (hsame : ∀ i < 16, t'.obuf (16 * j + i) = t.obuf (16 * j + i)) :
    s'.inBlock j = s.inBlock j := by
  refine invCipher_inj (key := bufferOf s.key s.klen.toNat) (by simp) (by simp)
    (block_ext (by simp) (by simp) fun i hi => ?_)
  have hbyte := hsame i hi
  rwa [h.changed_obuf hp hst' (by omega), cbcDec_obuf hp hst (by omega), show (16 * j + i) / 16 = j by omega,
    show (16 * j + i) % 16 = i by omega, h.chainByte (by omega) hi (by omega), BitVec.xor_left_inj] at hbyte

end SameButBlock

/-- Settles O49: block `j` of the ciphertext reaches block `j` of the plaintext through the inverse cipher, and block
`j + 1` through the chain alone. -/
theorem cbcDecErrorPropagation : Obligations.CbcDecErrorPropagation := by
  intro s s' t t' j hp hparams hilen hklen hkey hiv hibuf hst hst'
  have h : SameButBlock j s s' := ⟨hparams, hilen, hklen, hkey, hiv, hibuf⟩
  have h16 := (CbcCommand.operands_of_completes (.inr ⟨rfl, rfl⟩) hst).blocks
  refine ⟨fun k hk hj hj1 => ?_, fun k hk hj1 => ?_, fun ⟨k, hk, hne⟩ => ?_⟩
  · rw [h.changed_obuf hp hst' hk, cbcDec_obuf hp hst hk, h.inBlock (by omega) hj,
      h.chainByte (by omega) (by omega) hj1]
  · rw [h.changed_obuf hp hst' hk, cbcDec_obuf hp hst hk, h.inBlock (by omega) (by omega),
      s.chainByte_of_le (by omega), s'.chainByte_of_le (by omega), BitVec.xor_assoc, ← BitVec.xor_assoc (s.ibuf _),
      BitVec.xor_self, BitVec.zero_xor]
  · have hkj : k / 16 = j := not_not.1 fun hkj => hne (h.ibuf k hk hkj)
    by_contra! hsame
    have hblock := congrArg (byteAt · (k % 16)) (h.inBlock_eq_of_obuf hp hst hst' (by omega) fun i hi =>
      hsame (16 * j + i) (by omega) (by omega))
    rw [s'.byteAt_inBlock j (by omega), s.byteAt_inBlock j (by omega), show 16 * j + k % 16 = k by omega] at hblock
    exact hne hblock

end Sys2Proof.Machine

/-! The PKCS7 commands of 44_pkcs7.md: their common checks (R222), what padding, checking and stripping do to the input
(R215 to R220), and that stripping undoes padding (R221). -/

namespace Sys2Proof.Machine

/-! ### The operands of the PKCS7 commands (44_pkcs7.md R222) -/

/-- The input buffer and the block size, with their checks in the order the three commands share. -/
def withPadOperands (s : State) (k : Buffer → Nat → Result) : Result := withInput s fun b => withBlockSize s (k b)

section PadOperands

variable {s : State} (k : Buffer → Nat → Result)

theorem withPadOperands_range (h : s.params.bufMax < s.ilen.toNat) : withPadOperands s k = .next (faulted s 0x11) :=
  withInput_range h _

variable (hr : s.ilen.toNat ≤ s.params.bufMax)
include hr

theorem withPadOperands_zero (h : s.padbs = 0) : withPadOperands s k = .next (faulted s 0x18) :=
  (withInput_ok hr _).trans (withBlockSize_zero h _)

theorem withPadOperands_ok (h : s.padbs ≠ 0) : withPadOperands s k = k s.input s.padbs.toNat :=
  (withInput_ok hr _).trans (withBlockSize_ok h _)

end PadOperands

theorem exec_pkcs7Pad (s : State) : exec .pkcs7Pad s = withPadOperands s fun b bs =>
    if s.params.bufMax < s.ilen.toNat + padCount s.ilen.toNat bs then fails .outputOverflow s
    else finish (s.putOut (padBytes b bs)) := rfl

theorem exec_pkcs7Check (s : State) :
    exec .pkcs7Check s = withPadOperands s fun b bs => finish (s.setPinv (checkInvalid b bs)) := rfl

theorem exec_pkcs7Unpad (s : State) : exec .pkcs7Unpad s = withPadOperands s fun b bs =>
    if checkInvalid b bs then fails .invalidPadding s else finish (s.putOut (stripPad b)) := by
  refine congrArg (withPadOperands s) (funext fun b => funext fun bs => ?_)
  dsimp only [unpadBytes]
  cases checkInvalid b bs <;> rfl

/-- A command whose engine step writes the output `b` leaves `b` in OBUF and its length in OLEN, and nothing else
changed (10_state.md R37). -/
theorem completes_putOut {i : Instr} {s : State} {b : Buffer} (h : exec i s = .next (s.putOut b).complete)
    (hb : b.length < 2 ^ 32) : ∃ t, Completes i s t ∧ t.olen.toNat = b.length ∧
      (∀ k < b.length, t.obuf k = b.getD k 0) ∧ OutputFrame s t :=
  ⟨_, ⟨h, rfl, rfl⟩, s.putOut_olen_toNat b hb, fun _ => s.putOut_obuf_inside b, s.putOut_complete_frame b hb⟩

/-! ### PKCS7_PAD (44_pkcs7.md R215, R218) -/

theorem State.length_padBytes_input (s : State) (bs : Nat) :
    (padBytes s.input bs).length = s.ilen.toNat + padCount s.ilen.toNat bs := by
  rw [length_padBytes, s.length_input]

/-- The bytes in front of the padding. -/
theorem getD_padBytes_left (x : Buffer) (bs : Nat) {k : Nat} (h : k < x.length) :
    (padBytes x bs).getD k 0 = x.getD k 0 := List.getD_append _ _ _ _ h

theorem State.padbs_pos {s : State} (h : s.padbs ≠ 0) : 0 < s.padbs.toNat :=
  Nat.pos_of_ne_zero fun h0 => h (BitVec.eq_of_toNat_eq h0)

section Pad

variable {s : State} (hr : s.ilen.toNat ≤ s.params.bufMax) (hz : s.padbs ≠ 0)
include hr hz

theorem exec_pkcs7Pad_overflow (h : s.params.bufMax < s.ilen.toNat + padCount s.ilen.toNat s.padbs.toNat) :
    FaultsWith .pkcs7Pad s 0x12 :=
  (exec_pkcs7Pad s).trans ((withPadOperands_ok _ hr hz).trans (if_pos h))

theorem exec_pkcs7Pad_ok (h : s.ilen.toNat + padCount s.ilen.toNat s.padbs.toNat ≤ s.params.bufMax) :
    exec .pkcs7Pad s = .next (s.putOut (padBytes s.input s.padbs.toNat)).complete :=
  (exec_pkcs7Pad s).trans ((withPadOperands_ok _ hr hz).trans (if_neg h.not_gt))

end Pad

/-- Settles O51: the checks in their order, and then the padded input as the output. -/
theorem padAppendsThePadding : Obligations.PadAppendsThePadding := by
  refine ⟨rfl, fun s hp => ?_⟩
  obtain ⟨-, -, -, -, -, hbuf⟩ := hp
  split_ifs with hr hz hover
  · exact withPadOperands_range _ hr
  · exact withPadOperands_zero _ (not_lt.1 hr) hz
  · exact exec_pkcs7Pad_overflow (not_lt.1 hr) hz hover
  have hfits : s.ilen.toNat + padCount s.ilen.toNat s.padbs.toNat ≤ s.params.bufMax := not_lt.1 hover
  have hlen := s.length_padBytes_input s.padbs.toNat
  have hpos := State.padbs_pos hz
  obtain ⟨t, hst, holen, hobuf, hframe⟩ :=
    completes_putOut (exec_pkcs7Pad_ok (not_lt.1 hr) hz hfits) (by omega)
  rw [hlen] at holen hobuf
  refine ⟨t, hst, holen, fun k hk => ?_, fun k h1 h2 => ?_, ?_, ?_, hframe⟩
  · rw [hobuf k (by omega), getD_padBytes_left _ _ (by rwa [s.length_input]), s.getD_input hk]
  · rw [hobuf k (by omega), getD_padBytes _ _ (by rwa [s.length_input]) (by rw [s.length_input]; omega),
      s.length_input]
    exact Nat.mod_eq_of_lt ((padCount_le _ _).trans_lt s.padbs.isLt)
  · rw [holen, add_padCount_mod hpos]
  · rw [holen]; exact Nat.lt_add_of_pos_right (padCount_pos hpos)

/-! ### PKCS7_CHECK (44_pkcs7.md R216, R219) -/

theorem State.lastByte_input {s : State} (h : s.ilen.toNat ≠ 0) : lastByte s.input = s.ibuf (s.ilen.toNat - 1) := by
  rw [lastByte, s.length_input, s.getD_input (by omega)]

/-- The checks of R216 on the input buffer, byte by byte. -/
theorem State.checkInvalid_input (s : State) (bs : Nat) :
    checkInvalid s.input bs = true ↔ InvalidPadded s.ibuf s.ilen.toNat bs := by
  unfold checkInvalid InvalidPadded
  rw [s.length_input]
  split_ifs with h0 hmod hlast
  · exact iff_of_true rfl (.inl h0)
  · exact iff_of_true rfl (.inr (.inl hmod))
  · rw [State.lastByte_input h0] at hlast
    exact iff_of_true rfl (.inr (.inr (hlast.imp_right .inl)))
  · rw [State.lastByte_input h0] at hlast ⊢
    obtain ⟨hnonzero, hfits⟩ := not_or.1 hlast
    have hbyte (i : Nat) : s.input.getD (s.ilen.toNat - 1 - i) 0 = s.ibuf (s.ilen.toNat - 1 - i) :=
      s.getD_input (by omega) 0
    simp only [h0, hmod, hnonzero, hfits, hbyte, false_or, List.any_eq_true, List.mem_range, bne_iff_ne]

/-- Settles O52: the checks in their order, and then the buffer's validity in PINV. -/
theorem checkWritesPinv : Obligations.CheckWritesPinv := by
  refine ⟨rfl, fun s => ?_⟩
  split_ifs with hr hz
  · exact withPadOperands_range _ hr
  · exact withPadOperands_zero _ (not_lt.1 hr) hz
  · exact ⟨_, (exec_pkcs7Check s).trans (withPadOperands_ok _ (not_lt.1 hr) hz), s.checkInvalid_input _⟩

/-! ### PKCS7_UNPAD (44_pkcs7.md R217, R220) -/

section Unpad

variable {s : State} (hr : s.ilen.toNat ≤ s.params.bufMax) (hz : s.padbs ≠ 0)
include hr hz

theorem exec_pkcs7Unpad_invalid (h : checkInvalid s.input s.padbs.toNat = true) : FaultsWith .pkcs7Unpad s 0x01 :=
  (exec_pkcs7Unpad s).trans ((withPadOperands_ok _ hr hz).trans (if_pos h))

theorem exec_pkcs7Unpad_ok (h : checkInvalid s.input s.padbs.toNat = false) :
    exec .pkcs7Unpad s = .next (s.putOut (stripPad s.input)).complete :=
  (exec_pkcs7Unpad s).trans ((withPadOperands_ok _ hr hz).trans (if_neg (Bool.eq_false_iff.1 h)))

end Unpad

theorem length_stripPad (x : Buffer) : (stripPad x).length = x.length - (lastByte x).toNat := by
  rw [stripPad, List.length_take, Nat.min_eq_left (Nat.sub_le ..)]

theorem getD_stripPad (x : Buffer) {k : Nat} (h : k < (stripPad x).length) : (stripPad x).getD k 0 = x.getD k 0 := by
  rw [length_stripPad] at h
  rw [stripPad, List.getD_eq_getElem?_getD, List.getElem?_take_of_lt h, List.getD_eq_getElem?_getD]

/-- Settles O53: the checks in their order, and then the stripped input as the output. -/
theorem unpadStripsThePadding : Obligations.UnpadStripsThePadding := by
  refine ⟨rfl, fun s _ => ⟨withPadOperands_range _, withPadOperands_zero _, fun hr hz hinvalid => ?_,
    fun hr hz hvalid => ?_⟩⟩
  · exact exec_pkcs7Unpad_invalid hr hz ((s.checkInvalid_input _).2 hinvalid)
  have hcheck := Bool.eq_false_iff.2 ((s.checkInvalid_input _).not.2 hvalid)
  have hlen : (stripPad s.input).length = s.ilen.toNat - (s.ibuf (s.ilen.toNat - 1)).toNat := by
    rw [length_stripPad, s.length_input, State.lastByte_input fun h0 => hvalid (.inl h0)]
  have := s.ilen.isLt
  obtain ⟨t, hst, holen, hobuf, hframe⟩ := completes_putOut (exec_pkcs7Unpad_ok hr hz hcheck) (by omega)
  refine ⟨t, hst, holen.trans hlen, fun k hk => ?_, hframe⟩
  rw [holen] at hk
  rw [hobuf k hk, getD_stripPad _ hk, s.getD_input (by omega)]

/-! ### PKCS7_UNPAD undoes PKCS7_PAD (44_pkcs7.md R221) -/

/-- XFER makes a command's output the input of the next (40_control_and_transfer.md R114). -/
theorem xfer_putOut_input {s : State} {b : Buffer} (hp : s.params.Valid) (hb : b.length ≤ s.params.bufMax) :
    ∃ u, Completes .xfer (s.putOut b).complete u ∧ u.input = b ∧ u.params = s.params ∧ u.padbs = s.padbs := by
  have hlt : b.length < 2 ^ 32 := by obtain ⟨-, -, -, -, -, hbuf⟩ := hp; omega
  have holen : (s.putOut b).complete.olen.toNat = b.length := s.putOut_olen_toNat b hlt
  obtain ⟨-, hcopies⟩ := xferCopiesOutputToInput
  obtain ⟨u, hu, hilen, -, hibuf, -, -, -, -, -, -, -, hpadbs, henv⟩ :=
    hcopies (s.putOut b).complete hp (by rwa [holen])
  have hlen : u.input.length = b.length := by rw [u.length_input, hilen, holen]
  refine ⟨u, hu, List.ext_getElem hlen fun k hk hk' => ?_, henv.params, hpadbs⟩
  rw [← List.getD_eq_getElem _ 0, ← List.getD_eq_getElem _ 0, u.getD_input (by rwa [← u.length_input]),
    hibuf k (by rwa [holen])]
  exact s.putOut_obuf_inside b hk'

/-- Settles O54: XFER moves the padded input to IBUF, where it is valid and stripping gives the input back. -/
theorem pkcsRoundTrip : Obligations.PkcsRoundTrip := by
  intro s hp hz hsum
  have hpos := State.padbs_pos hz
  have hcount := padCount_le s.ilen.toNat s.padbs.toNat
  have hlen := s.length_padBytes_input s.padbs.toNat
  obtain ⟨u, htu, hinput, hparams, hpadbs⟩ := xfer_putOut_input (b := padBytes s.input s.padbs.toNat) hp (by omega)
  have hrange : u.ilen.toNat ≤ u.params.bufMax := by rw [← u.length_input, hinput, hparams]; omega
  have hvalid : checkInvalid u.input u.padbs.toNat = false := by
    rw [hinput, hpadbs]; exact checkInvalid_padBytes _ hpos s.padbs.isLt
  have hunpad := exec_pkcs7Unpad_ok hrange (hpadbs ▸ hz) hvalid
  rw [hinput, stripPad_padBytes _ hpos s.padbs.isLt] at hunpad
  obtain ⟨v, huv, holen, hobuf, -⟩ := completes_putOut hunpad (by rw [s.length_input]; exact s.ilen.isLt)
  rw [s.length_input] at holen hobuf
  refine ⟨_, u, v, ⟨exec_pkcs7Pad_ok (by omega) hz (by omega), rfl, rfl⟩, htu, huv, BitVec.eq_of_toNat_eq holen,
    fun k hk => ?_⟩
  rw [hobuf k hk, s.getD_input hk]

end Sys2Proof.Machine

/-! The hexadecimal commands of 45_hex_codec.md: the characters of a nibble (R235), what the encoder and the decoder do
to the input (R236 to R239), and that decoding undoes encoding (R240). -/

namespace Sys2Proof.Machine

/-! ### The sixteen characters (45_hex_codec.md R235) -/

theorem getD_hexDigits : ∀ v < 16, hexDigits.getD v 0 = hexChar v := by decide

theorem mem_hexDigits_iff {c : Byte} : c ∈ hexDigits ↔ ∃ v < 16, c = hexChar v := by
  rw [show hexDigits = (List.range 16).map hexChar by decide, List.mem_map]
  simp only [List.mem_range, eq_comm]

/-- A character that stands for a nibble is that nibble's. -/
theorem eq_hexChar_of_hexVal {c : Byte} {v : Nat} (h : hexVal c = some v) : v < 16 ∧ c = hexChar v := by
  unfold hexVal at h
  split_ifs at h with hdigit hletter <;> obtain rfl := Option.some.inj h
  · rw [hexChar, if_pos (by omega), Nat.add_sub_cancel' hdigit.1]
    exact ⟨by omega, by simp⟩
  · rw [hexChar, if_neg (by omega), Nat.add_sub_cancel, Nat.add_sub_cancel' hletter.1]
    exact ⟨by omega, by simp⟩

theorem hexVal_eq_some_iff {c : Byte} {v : Nat} : hexVal c = some v ↔ v < 16 ∧ c = hexChar v :=
  ⟨eq_hexChar_of_hexVal, fun ⟨hv, hc⟩ => hc ▸ hexVal_hexChar v hv⟩

theorem hexChar_inj {v w : Nat} (hv : v < 16) (hw : w < 16) (h : hexChar v = hexChar w) : v = w :=
  Option.some.inj ((hexVal_hexChar v hv).symm.trans (h ▸ hexVal_hexChar w hw))

theorem exists_hexVal_iff {c : Byte} : (∃ v, hexVal c = some v) ↔ c ∈ hexDigits := by
  simp only [hexVal_eq_some_iff, mem_hexDigits_iff]

/-! ### HEX_ENC (45_hex_codec.md R236, R238) -/

theorem State.length_hexEncode_input (s : State) : (hexEncode s.input).length = 2 * s.ilen.toNat := by
  rw [length_hexEncode, s.length_input]

theorem exec_hexEnc (s : State) : exec .hexEnc s = withInput s fun b =>
    if s.params.bufMax < 2 * s.ilen.toNat then fails .outputOverflow s else finish (s.putOut (hexEncode b)) := rfl

section Encode

variable {s : State} (hr : s.ilen.toNat ≤ s.params.bufMax)
include hr

theorem exec_hexEnc_overflow (h : s.params.bufMax < 2 * s.ilen.toNat) : FaultsWith .hexEnc s 0x12 :=
  (exec_hexEnc s).trans ((withInput_ok hr _).trans (if_pos h))

theorem exec_hexEnc_ok (h : 2 * s.ilen.toNat ≤ s.params.bufMax) :
    exec .hexEnc s = .next (s.putOut (hexEncode s.input)).complete :=
  (exec_hexEnc s).trans ((withInput_ok hr _).trans (if_neg h.not_gt))

end Encode

/-- Settles O55: the checks in their order, and then the text of the input as the output. -/
theorem hexEncWritesTwoCharactersAByte : Obligations.HexEncWritesTwoCharactersAByte := by
  refine ⟨rfl, fun s hp => ?_⟩
  obtain ⟨-, -, -, -, -, hbuf⟩ := hp
  split_ifs with hr hover
  · exact (exec_hexEnc s).trans (withInput_range hr _)
  · exact exec_hexEnc_overflow (not_lt.1 hr) hover
  have hlen := s.length_hexEncode_input
  obtain ⟨t, hst, holen, hobuf, hframe⟩ :=
    completes_putOut (exec_hexEnc_ok (not_lt.1 hr) (not_lt.1 hover)) (by omega)
  rw [hlen] at holen hobuf
  refine ⟨t, hst, holen, fun k hk => ?_, hframe⟩
  have hbyte := (s.ibuf k).isLt
  obtain ⟨hhigh, hlow⟩ := getD_hexEncode s.input (by rwa [s.length_input] : k < s.input.length)
  rw [s.getD_input hk] at hhigh hlow
  rw [hobuf _ (by omega), hobuf _ (by omega), hhigh, hlow, getD_hexDigits _ (by omega), getD_hexDigits _ (by omega)]
  exact ⟨rfl, rfl⟩

/-! ### HEX_DEC (45_hex_codec.md R237, R239) -/

/-- The characters that HEX_DEC consumes: all but an odd last one (45_hex_codec.md R239). -/
def consumedChars (t : Buffer) : Buffer := t.take (2 * (t.length / 2))

theorem consumedChars_cons_cons (h l : Byte) (t : Buffer) :
    consumedChars (h :: l :: t) = h :: l :: consumedChars t := by
  have hlen : 2 * ((h :: l :: t).length / 2) = 2 * (t.length / 2) + 2 := by simp only [List.length_cons]; omega
  rw [consumedChars, hlen, List.take_succ_cons, List.take_succ_cons, consumedChars]

theorem length_consumedChars (t : Buffer) : (consumedChars t).length = 2 * (t.length / 2) := by
  rw [consumedChars, List.length_take, Nat.min_eq_left (by omega)]

theorem getD_consumedChars (t : Buffer) {k : Nat} (h : k < 2 * (t.length / 2)) :
    (consumedChars t).getD k 0 = t.getD k 0 := by
  rw [consumedChars, List.getD_eq_getElem?_getD, List.getElem?_take_of_lt h, List.getD_eq_getElem?_getD]

/-- A pair of characters is decoded to the byte they spell, and the rest of the text after it. -/
theorem hexDecode_cons_cons_eq_some_iff {h l : Byte} {t b : Buffer} : hexDecode (h :: l :: t) = some b ↔
    ∃ x y rest, hexVal h = some x ∧ hexVal l = some y ∧ hexDecode t = some rest ∧
      BitVec.ofNat 8 (x * 16 + y) :: rest = b := by
  rw [hexDecode]
  cases hexVal h <;> cases hexVal l <;> simp

/-- A text is refused exactly where a consumed character is none of the sixteen. -/
theorem exists_hexDecode_iff (t : Buffer) :
    (∃ b, hexDecode t = some b) ↔ ∀ c ∈ consumedChars t, c ∈ hexDigits := by
  induction t using List.twoStepInduction with
  | nil => simp [hexDecode, consumedChars]
  | singleton => simp [hexDecode, consumedChars]
  | cons_cons h l t ih _ =>
    rw [consumedChars_cons_cons, List.forall_mem_cons, List.forall_mem_cons, ← ih, ← exists_hexVal_iff,
      ← exists_hexVal_iff]
    simp only [hexDecode_cons_cons_eq_some_iff]
    constructor
    · rintro ⟨_, x, y, rest, hx, hy, hrest, -⟩
      exact ⟨⟨x, hx⟩, ⟨y, hy⟩, rest, hrest⟩
    · rintro ⟨⟨x, hx⟩, ⟨y, hy⟩, rest, hrest⟩
      exact ⟨_, x, y, rest, hx, hy, hrest, rfl⟩

/-- What the decoder gives is the buffer whose text the consumed characters are (45_hex_codec.md R236, R237). -/
theorem hexEncode_of_hexDecode {t b : Buffer} (hb : hexDecode t = some b) : hexEncode b = consumedChars t := by
  induction t using List.twoStepInduction generalizing b with
  | nil => cases hb; rfl
  | singleton => cases hb; simp [hexEncode, consumedChars]
  | cons_cons h l t ih _ =>
    obtain ⟨x, y, rest, hx, hy, hrest, rfl⟩ := hexDecode_cons_cons_eq_some_iff.1 hb
    obtain ⟨hx, rfl⟩ := eq_hexChar_of_hexVal hx
    obtain ⟨hy, rfl⟩ := eq_hexChar_of_hexVal hy
    rw [hexEncode, consumedChars_cons_cons, ih hrest, BitVec.toNat_ofNat, Nat.mod_eq_of_lt (by omega),
      show (x * 16 + y) / 16 = x by omega, show (x * 16 + y) % 16 = y by omega]

/-- The consumed characters of the input buffer are its first `2 * (ILEN div 2)` bytes. -/
theorem State.forall_mem_consumedChars_input (s : State) :
    (∀ c ∈ consumedChars s.input, c ∈ hexDigits) ↔ ∀ k < 2 * (s.ilen.toNat / 2), s.ibuf k ∈ hexDigits := by
  have hlen : (consumedChars s.input).length = 2 * (s.ilen.toNat / 2) := by rw [length_consumedChars, s.length_input]
  have hchar {k : Nat} (hk : k < (consumedChars s.input).length) : (consumedChars s.input)[k] = s.ibuf k := by
    rw [← List.getD_eq_getElem _ 0 hk, getD_consumedChars _ (by rw [s.length_input]; omega), s.getD_input (by omega)]
  rw [List.forall_mem_iff_forall_getElem]
  simp only [hchar, hlen]

theorem State.length_hexDecode_input {s : State} {b : Buffer} (hb : hexDecode s.input = some b) :
    b.length = s.ilen.toNat / 2 := by
  rw [length_hexDecode _ _ hb, s.length_input]

/-- Each byte of the decoded input is the one that its two characters spell. -/
theorem State.getD_hexDecode_input {s : State} {b : Buffer} (hb : hexDecode s.input = some b) {k x y : Nat}
    (hk : k < s.ilen.toNat / 2) (hx : x < 16) (hy : y < 16) (hhigh : s.ibuf (2 * k) = hexChar x)
    (hlow : s.ibuf (2 * k + 1) = hexChar y) : (b.getD k 0).toNat = 16 * x + y := by
  have hlen := State.length_hexDecode_input hb
  obtain ⟨hhigh', hlow'⟩ := getD_hexEncode b (hlen ▸ hk)
  rw [hexEncode_of_hexDecode hb, getD_consumedChars _ (by rw [s.length_input]; omega),
    s.getD_input (by omega)] at hhigh' hlow'
  have := (b.getD k 0).isLt
  have hxByte := hexChar_inj hx (by omega) (hhigh.symm.trans hhigh')
  have hyByte := hexChar_inj hy (by omega) (hlow.symm.trans hlow')
  omega

theorem exec_hexDec (s : State) : exec .hexDec s = withInput s fun b =>
    (hexDecode b).elim (fails .badHexDigit s) fun out => finish (s.putOut out) := by
  refine (congrArg (withInput s) (funext fun b => ?_) : execHexDec s = _)
  cases hexDecode b <;> rfl

section Decode

variable {s : State} (hr : s.ilen.toNat ≤ s.params.bufMax)
include hr

theorem exec_hexDec_badDigit (h : hexDecode s.input = none) : FaultsWith .hexDec s 0x17 := by
  rw [FaultsWith, exec_hexDec, withInput_ok hr, h]; rfl

theorem exec_hexDec_ok {b : Buffer} (h : hexDecode s.input = some b) :
    exec .hexDec s = .next (s.putOut b).complete := by
  rw [exec_hexDec, withInput_ok hr, h]; rfl

end Decode

/-- Settles O56: the checks in their order, and then the buffer whose text the consumed characters are as the output. -/
theorem hexDecReadsTwoCharactersAByte : Obligations.HexDecReadsTwoCharactersAByte := by
  refine ⟨rfl, fun s _ => ⟨fun hr => ?_, fun hr hbad => ?_, fun hr hgood => ?_⟩⟩
  · exact (exec_hexDec s).trans (withInput_range hr _)
  · obtain ⟨k, hk, hchar⟩ := hbad
    refine exec_hexDec_badDigit hr (Option.eq_none_iff_forall_ne_some.2 fun b hb => hchar ?_)
    exact s.forall_mem_consumedChars_input.1 ((exists_hexDecode_iff _).1 ⟨b, hb⟩) k hk
  · obtain ⟨b, hb⟩ := (exists_hexDecode_iff _).2 (s.forall_mem_consumedChars_input.2 hgood)
    have hlen := State.length_hexDecode_input hb
    have := s.ilen.isLt
    obtain ⟨t, hst, holen, hobuf, hframe⟩ := completes_putOut (exec_hexDec_ok hr hb) (by omega)
    refine ⟨t, hst, holen.trans hlen, fun k hk x hx y hy hhigh hlow => ?_, hframe⟩
    rw [getD_hexDigits _ hx] at hhigh
    rw [getD_hexDigits _ hy] at hlow
    rw [hobuf k (hlen ▸ hk), State.getD_hexDecode_input hb hk hx hy hhigh hlow]

/-! ### HEX_DEC undoes HEX_ENC (45_hex_codec.md R240) -/

/-- Settles O57: XFER moves the text of the input to IBUF, and its decoding is the input. -/
theorem hexRoundTrip : Obligations.HexRoundTrip := by
  intro s hp hfits
  have hlen := s.length_hexEncode_input
  obtain ⟨u, htu, hinput, hparams, -⟩ := xfer_putOut_input (b := hexEncode s.input) hp (by omega)
  have hrange : u.ilen.toNat ≤ u.params.bufMax := by rw [← u.length_input, hinput, hparams]; omega
  have hdec := exec_hexDec_ok hrange (hinput ▸ hexDecode_hexEncode s.input)
  obtain ⟨v, huv, holen, hobuf, -⟩ := completes_putOut hdec (by rw [s.length_input]; exact s.ilen.isLt)
  rw [s.length_input] at holen hobuf
  refine ⟨_, u, v, ⟨exec_hexEnc_ok (by omega) hfits, rfl, rfl⟩, htu, huv, BitVec.eq_of_toNat_eq holen,
    fun k hk => ?_⟩
  rw [hobuf k hk, s.getD_input hk]

end Sys2Proof.Machine

/-! Functions of the host from 46_host_sequences.md: the modular inverse by the extended Euclid (R253) and the
left-padding of recovered key material (R265). -/

namespace Sys2Proof.Machine

/-! ### The modular inverse (46_host_sequences.md R253) -/

@[simp] theorem euclidGo_of_zero (m fuel r t t' : Nat) : euclidGo m fuel r t 0 t' = (r, t) := by
  cases fuel <;> simp [euclidGo]

theorem euclidGo_succ (m fuel : Nat) {r₀ r₁ : Nat} (t₀ t₁ : Nat) (h : r₁ ≠ 0) :
    euclidGo m (fuel + 1) r₀ t₀ r₁ t₁ =
      euclidGo m fuel r₁ t₁ (r₀ % r₁) ((t₀ + m * (r₀ / r₁) - r₀ / r₁ * t₁) % m) := by
  rw [euclidGo, if_neg h]

/-- A remainder by a positive number not above the dividend is less than half of the dividend. -/
theorem two_mul_mod_lt {x y : Nat} (hy : 0 < y) (h : y ≤ x) : 2 * (x % y) < x := by
  have hlt : x % y < y := Nat.mod_lt x hy
  have hsub : x % y ≤ x - y := Nat.mod_eq_sub_mod h ▸ Nat.mod_le _ _
  omega

/-- Each round more than halves the product of the two remainders, so with fuel for that product the first component
is the greatest common divisor. -/
theorem euclidGo_fst (m : Nat) {fuel r₀ r₁ : Nat} (t₀ t₁ : Nat) (hlt : r₁ < r₀) (hfuel : r₀ * r₁ < 2 ^ fuel) :
    (euclidGo m fuel r₀ t₀ r₁ t₁).1 = Nat.gcd r₀ r₁ := by
  induction fuel generalizing r₀ r₁ t₀ t₁ with
  | zero =>
    have hr₁ : r₁ = 0 := (Nat.mul_eq_zero.1 (Nat.lt_one_iff.1 hfuel)).resolve_left (by omega)
    simp [hr₁]
  | succ fuel ih =>
    rcases Nat.eq_zero_or_pos r₁ with rfl | hpos
    · simp
    · have hhalf : 2 * (r₁ * (r₀ % r₁)) < 2 * 2 ^ fuel :=
        calc 2 * (r₁ * (r₀ % r₁)) = r₁ * (2 * (r₀ % r₁)) := by ring
          _ < r₁ * r₀ := Nat.mul_lt_mul_of_pos_left (two_mul_mod_lt hpos hlt.le) hpos
          _ = r₀ * r₁ := Nat.mul_comm _ _
          _ < 2 * 2 ^ fuel := by rwa [← pow_succ']
      rw [euclidGo_succ _ _ _ _ hpos.ne', ih _ _ (Nat.mod_lt _ hpos) (by omega), Nat.gcd_comm, ← Nat.gcd_rec,
        Nat.gcd_comm]

/-- One round keeps `a * t ≡ r (mod m)`; the subtraction does not truncate since `t₁ ≤ m`. -/
theorem euclid_round_modEq {a m r₀ t₀ r₁ t₁ : Nat} (ht₁ : t₁ ≤ m) (h₀ : a * t₀ ≡ r₀ [MOD m])
    (h₁ : a * t₁ ≡ r₁ [MOD m]) :
    a * ((t₀ + m * (r₀ / r₁) - r₀ / r₁ * t₁) % m) ≡ r₀ % r₁ [MOD m] := by
  set q := r₀ / r₁ with hq
  have hle : q * t₁ ≤ t₀ + m * q := by
    have := Nat.mul_le_mul_left q ht₁
    rw [Nat.mul_comm q m] at this
    omega
  have hsum : a * (t₀ + m * q - q * t₁) + q * (a * t₁) ≡ r₀ % r₁ + q * (a * t₁) [MOD m] :=
    calc a * (t₀ + m * q - q * t₁) + q * (a * t₁)
        = a * (t₀ + m * q - q * t₁ + q * t₁) := by ring
      _ = a * t₀ + m * (a * q) := by rw [Nat.sub_add_cancel hle]; ring
      _ ≡ a * t₀ [MOD m] := by simp [Nat.ModEq]
      _ ≡ r₀ [MOD m] := h₀
      _ = r₀ % r₁ + q * r₁ := by rw [hq, Nat.mul_comm, Nat.mod_add_div]
      _ ≡ r₀ % r₁ + q * (a * t₁) [MOD m] := (h₁.symm.mul_left q).add_left _
  exact ((Nat.mod_modEq _ m).mul_left a).trans (Nat.ModEq.add_right_cancel' _ hsum)

theorem euclidGo_modEq {a m : Nat} (hm : 0 < m) (fuel : Nat) {r₀ t₀ r₁ t₁ : Nat} (ht₁ : t₁ ≤ m)
    (h₀ : a * t₀ ≡ r₀ [MOD m]) (h₁ : a * t₁ ≡ r₁ [MOD m]) :
    a * (euclidGo m fuel r₀ t₀ r₁ t₁).2 ≡ (euclidGo m fuel r₀ t₀ r₁ t₁).1 [MOD m] := by
  induction fuel generalizing r₀ t₀ r₁ t₁ with
  | zero => exact h₀
  | succ fuel ih =>
    by_cases hr₁ : r₁ = 0
    · subst hr₁; simpa using h₀
    · rw [euclidGo_succ _ _ _ _ hr₁]
      exact ih (Nat.mod_lt _ hm).le h₁ (euclid_round_modEq ht₁ h₀ h₁)

/-- The fuel of `modInverse` is enough for the whole run of the algorithm. -/
theorem mul_mod_lt_euclidFuel (a : Nat) {m : Nat} (hm : 0 < m) : m * (a % m) < 2 ^ (2 * Nat.log2 m + 3) := by
  have hlog : m < 2 ^ (Nat.log2 m + 1) := Nat.lt_log2_self
  calc m * (a % m) ≤ m * m := Nat.mul_le_mul_left m (Nat.mod_lt a hm).le
    _ < 2 ^ (Nat.log2 m + 1) * 2 ^ (Nat.log2 m + 1) := Nat.mul_lt_mul'' hlog hlog
    _ = 2 ^ (2 * Nat.log2 m + 2) := by ring
    _ ≤ 2 ^ (2 * Nat.log2 m + 3) := Nat.pow_le_pow_right (by norm_num) (by omega)

/-- What the extended Euclid of `modInverse` ends with: the greatest common divisor and a Bezout coefficient of `a`
modulo `m`. -/
theorem exists_modInverse_eq (a : Nat) {m : Nat} (hm : 0 < m) :
    ∃ t, a * t ≡ Nat.gcd a m [MOD m] ∧
      modInverse a m = if Nat.gcd a m = 1 then .ok (t % m) else .error .noInverse := by
  have hgcd : (euclidGo m (2 * Nat.log2 m + 3) m 0 (a % m) (1 % m)).1 = Nat.gcd a m := by
    rw [euclidGo_fst m 0 (1 % m) (Nat.mod_lt a hm) (mul_mod_lt_euclidFuel a hm), Nat.gcd_comm, ← Nat.gcd_rec,
      Nat.gcd_comm]
  have hone : a * (1 % m) ≡ a % m [MOD m] := by
    simpa using ((Nat.mod_modEq 1 m).mul_left a).trans (Nat.mod_modEq (a * 1) m).symm
  have hcoeff := euclidGo_modEq (a := a) (r₀ := m) (t₀ := 0) (r₁ := a % m) (t₁ := 1 % m) hm (2 * Nat.log2 m + 3)
    (Nat.mod_lt 1 hm).le (by simp [Nat.ModEq]) hone
  rw [hgcd] at hcoeff
  exact ⟨_, hcoeff, by simp only [modInverse, hgcd]⟩

/-- Settles O58: the extended Euclid ends with the greatest common divisor and a coefficient `t` of `a`, and for
divisor 1 the answer is `t` reduced below `m`. -/
theorem modInverseOrNoInverse : Obligations.ModInverseOrNoInverse := by
  intro a m hm
  have hpos : 0 < m := by omega
  obtain ⟨t, ht, hinv⟩ := exists_modInverse_eq a hpos
  refine ⟨fun hgcd => ⟨t % m, by rw [hinv, if_pos hgcd], Nat.mod_lt t hpos, ?_⟩, fun hgcd => by rw [hinv, if_neg hgcd]⟩
  rw [hgcd] at ht
  calc a * (t % m) % m = a * t % m := (Nat.mod_modEq t m).mul_left a
    _ = 1 % m := ht
    _ = 1 := Nat.mod_eq_of_lt hm

/-! ### The padding of recovered key material (46_host_sequences.md R265) -/

/-- Zero bytes in front leave a buffer's number as it is (41_bigint_rsa.md R130). -/
@[simp] theorem importBytes_leftPad (n : Nat) (b : Buffer) : importBytes (leftPad n b) = importBytes b := by
  unfold leftPad
  induction n - b.length with
  | zero => rfl
  | succ k ih => simpa [List.replicate_succ, importBytes_cons] using ih

theorem length_leftPad {n : Nat} {b : Buffer} (h : b.length ≤ n) : (leftPad n b).length = n := by
  simp [leftPad, h]

/-- Settles O59: the padded buffer has the length and the number of the one that was exported, and a buffer is fixed by
these two. -/
theorem leftPaddingRestoresKeyMaterial : Obligations.LeftPaddingRestoresKeyMaterial := by
  intro b
  have hlen : (exportBytes (importBytes b)).length ≤ b.length := length_exportBytes_le _ _ (importBytes_lt b)
  exact importBytes_inj (length_leftPad hlen) (by simp)

end Sys2Proof.Machine

/-! The faults of 60_exceptions.md: the codes (R280), what a fault writes (R284), and the checks of every command in
their order (R289). Reset and the hazards of 70_reset_and_hazards.md: what a busy engine shows (R326), what a reset
restores (R320), every command straight after reset (R324), and where the machine stops (R333). -/

namespace Sys2Proof.Machine

/-! ### The code table (60_exceptions.md R280) -/

theorem mem_codeTable (e : ErrorKind) : (e, e.code) ∈ codeTable := by cases e <;> decide

/-- Settles O21: every kind has its row in the table, and no two rows have the same code. -/
theorem errorCodesAsTabulated : Obligations.ErrorCodesAsTabulated := by
  have hcodes : (codeTable.map Prod.snd).Nodup := by decide
  refine ⟨by decide, fun e => ⟨_, mem_codeTable e, rfl⟩, fun e f h => ?_⟩
  exact congrArg Prod.fst (List.inj_on_of_nodup_map hcodes (mem_codeTable e) (mem_codeTable f) h)

/-! ### What a fault writes (60_exceptions.md R284) -/

/-- Of the states an engine step can leave, those of a fault alone have DONE 0. -/
theorem Effect.eq_raise_of_done {s t : State} {i : Instr} (h : Effect s i t) (ht : t.done = false) :
    ∃ e ∈ engineKinds, t = s.raise e := by
  cases h with
  | fault _ e he => exact ⟨e, he, rfl⟩
  | nop | clear | xfer | load | move | product | output | check => simp at ht

/-- Settles O19: an engine step that leaves DONE 0 raised one of the engine's kinds, whose row is in the table. -/
theorem faultsWriteNothingElse : Obligations.FaultsWriteNothingElse := by
  intro i s t h ht
  obtain ⟨e, he, rfl⟩ := (exec_effect h).eq_raise_of_done ht
  exact ⟨_, mem_codeTable e, he, rfl⟩

/-! ### The checks of a command (60_exceptions.md R289) -/

/-- `r` is the fault of the first check of `l` that fails, and a completion where none fails. -/
def Answers (s : State) (r : Result) (l : List (Prop × Byte)) : Prop :=
  (∀ c, FirstFailing l c → r = .next (faulted s c)) ∧
  (NoneFails l → ∃ t, r = .next t ∧ t.inFlight = none ∧ t.done = true)

section Answers

variable {s : State} {r : Result} {l : List (Prop × Byte)} {p q : Prop} {c : Byte}

theorem answers_finish (s t : State) : Answers s (finish t) [] := ⟨nofun, fun _ => ⟨t.complete, rfl, rfl, rfl⟩⟩

/-- One check in front of others. -/
theorem answers_cons (hp : p → r = .next (faulted s c)) (hl : ¬ p → Answers s r l) : Answers s r ((p, c) :: l) := by
  refine ⟨?_, fun ⟨hnp, hnone⟩ => (hl hnp).2 hnone⟩
  rintro d (⟨h, rfl⟩ | ⟨hnp, hfirst⟩)
  · exact hp h
  · exact (hl hnp).1 d hfirst

theorem answers_ite [Decidable q] (e : ErrorKind) (hq : q ↔ p) (h : Answers s r l) :
    Answers s (if q then fails e s else r) ((p, e.code) :: l) := by
  refine answers_cons (fun hp => if_pos (hq.2 hp)) fun hp => ?_
  rwa [if_neg (mt hq.1 hp)]

/-- Two checks of one code are one check. -/
theorem answers_or (h : Answers s r ((p, c) :: (q, c) :: l)) : Answers s r ((p ∨ q, c) :: l) := by
  obtain ⟨hfirst, hnone⟩ := h
  refine answers_cons (fun hpq => hfirst c ?_) fun hpq => ⟨fun d hd => hfirst d ?_, fun hl => hnone ?_⟩
  · by_cases hp : p
    · exact .inl ⟨hp, rfl⟩
    · exact .inr ⟨hp, .inl ⟨hpq.resolve_left hp, rfl⟩⟩
  · obtain ⟨hp, hq⟩ := not_or.1 hpq
    exact .inr ⟨hp, .inr ⟨hq, hd⟩⟩
  · obtain ⟨hp, hq⟩ := not_or.1 hpq
    exact ⟨hp, hq, hl⟩

theorem answers_withMpReg {rd : Selector} {k : MpReg → Result} (h : ∀ q, Answers s (k q) l) :
    Answers s (withMpReg rd s k) ((5 ≤ rd.toNat, 0x10) :: l) := by
  refine answers_cons (fun hrd => withMpReg_illegal hrd s k) fun hrd => ?_
  obtain ⟨q, hq⟩ := Option.ne_none_iff_exists'.1 (mt mpRegOf_eq_none.1 hrd)
  rw [withMpReg_some hq]
  exact h q

theorem answers_withInput {k : Buffer → Result} (h : s.ilen.toNat ≤ s.params.bufMax → Answers s (k s.input) l) :
    Answers s (withInput s k) ((s.params.bufMax < s.ilen.toNat, 0x11) :: l) := by
  refine answers_cons (fun hr => withInput_range hr k) fun hr => ?_
  rw [withInput_ok (not_lt.1 hr)]
  exact h (not_lt.1 hr)

theorem answers_withKey {k : Buffer → Result} (h : Answers s (k s.keyBytes) l) :
    Answers s (withKey s k) ((¬ ValidKeyLength s, 0x02) :: l) := by
  refine answers_cons (fun hk => withKey_invalid hk k) fun hk => ?_
  rwa [withKey_valid (not_not.1 hk)]

theorem answers_withBlockSize {k : Nat → Result} (h : Answers s (k s.padbs.toNat) l) :
    Answers s (withBlockSize s k) ((s.padbs = 0, 0x18) :: l) := by
  refine answers_cons (fun hz => withBlockSize_zero hz k) fun hz => ?_
  rwa [withBlockSize_ok hz]

end Answers

/-! ### The commands that share their checks -/

theorem rsaCore_answers (s : State) (e : ErrorKind) : Answers s (rsaCore e s)
    [(s.params.bufMax < s.ilen.toNat, 0x11), (bigEndian s.ibuf s.ilen.toNat ≥ s.mpn, e.code)] := by
  rw [← s.importBytes_input]
  exact answers_withInput fun _ => answers_ite e .rfl (answers_finish _ _)

theorem singleBlock_answers (s : State) (f : Buffer → Buffer → Buffer) : Answers s (singleBlock s f)
    [(s.params.bufMax < s.ilen.toNat, 0x11), (s.ilen.toNat ≠ 16, 0x05), (¬ ValidKeyLength s, 0x02)] := by
  refine answers_withInput fun _ => answers_ite .invalidLength .rfl ?_
  exact answers_withKey (answers_finish _ _)

theorem cbcCommand_answers (s : State) (f : Buffer → Buffer → Buffer → Buffer) : Answers s (cbcCommand s f)
    [(s.params.bufMax < s.ilen.toNat, 0x11), (s.ilen.toNat = 0 ∨ s.ilen.toNat % 16 ≠ 0, 0x05),
     (¬ ValidKeyLength s, 0x02)] := by
  refine answers_withInput fun _ => answers_ite .invalidLength .rfl ?_
  exact answers_withKey (answers_finish _ _)

/-! ### Every command -/

theorem exec_aesKeyexp (s : State) :
    exec .aesKeyexp s = withKey s fun key => finish (s.putOut (keyExpansion key)) := rfl

/-- HEX_DEC's check is the decoder's answer (45_hex_codec.md R239). -/
theorem State.hexDecode_input_eq_none_iff (s : State) :
    hexDecode s.input = none ↔ ∃ k < 2 * (s.ilen.toNat / 2), s.ibuf k ∉ hexDigits := by
  rw [← not_iff_not, ← ne_eq, Option.ne_none_iff_exists', exists_hexDecode_iff, s.forall_mem_consumedChars_input]
  push Not
  rfl

/-- The meaning of each command is its chain of checks, in the order of 60_exceptions.md R289, and then a completion. -/
theorem exec_answers (i : Instr) (s : State) : Answers s (exec i s) (checksOf s i) := by
  cases i with
  | nop => exact answers_finish s _
  | clear => exact answers_finish s _
  | xfer => exact answers_finish s _
  | mpLoad rd =>
    rw [checksOf, ← s.importBytes_input]
    exact answers_withMpReg fun _ => answers_withInput fun _ => answers_ite .operandTooLarge .rfl (answers_finish _ _)
  | mpStore rs => exact answers_withMpReg fun _ => answers_finish _ _
  | mpMov rd rs => exact answers_or (answers_withMpReg fun _ => answers_withMpReg fun _ => answers_finish _ _)
  | montmul =>
    exact answers_ite .modulusNotOdd .rfl (answers_ite .operandRange .rfl (answers_finish _ _))
  | modexp => exact answers_ite .modulusZero .rfl (answers_finish _ _)
  | rsaEnc => exact rsaCore_answers s .plaintextTooLarge
  | rsaDec => exact rsaCore_answers s .ciphertextTooLarge
  | aesKeyexp =>
    rw [exec_aesKeyexp]
    exact answers_withKey (answers_finish _ _)
  | aesEncBlk => exact singleBlock_answers s cipher
  | aesDecBlk => exact singleBlock_answers s invCipher
  | cbcEnc => exact cbcCommand_answers s cbcEncrypt
  | cbcDec => exact cbcCommand_answers s cbcDecrypt
  | pkcs7Pad =>
    rw [exec_pkcs7Pad]
    exact answers_withInput fun _ => answers_withBlockSize (answers_ite .outputOverflow .rfl (answers_finish _ _))
  | pkcs7Check =>
    rw [exec_pkcs7Check]
    exact answers_withInput fun _ => answers_withBlockSize (answers_finish _ _)
  | pkcs7Unpad =>
    rw [exec_pkcs7Unpad]
    exact answers_withInput fun _ => answers_withBlockSize
      (answers_ite .invalidPadding (s.checkInvalid_input _) (answers_finish _ _))
  | hexEnc =>
    rw [exec_hexEnc]
    exact answers_withInput fun _ => answers_ite .outputOverflow .rfl (answers_finish _ _)
  | hexDec =>
    rw [exec_hexDec]
    refine answers_withInput fun _ => ?_
    rw [← s.hexDecode_input_eq_none_iff]
    cases hexDecode s.input with
    | none => exact answers_cons (fun _ => rfl) fun h => absurd rfl h
    | some b => exact answers_cons nofun fun _ => answers_finish s _

/-- Settles O20: command by command, the checks stand in the meaning as they stand in `checksOf`. -/
theorem checksInTheStatedOrder : Obligations.ChecksInTheStatedOrder := exec_answers

/-! ### Reads of a busy engine (70_reset_and_hazards.md R326) -/

/-- A busy engine shows no other offset than those of ID, CFG0, CFG1 and STATUS (20_memory.md R63). -/
theorem busyRead_hidden (s : State) {a : Nat} (hid : a ≠ 0x0000) (hcfg0 : a ≠ 0x0004) (hcfg1 : a ≠ 0x0008)
    (hstatus : a ≠ 0x0014) : busyRead s a = 0 := by
  unfold busyRead regionOf
  rw [if_neg hid, if_neg hcfg0, if_neg hcfg1, if_neg hstatus]
  split_ifs <;> rfl

/-- What a busy engine shows at every offset (20_memory.md R63). -/
theorem busyRead_eq {s : State} (hp : s.params.Valid) (hb : s.busy = true) (a : Nat) : busyRead s a = BitVec.ofNat 32 (
    if a = 0x0000 then 0x434F5245
    else if a = 0x0004 then s.params.bufMax * 65536 + s.params.mpBits
    else if a = 0x0008 then 1 * 65536 + 16 * 256 + s.params.keyBytesMax
    else if a = 0x0014 then statusNumber true s.done s.err s.pinv
    else 0) := by
  have ⟨_, ⟨_, _, hkey⟩, _⟩ := hp
  split_ifs with hid hcfg0 hcfg1 hstatus
  · subst hid; rfl
  · subst hcfg0; exact cfg0Word_eq _ (Params.mpBits_lt_of_valid hp)
  · subst hcfg1; exact cfg1Word_eq _ (by omega)
  · subst hstatus; rw [← hb]; exact s.statusWord_eq
  · exact busyRead_hidden s hid hcfg0 hcfg1 hstatus

/-- Settles O10: the step of a waiting command is the host's access, which a busy engine drops or answers by the
offset. -/
theorem busyHazard : Obligations.BusyHazard := by
  intro s w n a x hp hs ha h4
  refine ⟨writes_waiting hs ha h4 x, ?_⟩
  rw [step_waiting hs, hostOp_read ha h4, busRead_busy rfl, busyRead_eq (by exact hp) rfl]
  rfl

/-! ### Where the machine stops (70_reset_and_hazards.md R333) -/

/-- Some check fails first, or none fails. -/
theorem firstFailing_or_noneFails (l : List (Prop × Byte)) : (∃ c, FirstFailing l c) ∨ NoneFails l := by
  induction l with
  | nil => exact .inr trivial
  | cons check l ih =>
    obtain ⟨p, d⟩ := check
    by_cases hp : p
    · exact .inl ⟨d, .inl ⟨hp, rfl⟩⟩
    · exact ih.imp (fun ⟨c, hc⟩ => ⟨c, .inr ⟨hp, hc⟩⟩) fun hl => ⟨hp, hl⟩

/-- No command stops the machine: its engine step faults as a next state or completes. -/
theorem exists_exec_eq_next (i : Instr) (s : State) : ∃ t, exec i s = .next t := by
  obtain ⟨hfaults, hcompletes⟩ := exec_answers i s
  obtain ⟨c, hc⟩ | hnone := firstFailing_or_noneFails (checksOf s i)
  · exact ⟨_, hfaults c hc⟩
  · obtain ⟨t, ht, -⟩ := hcompletes hnone
    exact ⟨t, ht⟩

theorem exists_engineStep_eq_next (w : Word) (s : State) : ∃ t, engineStep w s = .next t := by
  unfold engineStep
  split
  · exact ⟨_, rfl⟩
  · exact exists_exec_eq_next _ s

/-- An access that is no part of the interface (20_memory.md R70). -/
def HostOp.foreign (op : HostOp) : Prop :=
  (∃ a, op = .read a ∧ a.toNat % 4 ≠ 0) ∨ (∃ a w, op = .write a w ∧ a.toNat % 4 ≠ 0) ∨ ∃ a n, op = .odd a n

/-- The host's turn refuses the accesses that are no part of the interface, and nothing else. -/
theorem hostOp_next_or_refused (s : State) (op : HostOp) :
    (∃ t, hostOp s op = .next t) ∨ ∃ r, hostOp s op = .refused r ∧ op.foreign := by
  cases op with
  | read a =>
    by_cases h : a.toNat % 4 ≠ 0
    · exact .inr ⟨_, if_pos h, .inl ⟨a, rfl, h⟩⟩
    · exact .inl ⟨_, if_neg h⟩
  | write a w =>
    by_cases h : a.toNat % 4 ≠ 0
    · exact .inr ⟨_, if_pos h, .inr (.inl ⟨a, w, rfl, h⟩)⟩
    · exact .inl ⟨_, if_neg h⟩
  | wait =>
    cases h : s.inFlight with
    | none => exact .inl ⟨_, hostOp_wait_idle h⟩
    | some f => exact .inl ⟨_, hostOp_wait_busy h⟩
  | rdbuf => exact .inl ⟨_, rfl⟩
  | reset => exact .inl ⟨_, rfl⟩
  | odd a n => exact .inr ⟨_, rfl, .inr (.inr ⟨a, n, rfl⟩)⟩

theorem hostTurn_next_or_refused (s : State) :
    (∃ t, hostTurn s = .next t) ∨ ∃ op rest r, s.host = op :: rest ∧ hostTurn s = .refused r ∧ op.foreign := by
  unfold hostTurn
  split
  · exact .inl ⟨s, rfl⟩
  · next op rest hh =>
    refine (hostOp_next_or_refused _ op).imp_right ?_
    rintro ⟨r, hr, hforeign⟩
    exact ⟨op, rest, r, hh, hr, hforeign⟩

/-- Settles O18: an engine step has a next state, and the host's turn has one but for a foreign access. -/
theorem onlyAForeignAccessStopsTheMachine : Obligations.OnlyAForeignAccessStopsTheMachine := by
  intro s
  unfold step machineStep
  cases hs : s.inFlight with
  | none => exact (hostTurn_next_or_refused s).imp_right fun h => ⟨.inl rfl, h⟩
  | some f =>
    by_cases hw : f.wait = 0
    · simp only [hw, if_true]
      exact .inl (exists_engineStep_eq_next f.word s)
    · simp only [hw, if_false]
      exact (hostTurn_next_or_refused { s with inFlight := some { f with wait := f.wait - 1 } }).imp_right
        fun h => ⟨.inr ⟨f, rfl, hw⟩, h⟩

/-! ### Reset (70_reset_and_hazards.md R320, R324) -/

/-- Settles O15: both kinds of the host's turn take the reset. -/
theorem resetEventRestoresResetValues : Obligations.ResetEventRestoresResetValues := by
  intro s hwait
  refine ⟨s.afterReset, ?_, s.afterReset_storages, rfl, rfl, ⟨rfl, rfl, rfl, rfl⟩⟩
  obtain hs | ⟨⟨w, n⟩, hs⟩ := Option.eq_none_or_eq_some s.inFlight
  · rw [step_idle hs]; rfl
  · obtain ⟨n, rfl⟩ := Nat.exists_eq_succ_of_ne_zero (hwait _ hs)
    rw [step_waiting hs]; rfl

/-- Settles O17: the reset state has an empty input, no key, PADBS 16 and every register 0, so each fault is that of the
first check that these fail. -/
theorem commandsStraightAfterReset : Obligations.CommandsStraightAfterReset := by
  have faults (i : Instr) {c : Byte} := (checksInTheStatedOrder i State.reset).1 c
  have inRange : ¬ State.reset.params.bufMax < State.reset.ilen.toNat := by decide
  have noKey : ¬ ValidKeyLength State.reset := fun ⟨_, hmin, _⟩ => absurd hmin (by decide)
  refine ⟨?_, ?_, ?_, ?_, ?_, ?_, ?_, ?_, ?_, ?_, ?_, ?_, ?_, ?_, ?_⟩
  · exact faults .modexp (.inl ⟨rfl, rfl⟩)
  · exact faults .montmul (.inl ⟨rfl, rfl⟩)
  · exact faults .rsaEnc (.inr ⟨inRange, .inl ⟨Nat.zero_le _, rfl⟩⟩)
  · exact faults .rsaDec (.inr ⟨inRange, .inl ⟨Nat.zero_le _, rfl⟩⟩)
  · exact faults .aesKeyexp (.inl ⟨noKey, rfl⟩)
  · exact faults .aesEncBlk (.inr ⟨inRange, .inl ⟨by decide, rfl⟩⟩)
  · exact faults .aesDecBlk (.inr ⟨inRange, .inl ⟨by decide, rfl⟩⟩)
  · exact faults .cbcEnc (.inr ⟨inRange, .inl ⟨.inl rfl, rfl⟩⟩)
  · exact faults .cbcDec (.inr ⟨inRange, .inl ⟨.inl rfl, rfl⟩⟩)
  · exact faults .pkcs7Unpad (.inr ⟨inRange, .inr ⟨by decide, .inl ⟨.inl rfl, rfl⟩⟩⟩)
  · have hload : exec (.mpLoad 0) State.reset = finish (State.reset.setMp .mpn 0) :=
      (exec_mpLoad_selectorOf .mpn State.reset).trans
        ((withInput_ok (not_lt.1 inRange) _).trans (if_neg (Nat.two_pow_pos _).not_ge))
    exact ⟨_, ⟨hload, rfl, rfl⟩, rfl⟩
  · exact ⟨_, ⟨rfl, rfl, rfl⟩, rfl, by decide⟩
  · exact ⟨_, ⟨rfl, rfl, rfl⟩, rfl⟩
  · exact ⟨_, ⟨rfl, rfl, rfl⟩, rfl⟩
  · exact ⟨_, ⟨rfl, rfl, rfl⟩, rfl⟩

end Sys2Proof.Machine
